-- ==== Sys2Proof/Word.lean ====
section
/-! DEFINITION. The word types of the TPD: bytes of the input buffer, 32-bit registers and positions, and W-bit values. -/

namespace Sys2Proof

/-- One character code of the input buffer (R60). -/
abbrev Byte := BitVec 8

/-- A host register, a bit position or the version sum: 32 bits, unsigned (R10). -/
abbrev Word := BitVec 32

/-- A packet value, an operator result or VALUE: a W-bit unsigned number (R10, R210).
W is a parameter (R8), so the value is held as a natural number, and every rule that produces one narrows it
modulo 2^W (log entry 8). -/
abbrev Value := Nat

end Sys2Proof
end

