-- ==== Sys2Proof/Syntax.lean ====
section
/-! DEFINITION. The instructions of the TPD: one constructor per row of spec/opcode_table.json (R100). -/

namespace Sys2Proof

/-- A packet's own fields. `LIT` carries its version and the data nibbles D_1 to D_k of its groups, first
group first (R93). A `.B` operator carries its version and L (R94), a `.N` operator its version and N (R96). An
operator's children are packets of their own, not fields (R99). -/
inductive Instr where
  | lit (v : BitVec 3) (groups : List (BitVec 4))
  | sumB (v : BitVec 3) (len : BitVec 15)
  | sumN (v : BitVec 3) (cnt : BitVec 11)
  | prodB (v : BitVec 3) (len : BitVec 15)
  | prodN (v : BitVec 3) (cnt : BitVec 11)
  | minB (v : BitVec 3) (len : BitVec 15)
  | minN (v : BitVec 3) (cnt : BitVec 11)
  | maxB (v : BitVec 3) (len : BitVec 15)
  | maxN (v : BitVec 3) (cnt : BitVec 11)
  | gtB (v : BitVec 3) (len : BitVec 15)
  | gtN (v : BitVec 3) (cnt : BitVec 11)
  | ltB (v : BitVec 3) (len : BitVec 15)
  | ltN (v : BitVec 3) (cnt : BitVec 11)
  | eqB (v : BitVec 3) (len : BitVec 15)
  | eqN (v : BitVec 3) (cnt : BitVec 11)
  deriving DecidableEq, Repr

end Sys2Proof
end

