-- ==== Sys2Proof/WellFormed.lean ====
section
/-! DEFINITION. Which instruction terms are packets: every field value is legal (R104), and a literal has one or more
groups (R93). -/

namespace Sys2Proof

/-- R93: a literal has k >= 1 groups. R104: every value of V, T, I, L and N is legal. -/
def Instr.wellFormed : Instr → Bool
  | .lit _ groups => !groups.isEmpty
  | .sumB _ _ => true
  | .sumN _ _ => true
  | .prodB _ _ => true
  | .prodN _ _ => true
  | .minB _ _ => true
  | .minN _ _ => true
  | .maxB _ _ => true
  | .maxN _ _ => true
  | .gtB _ _ => true
  | .gtN _ _ => true
  | .ltB _ _ => true
  | .ltN _ _ => true
  | .eqB _ _ => true
  | .eqN _ _ => true

end Sys2Proof
end

