-- ==== Sys2Proof/Decode.lean ====
section
/-! DEFINITION. The decoder and the encoder of packets, over bits in stream order (R11, R90 to R102). -/

namespace Sys2Proof

/-- A list of bits read as one unsigned number, first bit most significant (R11, R63). -/
def bitsVal (bits : List Bool) : Nat := bits.foldl (fun v b => 2 * v + b.toNat) 0

/-- The bits of an n-bit field in stream order, most significant first (R11). -/
def bitsOf {n : Nat} (v : BitVec n) : List Bool := (List.range n).map fun j => v.getMsbD j

/-- Why a bit string holds no packet: it ends before the field named (R125). Nothing else is rejected (R104). -/
inductive DecodeError where
  | endsInVersion
  | endsInTypeId
  | endsInGroup
  | endsInLengthTypeId
  | endsInTotalLength
  | endsInChildCount
  /-- Type-id 4 where an operator's body is asked for; `decode` never asks so (R97). -/
  | notAnOperator
  deriving DecidableEq, Repr

/-- The first n bits as an n-bit field, and the bits after it; none where fewer than n remain (R124). -/
def takeField (n : Nat) (bits : List Bool) : Option (BitVec n × List Bool) :=
  if bits.length < n then none else some (BitVec.ofNat n (bitsVal (bits.take n)), bits.drop n)

/-- The groups of a literal (R93): C_j then four data bits, up to and including the first group whose C_j is 0
(R102). -/
def decodeGroups : List Bool → Except DecodeError (List (BitVec 4) × List Bool)
  | c :: b3 :: b2 :: b1 :: b0 :: rest =>
    let d := BitVec.ofNat 4 (bitsVal [b3, b2, b1, b0])
    if c then
      match decodeGroups rest with
      | .ok (ds, rest') => .ok (d :: ds, rest')
      | .error e => .error e
    else .ok ([d], rest)
  | _ => .error .endsInGroup

/-- The `.B` instruction of a type-id (R94, R97); type-id 4 is LIT and has none. -/
def instrB (t : BitVec 3) (v : BitVec 3) (len : BitVec 15) : Option Instr :=
  match t.toNat with
  | 0 => some (.sumB v len)
  | 1 => some (.prodB v len)
  | 2 => some (.minB v len)
  | 3 => some (.maxB v len)
  | 5 => some (.gtB v len)
  | 6 => some (.ltB v len)
  | 7 => some (.eqB v len)
  | _ => none

/-- The `.N` instruction of a type-id (R96, R97); type-id 4 is LIT and has none. -/
def instrN (t : BitVec 3) (v : BitVec 3) (cnt : BitVec 11) : Option Instr :=
  match t.toNat with
  | 0 => some (.sumN v cnt)
  | 1 => some (.prodN v cnt)
  | 2 => some (.minN v cnt)
  | 3 => some (.maxN v cnt)
  | 5 => some (.gtN v cnt)
  | 6 => some (.ltN v cnt)
  | 7 => some (.eqN v cnt)
  | _ => none

/-- The body of a literal, after its header (R93). -/
def decodeLit (v : BitVec 3) (bits : List Bool) : Except DecodeError (Instr × List Bool) :=
  match decodeGroups bits with
  | .ok (ds, rest) => .ok (.lit v ds, rest)
  | .error e => .error e

/-- The rest of an operator's own fields, after its header: I, then L or N (R94, R96, R100). -/
def decodeOperator (v t : BitVec 3) (bits : List Bool) : Except DecodeError (Instr × List Bool) :=
  match bits with
  | [] => .error .endsInLengthTypeId
  | false :: body =>
    match takeField 15 body with
    | none => .error .endsInTotalLength
    | some (len, rest) =>
      match instrB t v len with
      | some i => .ok (i, rest)
      | none => .error .notAnOperator
  | true :: body =>
    match takeField 11 body with
    | none => .error .endsInChildCount
    | some (cnt, rest) =>
      match instrN t v cnt with
      | some i => .ok (i, rest)
      | none => .error .notAnOperator

/-- The packet at the head of a bit string and the bits after its own fields (R100, R102). Total: a string that
ends inside a field is rejected by that field's name. -/
def decode (bits : List Bool) : Except DecodeError (Instr × List Bool) :=
  match takeField 3 bits with
  | none => .error .endsInVersion
  | some (v, bits) =>
    match takeField 3 bits with
    | none => .error .endsInTypeId
    | some (t, bits) => if t = 4#3 then decodeLit v bits else decodeOperator v t bits

/-- The groups of a literal as bits: C_j is 1 for every group but the last (R93). -/
def encodeGroups : List (BitVec 4) → List Bool
  | [] => []
  | [d] => false :: bitsOf d
  | d :: ds => true :: bitsOf d ++ encodeGroups ds

/-- The 6-bit header H (R91). -/
def encodeHeader (v t : BitVec 3) : List Bool := bitsOf v ++ bitsOf t

/-- Format OPB up to L (R94). -/
def encodeB (t v : BitVec 3) (len : BitVec 15) : List Bool := encodeHeader v t ++ false :: bitsOf len

/-- Format OPN up to N (R96). -/
def encodeN (t v : BitVec 3) (cnt : BitVec 11) : List Bool := encodeHeader v t ++ true :: bitsOf cnt

/-- A packet's own fields as bits in stream order (R91, R93, R94, R96, R97). -/
def encode : Instr → List Bool
  | .lit v ds => encodeHeader v 4#3 ++ encodeGroups ds
  | .sumB v len => encodeB 0#3 v len
  | .sumN v cnt => encodeN 0#3 v cnt
  | .prodB v len => encodeB 1#3 v len
  | .prodN v cnt => encodeN 1#3 v cnt
  | .minB v len => encodeB 2#3 v len
  | .minN v cnt => encodeN 2#3 v cnt
  | .maxB v len => encodeB 3#3 v len
  | .maxN v cnt => encodeN 3#3 v cnt
  | .gtB v len => encodeB 5#3 v len
  | .gtN v cnt => encodeN 5#3 v cnt
  | .ltB v len => encodeB 6#3 v len
  | .ltN v cnt => encodeN 6#3 v cnt
  | .eqB v len => encodeB 7#3 v len
  | .eqN v cnt => encodeN 7#3 v cnt

/-- The length in bits of a packet's own fields: 6 + 5k for LIT, 22 for `.B`, 18 for `.N` (R102). -/
def bitLength : Instr → Nat
  | .lit _ ds => 6 + 5 * ds.length
  | .sumB _ _ => 22
  | .sumN _ _ => 18
  | .prodB _ _ => 22
  | .prodN _ _ => 18
  | .minB _ _ => 22
  | .minN _ _ => 18
  | .maxB _ _ => 22
  | .maxN _ _ => 18
  | .gtB _ _ => 22
  | .gtN _ _ => 18
  | .ltB _ _ => 22
  | .ltN _ _ => 18
  | .eqB _ _ => 22
  | .eqN _ _ => 18

/-- A row of the opcode table: it matches H7 when `(H7 & mask) == value` (R101). -/
structure OpcodeRow where
  mnemonic : String
  mask : Nat
  value : Nat
  deriving DecidableEq, Repr

/-- spec/opcode_table.json (R101): LIT masks T, each operator row masks T and I. -/
def opcodeTable : List OpcodeRow :=
  [ ⟨"LIT", 0x0E, 0x08⟩,
    ⟨"SUM.B", 0x0F, 0x00⟩, ⟨"SUM.N", 0x0F, 0x01⟩, ⟨"PROD.B", 0x0F, 0x02⟩, ⟨"PROD.N", 0x0F, 0x03⟩,
    ⟨"MIN.B", 0x0F, 0x04⟩, ⟨"MIN.N", 0x0F, 0x05⟩, ⟨"MAX.B", 0x0F, 0x06⟩, ⟨"MAX.N", 0x0F, 0x07⟩,
    ⟨"GT.B", 0x0F, 0x0A⟩, ⟨"GT.N", 0x0F, 0x0B⟩, ⟨"LT.B", 0x0F, 0x0C⟩, ⟨"LT.N", 0x0F, 0x0D⟩,
    ⟨"EQ.B", 0x0F, 0x0E⟩, ⟨"EQ.N", 0x0F, 0x0F⟩ ]

/-- The rows that match a 7-bit H7 (R101). -/
def matchingRows (h7 : Nat) : List OpcodeRow := opcodeTable.filter fun r => decide (h7 &&& r.mask = r.value)

/-- The mnemonic of an instruction (R100). -/
def mnemonicOf : Instr → String
  | .lit _ _ => "LIT"
  | .sumB _ _ => "SUM.B"
  | .sumN _ _ => "SUM.N"
  | .prodB _ _ => "PROD.B"
  | .prodN _ _ => "PROD.N"
  | .minB _ _ => "MIN.B"
  | .minN _ _ => "MIN.N"
  | .maxB _ _ => "MAX.B"
  | .maxN _ _ => "MAX.N"
  | .gtB _ _ => "GT.B"
  | .gtN _ _ => "GT.N"
  | .ltB _ _ => "LT.B"
  | .ltN _ _ => "LT.N"
  | .eqB _ _ => "EQ.B"
  | .eqN _ _ => "EQ.N"

/-- The widths of a packet's own fields in the order they are read (R92). -/
def fieldWidths : Instr → List Nat
  | .lit _ ds => 3 :: 3 :: ds.map fun _ => 5
  | .sumB _ _ => [3, 3, 1, 15]
  | .sumN _ _ => [3, 3, 1, 11]
  | .prodB _ _ => [3, 3, 1, 15]
  | .prodN _ _ => [3, 3, 1, 11]
  | .minB _ _ => [3, 3, 1, 15]
  | .minN _ _ => [3, 3, 1, 11]
  | .maxB _ _ => [3, 3, 1, 15]
  | .maxN _ _ => [3, 3, 1, 11]
  | .gtB _ _ => [3, 3, 1, 15]
  | .gtN _ _ => [3, 3, 1, 11]
  | .ltB _ _ => [3, 3, 1, 15]
  | .ltN _ _ => [3, 3, 1, 11]
  | .eqB _ _ => [3, 3, 1, 15]
  | .eqN _ _ => [3, 3, 1, 11]

/-- The first field that does not fit in `avail` bits, as its offset and its width, the fields before it ending at
offset `at0` (R124). -/
def firstMissing (avail : Nat) : Nat → List Nat → Option (Nat × Nat)
  | _, [] => none
  | at0, w :: ws => if avail < at0 + w then some (at0, w) else firstMissing avail (at0 + w) ws

/-- The bits of an opcode-table word in stream order: H7, whose first bit is the most significant (R101), and zeros
after it, 24 bits in all (six hex digits; log entry 9). -/
def tableBits (w : Nat) : List Bool := bitsOf (BitVec.ofNat 7 w) ++ List.replicate 17 false

/-- The instruction the decoder reads from an opcode-table word (R101). The table numbers the bits of H7 only, so
higher bits of `w` name nothing and are passed over (log entry 9). -/
def decodeTableWord (_nbits w : Nat) : Option Instr :=
  match decode (tableBits w) with
  | .ok (i, _) => some i
  | .error _ => none

end Sys2Proof
end

