-- ==== Sys2Proof/Config.lean ====
section
/-! DEFINITION. What an instance of the TPD fixes (R8) and the values the spec leaves free. -/

namespace Sys2Proof

/-- The three named parameters of R8. -/
structure Config.Params where
  /-- `W`, the width in bits of every value. -/
  width : Nat
  /-- `MAX_CHARS`, the capacity of the input buffer in characters. -/
  maxChars : Nat
  /-- `MAX_DEPTH`, the number of frames of the frame stack. -/
  maxDepth : Nat
  deriving DecidableEq, Repr

/-- The defaults of R8. -/
def Config.defaults : Config.Params := { width := 64, maxChars := 4096, maxDepth := 1024 }

/-- The constraints of R8: 64 <= W <= 256 and W a multiple of 32; 1 <= MAX_CHARS <= 2^24; 1 <= MAX_DEPTH. -/
def Config.Params.legal (p : Config.Params) : Bool :=
  decide (64 ≤ p.width) && decide (p.width ≤ 256) && decide (p.width % 32 = 0) &&
  decide (1 ≤ p.maxChars) && decide (p.maxChars ≤ 2 ^ 24) && decide (1 ≤ p.maxDepth)

/-- FREE VALUE: what input buffer entry `i` holds after the reset numbered `draw` until a write reaches it
(R50, R243: a free draw in 0..255). Log entry 2. -/
opaque Config.ibufFree (draw i : Nat) : Byte

/-- FREE VALUE: `TPD_BASE`, where the platform maps the host window (R66). Log entry 11. -/
opaque Config.tpdBase : Nat

/-- The address in the host's map of an offset of the host window (R66). -/
def Config.hostAddress (off : Nat) : Nat := Config.tpdBase + off

end Sys2Proof
end

