-- ==== Sys2Proof/Machine/State.lean ====
section
/-! DEFINITION. The state of the TPD (10_state.md), the reasons a step can stop, and the state after reset. -/

namespace Sys2Proof.Machine

/-- The engine's micro-states (R32). -/
inductive Micro where
  | idle
  | scan
  | hdrV
  | hdrT
  | litG
  | opI
  | opL0
  | opL1
  | next
  | close
  | ret
  | done
  | error
  deriving DecidableEq, Repr

/-- The seven operators, the type-ids other than 4 (R97). -/
inductive Op where
  | sum
  | prod
  | min
  | max
  | gt
  | lt
  | eq
  deriving DecidableEq, Repr

/-- The length-type-id of a frame: L0 is total-bit-length framing, L1 child-count framing (R17, R34). -/
inductive LenType where
  | l0
  | l1
  deriving DecidableEq, Repr

/-- An operator whose children are still being parsed (R34). -/
structure Frame where
  /-- The operator's type-id. -/
  op : Op
  /-- The length-type-id. -/
  lt : LenType
  /-- L0: the end position of the window. L1: the declared child count. -/
  lim : Word
  /-- Children completed so far. -/
  n : BitVec 16
  /-- Running result of the children combined so far. -/
  r : Value
  deriving DecidableEq, Repr

/-- A host access at an offset of the host window, of a size in bytes (R240). A write of one byte stores the low
eight bits of `v`. -/
inductive HostAccess where
  | read (off size : Nat)
  | write (off size : Nat) (v : Word)
  deriving DecidableEq, Repr

/-- One atomic event of R70 and R300: an engine micro-step, a host access, or a hardware reset. -/
inductive Event where
  | engine
  | host (a : HostAccess)
  | reset
  deriving DecidableEq, Repr

/-- Bytes by index, indexes strictly rising; an index not listed has not been written since reset. -/
abbrev Memory := List Host.Cell

/-- Everything the spec gives the machine (R21, R30), the parameters of R8, and three fields of the model's own:
`schedule`, `reply` and `draw` (log entries 5, 6 and 2). -/
structure State where
  /-- W, MAX_CHARS and MAX_DEPTH (R8); no event changes them. -/
  params : Config.Params
  /-- LEN (R27). -/
  len : Word
  /-- IBUF (R60). -/
  ibuf : Memory
  /-- ERR.CODE (R25). -/
  errCode : Byte
  /-- ERR.DETAIL (R25). -/
  errDetail : Byte
  /-- ERR_POS (R26). -/
  errPosR : Word
  /-- POS (R28). -/
  posR : Word
  /-- VSUM (R29). -/
  vsumR : Word
  /-- VALUE_R, the value behind VALUE_j (R40). -/
  valueR : Value
  /-- STATUS.VALUE_VALID (R23). -/
  valueValid : Bool
  /-- STATUS.VALUE_OVF (R23). -/
  valueOvf : Bool
  /-- The micro-state (R32). -/
  es : Micro
  /-- The next character to validate (R30). -/
  scanI : Word
  /-- 4 * LEN, latched at START (R30). -/
  nbits : Word
  /-- The bit cursor, the TPD's program counter (R31). -/
  pos : Word
  /-- Version of the packet whose header is being read (R35). -/
  ver : BitVec 3
  /-- Type-id of the packet whose header is being read (R35). -/
  typ : BitVec 3
  /-- Literal value accumulator (R35). -/
  acc : Value
  /-- Value of the packet that completed last (R35). -/
  ret : Value
  /-- Running version sum (R220). -/
  vacc : Word
  /-- Sticky value-overflow flag (R36). -/
  ovf : Bool
  /-- The frame stack, F[sp-1] first; `sp` is the length (R33). -/
  frames : List Frame
  /-- MODEL'S OWN: the events the outside world has fixed, first one first (R70). -/
  schedule : List Event
  /-- MODEL'S OWN: what the last host read returned (R240). -/
  reply : Word
  /-- MODEL'S OWN: how many hardware resets happened, the draw of the unwritten IBUF bytes (R50). -/
  draw : Nat
  deriving DecidableEq, Repr

/-- Why the machine is stuck. Every one is in a state that no run from a reset reaches. -/
inductive Fault where
  /-- Raised by NEXT and CLOSE with sp = 0, where `top` names no entry (R33: it is read only when sp >= 1). Safe. -/
  | noOpenFrame
  /-- Raised by ReadBits where a stream bit it reads belongs to a character that is no hex digit or lies past
  MAX_CHARS, where the bit sequence is not defined (R61: SCAN validates every character first). Safe. -/
  | streamUndefined
  /-- Raised by OP_L0 and OP_L1 with typ = 4, which is no operator's type-id (R34). Safe. -/
  | operatorTypeId
  /-- Raised by SCAN at a character index past MAX_CHARS, which IBUF does not have (R60). Safe. -/
  | pastBuffer
  deriving DecidableEq, Repr

/-- Why an event has no meaning. -/
inductive Refusal where
  /-- Raised by exec for an instruction of the opcode table that has no meaning yet. Safe. -/
  | notModelled (mnemonic : String)
  /-- Raised by a host access of a width or alignment R68 and R240 refuse: it is no event of the TPD. Safe. -/
  | hostAccess (off size : Nat)
  /-- Raised by exec for a LIT term with no group, which is no packet (R93) and no decoder answer. Safe. -/
  | noGroup
  deriving DecidableEq, Repr

/-- What one event or one instruction gives. -/
abbrev Out := Host.Outcome State Fault Refusal

/-- The machine right after a hardware reset (R50), with the default parameters of R8. IBUF lists nothing: each
entry is a free draw (log entry 2). The internal registers other than `es`, which R30 leaves unspecified and
unobserved, are zero: DESIGN CHOICE, log entry 3. `schedule`, `reply`, `draw`: log entries 5, 6, 2. -/
def State.reset : State :=
  { params := Config.defaults, len := 0, ibuf := []
    errCode := 0, errDetail := 0, errPosR := 0, posR := 0, vsumR := 0, valueR := 0
    valueValid := false, valueOvf := false
    es := .idle, scanI := 0, nbits := 0, pos := 0, ver := 0, typ := 0, acc := 0, ret := 0
    vacc := 0, ovf := false, frames := []
    schedule := [], reply := 0, draw := 0 }

end Sys2Proof.Machine
end

