-- ==== Sys2Proof/Machine/Flags.lean ====
section
/-! DEFINITION. The one flag computation of the TPD: an exact result kept in W bits, and whether it overflowed
(R36, R142, R211). -/

namespace Sys2Proof.Machine

/-- An exact result modulo 2^W (R142, R211). -/
def narrow (w exact : Nat) : Value := exact % 2 ^ w

/-- Whether an exact result is 2^W or more, which sets `ovf` (R36). -/
def overflows (w exact : Nat) : Bool := decide (2 ^ w ≤ exact)

/-- `add_W` (R211): the sum in W bits and whether it overflowed. -/
def addW (w : Nat) (r v : Value) : Value × Bool := (narrow w (r + v), overflows w (r + v))

/-- `mul_W` (R211): the product in W bits and whether it overflowed. -/
def mulW (w : Nat) (r v : Value) : Value × Bool := (narrow w (r * v), overflows w (r * v))

/-- A literal's next accumulator (R141): `acc * 16 + d` in W bits and whether it overflowed. -/
def litW (w : Nat) (acc : Value) (d : BitVec 4) : Value × Bool :=
  (narrow w (acc * 16 + d.toNat), overflows w (acc * 16 + d.toNat))

end Sys2Proof.Machine
end

