-- ==== Sys2Proof/Machine/Fold.lean ====
section
/-! DEFINITION. The fold functions of the operators: init, combine and final (43_operators.md section 1), and the type-id
map of the operators (R97). -/

namespace Sys2Proof.Machine

/-- The type-id of an operator (R97). -/
def Op.typeId : Op → BitVec 3
  | .sum => 0#3
  | .prod => 1#3
  | .min => 2#3
  | .max => 3#3
  | .gt => 5#3
  | .lt => 6#3
  | .eq => 7#3

/-- The operator of a type-id; 4 is LIT and names none (R97). -/
def Op.ofTypeId (t : BitVec 3) : Option Op :=
  match t.toNat with
  | 0 => some .sum
  | 1 => some .prod
  | 2 => some .min
  | 3 => some .max
  | 5 => some .gt
  | 6 => some .lt
  | 7 => some .eq
  | _ => none

/-- `init(op)` (R200). -/
def initVal : Op → Value
  | .sum => 0
  | .prod => 1
  | .min => 0
  | .max => 0
  | .gt => 0
  | .lt => 0
  | .eq => 0

/-- A comparison's result as a value: 1 if it holds, else 0 (R203). -/
def boolVal (b : Bool) : Value := if b then 1 else 0

/-- A comparison's fold (R203): the first child is kept, the second is compared with it, later ones change
nothing. -/
def compareStep (test : Value → Value → Bool) (n : BitVec 16) (r v : Value) : Value :=
  if n.toNat = 0 then v else if n.toNat = 1 then boolVal (test r v) else r

/-- `combine(op, n, r, v)` (R203): the new running result, and whether W bits overflowed (R211). -/
def combine (w : Nat) (op : Op) (n : BitVec 16) (r v : Value) : Value × Bool :=
  match op with
  | .sum => addW w r v
  | .prod => mulW w r v
  | .min => (if n.toNat = 0 then v else if v < r then v else r, false)
  | .max => (if n.toNat = 0 then v else if r < v then v else r, false)
  | .gt => (compareStep (fun a b => decide (b < a)) n r v, false)
  | .lt => (compareStep (fun a b => decide (a < b)) n r v, false)
  | .eq => (compareStep (fun a b => decide (a = b)) n r v, false)

/-- `final(op, n, r)` (R204): the running result, for every operator. -/
def finalVal (_op : Op) (_n : BitVec 16) (r : Value) : Value := r

/-- R156, R214: MIN and MAX need a child. -/
def needsChild : Op → Bool
  | .min => true
  | .max => true
  | .sum => false
  | .prod => false
  | .gt => false
  | .lt => false
  | .eq => false

/-- R156, R215: GT, LT and EQ need exactly two children. -/
def isComparison : Op → Bool
  | .gt => true
  | .lt => true
  | .eq => true
  | .sum => false
  | .prod => false
  | .min => false
  | .max => false

end Sys2Proof.Machine
end

