-- ==== Sys2Proof/Machine/Ops.lean ====
section
/-! DEFINITION. The shared operations over memory and registers: the input buffer, the bit sequence, error entry, START,
the frame stack and the end of a run. -/

namespace Sys2Proof.Machine

/-- R24: the STATE field of STATUS as a function of the micro-state. -/
def Micro.stateCode : Micro → BitVec 2
  | .idle => 0
  | .scan => 1
  | .hdrV => 1
  | .hdrT => 1
  | .litG => 1
  | .opI => 1
  | .opL0 => 1
  | .opL1 => 1
  | .next => 1
  | .close => 1
  | .ret => 1
  | .done => 2
  | .error => 3

/-- STATE = BUSY (R24). -/
def Micro.busy (m : Micro) : Bool := decide (m.stateCode = 1)

/-! ### Memory -/

/-- The byte listed at an index; none where nothing has been written since reset. -/
def Memory.lookup : Memory → Nat → Option Byte
  | [], _ => none
  | (a, b) :: m, i => if i = a then some b else Memory.lookup m i

/-- Memory with byte `b` at index `i`, every other index as before. -/
def Memory.write : Memory → Nat → Byte → Memory
  | [], i, b => [(i, b)]
  | (a, c) :: m, i, b =>
    if i < a then (i, b) :: (a, c) :: m
    else if i = a then (i, b) :: m
    else (a, c) :: Memory.write m i b

/-- The canonical form: indexes strictly rising. An unlisted index holds no value, so no entry can equal it (log
entry 2). -/
def Memory.wf : Memory → Bool
  | [] => true
  | [_] => true
  | (a, _) :: (b, c) :: m => decide (a < b) && Memory.wf ((b, c) :: m)

/-- IBUF[i] (R60): the byte written last, or the free draw of R50 where none was. -/
def ibufByte (s : State) (i : Nat) : Byte := (Memory.lookup s.ibuf i).getD (Config.ibufFree s.draw i)

/-- IBUF[i] where IBUF has entry i (R60). -/
def ibufAt (s : State) (i : Nat) : Option Byte :=
  if i < s.params.maxChars then some (ibufByte s i) else none

/-- The value of a hex digit's character code, either case; none for every other code (R62). -/
def hexval (c : Byte) : Option (BitVec 4) :=
  if 0x30 ≤ c.toNat ∧ c.toNat ≤ 0x39 then some (BitVec.ofNat 4 (c.toNat - 0x30))
  else if 0x41 ≤ c.toNat ∧ c.toNat ≤ 0x46 then some (BitVec.ofNat 4 (c.toNat - 0x37))
  else if 0x61 ≤ c.toNat ∧ c.toNat ≤ 0x66 then some (BitVec.ofNat 4 (c.toNat - 0x57))
  else none

/-- Stream bit k (R61): `hexval(IBUF[k div 4])[3 - (k mod 4)]`, where it is defined. -/
def streamBit (s : State) (k : Nat) : Option Bool :=
  match ibufAt s (k / 4) with
  | none => none
  | some c =>
    match hexval c with
    | none => none
    | some d => some (d.getLsbD (3 - k % 4))

/-- The n stream bits from bit address `a` on, first-read first, where all are defined. -/
def streamBits (s : State) (a : Nat) : Nat → Option (List Bool)
  | 0 => some []
  | n + 1 =>
    match streamBit s a, streamBits s (a + 1) n with
    | some b, some bs => some (b :: bs)
    | _, _ => none

/-- `MemRead(addr, n)` (R63). -/
def memRead (s : State) (a n : Nat) : Option (BitVec n) :=
  (streamBits s a n).map fun bs => BitVec.ofNat n (bitsVal bs)

/-! ### Error entry -/

/-- The errors a run can raise (R261). -/
inductive ErrKind where
  | outOfBits
  | malformedPacket
  | invalidHex
  | depthExceeded
  | lenRange
  deriving DecidableEq, Repr

/-- ERR.CODE of an error (R261). -/
def ErrKind.code : ErrKind → Byte
  | .outOfBits => 1
  | .malformedPacket => 2
  | .invalidHex => 3
  | .depthExceeded => 4
  | .lenRange => 5

/-- `raise E(detail)` (R270), the TPD's one exception entry; `pos` is the cursor position at the moment of detection
(R263). Only these registers are written (R14, R269). There is no vector and no return (R271): the next START begins
a new run. -/
def raiseError (e : ErrKind) (detail : Byte) (pos : Word) (s : State) : State :=
  { s with
    errCode := e.code
    errDetail := detail
    errPosR := match e with
      | .invalidHex => s.scanI
      | .lenRange => 0
      | .outOfBits => pos
      | .malformedPacket => pos
      | .depthExceeded => pos
    posR := pos
    vsumR := 0
    valueR := 0
    valueValid := false
    valueOvf := false
    es := .error }

/-! ### Start and end of a run -/

/-- What START clears before it looks at LEN (R120). -/
def clearRun (s : State) : State :=
  { s with
    errCode := 0, errDetail := 0, errPosR := 0, posR := 0, vsumR := 0, valueR := 0
    valueValid := false, valueOvf := false
    pos := 0, vacc := 0, ovf := false, frames := [], scanI := 0 }

/-- START's last two writes (R120): latch the stream's length and enter SCAN. -/
def enterScan (s : State) : State := { s with nbits := 4#32 * s.len, es := .scan }

/-- The action of START (R120, R121): it clears the last run's results, raises LEN_RANGE where LEN exceeds
MAX_CHARS, and else begins the run. Its clears come before the raise, so POS and ERR_POS are 0 there (R28, R270; log
entry 7). -/
def startRun (s : State) : State :=
  if s.params.maxChars < s.len.toNat then raiseError .lenRange 0 0 (clearRun s) else enterScan (clearRun s)

/-- `finish()` (R224): latch POS, VSUM and VALUE, or VALUE_OVF where the run overflowed. -/
def finishRun (s : State) : State :=
  { s with
    posR := s.pos
    vsumR := s.vacc
    valueR := if s.ovf then 0 else s.ret
    valueValid := !s.ovf
    valueOvf := s.ovf
    es := .done }

/-! ### The frame stack -/

/-- `push(f)` at cursor position `pos` (R154), as the last act of OP_L0 or OP_L1: DEPTH_EXCEEDED where the stack is
full (sp = MAX_DEPTH, or beyond it, which no run reaches: log entry 10), else F[sp] <- f, sp <- sp + 1 and on to NEXT
(R152, R153). -/
def pushFrame (f : Frame) (pos : Word) (s : State) : State :=
  if s.params.maxDepth ≤ s.frames.length then raiseError .depthExceeded 0 pos s
  else { s with pos := pos, frames := f :: s.frames, es := .next }

/-- CLOSE's completion of the top frame (R156): its result goes to `ret` and the frame is popped. -/
def popFrame (f : Frame) (rest : List Frame) (s : State) : State :=
  { s with ret := finalVal f.op f.n f.r, frames := rest, es := .ret }

/-- RET's combination of `ret` into the top frame (R157, R203); an overflow sets the sticky flag (R211). -/
def combineTop (f : Frame) (rest : List Frame) (s : State) : State :=
  let c := combine s.params.width f.op f.n f.r s.ret
  { s with frames := { f with r := c.1, n := f.n + 1 } :: rest, ovf := s.ovf || c.2, es := .next }

end Sys2Proof.Machine
end

