-- ==== Sys2Proof/Machine/Operands.lean ====
section
/-! DEFINITION. The operand forms: what the engine does with each field of a packet once it has its bits (R126, R127,
R141, R151 to R153), the bound check before a field (R124), and the two ways a field's bits come: from a decoded
instruction, or from the stream. -/

namespace Sys2Proof.Machine

/-- Fewer than n bits remain (R124). -/
def short (n : Nat) (s : State) : Bool := decide (s.nbits.toNat < s.pos.toNat + n)

/-- A failed ReadBits(n) (R124, R125): OUT_OF_BITS with DETAIL n at the position of the read, nothing consumed. -/
def raiseShort (n : Nat) (s : State) : State := raiseError .outOfBits (BitVec.ofNat 8 n) s.pos s

/-- A field of n bits whose value the decoded instruction holds: ReadBits's bound check (R124), then `k`. -/
def field (n : Nat) (s : State) (k : Out) : Out := if short n s then .next (raiseShort n s) else k

/-- `ReadBits(n)` (R124) up to the use `k` of the bits read; `k` advances the cursor. -/
def readField (n : Nat) (s : State) (k : BitVec n → Out) : Out :=
  if short n s then .next (raiseShort n s)
  else
    match memRead s s.pos.toNat n with
    | some v => k v
    | none => .fault .streamUndefined

/-- HDR_V once V is read (R126): the version enters the version sum (R220). -/
def hdrV (v : BitVec 3) (s : State) : State :=
  { s with pos := s.pos + 3, ver := v, vacc := s.vacc + v.setWidth 32, es := .hdrT }

/-- HDR_T once T is read (R127): type-id 4 begins a literal, any other an operator. -/
def hdrT (t : BitVec 3) (s : State) : State :=
  if t = 4#3 then { s with pos := s.pos + 3, typ := t, acc := 0, es := .litG }
  else { s with pos := s.pos + 3, typ := t, es := .opI }

/-- LIT_G for a group that continues (R141). -/
def litMore (d : BitVec 4) (s : State) : State :=
  let a := litW s.params.width s.acc d
  { s with pos := s.pos + 5, acc := a.1, ovf := s.ovf || a.2, es := .litG }

/-- LIT_G for the last group (R141): the literal's value goes to `ret`. -/
def litLast (d : BitVec 4) (s : State) : State :=
  let a := litW s.params.width s.acc d
  { s with pos := s.pos + 5, acc := a.1, ret := a.1, ovf := s.ovf || a.2, es := .ret }

/-- OP_I once I is read (R151). -/
def opI (i : BitVec 1) (s : State) : State :=
  { s with pos := s.pos + 1, es := if i = 0#1 then .opL0 else .opL1 }

/-- OP_L0 once L is read (R152): open an L0 frame whose window begins after the field. -/
def opL0 (op : Op) (len : BitVec 15) (s : State) : State :=
  pushFrame { op := op, lt := .l0, lim := s.pos + 15 + len.setWidth 32, n := 0, r := initVal op } (s.pos + 15) s

/-- OP_L1 once N is read (R153): open an L1 frame. -/
def opL1 (op : Op) (cnt : BitVec 11) (s : State) : State :=
  pushFrame { op := op, lt := .l1, lim := cnt.setWidth 32, n := 0, r := initVal op } (s.pos + 11) s

/-- The header of a decoded packet (R91, R126, R127), then its body. -/
def header (v t : BitVec 3) (s : State) (body : State → Out) : Out :=
  field 3 s (field 3 (hdrV v s) (body (hdrT t (hdrV v s))))

/-- The groups of a decoded literal (R140, R141), one LIT_G each. -/
def litGroups : List (BitVec 4) → State → Out
  | [], _ => .refused .noGroup
  | [d], s => field 5 s (.next (litLast d s))
  | d :: ds, s => field 5 s (litGroups ds (litMore d s))

/-- A decoded LIT (R140): header, groups, the value in `ret`. A term with no group is no packet and is refused. -/
def literal (v : BitVec 3) (groups : List (BitVec 4)) (s : State) : Out :=
  if groups.isEmpty then .refused .noGroup else header v 4#3 s (litGroups groups)

/-- A decoded `.B` operator (R150): header, I = 0, L, and the frame its children are folded in. -/
def operatorB (op : Op) (v : BitVec 3) (len : BitVec 15) (s : State) : Out :=
  header v op.typeId s fun s => field 1 s (field 15 (opI 0#1 s) (.next (opL0 op len (opI 0#1 s))))

/-- A decoded `.N` operator (R150): header, I = 1, N, and the frame its children are folded in. -/
def operatorN (op : Op) (v : BitVec 3) (cnt : BitVec 11) (s : State) : Out :=
  header v op.typeId s fun s => field 1 s (field 11 (opI 1#1 s) (.next (opL1 op cnt (opI 1#1 s))))

end Sys2Proof.Machine
end

