-- ==== Sys2Proof/Machine/Arithmetic.lean ====
section
/-! DEFINITION. The meanings of SUM and PROD (R180 to R183). -/

namespace Sys2Proof.Machine

/-- SUM.B (R180): Sum, framed by total bit length. It opens the frame its children are folded in. -/
def execSumB (v : BitVec 3) (len : BitVec 15) (s : State) : Out := operatorB .sum v len s

/-- SUM.N (R181): Sum, framed by child count. It opens the frame its children are folded in. -/
def execSumN (v : BitVec 3) (cnt : BitVec 11) (s : State) : Out := operatorN .sum v cnt s

/-- PROD.B (R182): Product, framed by total bit length. It opens the frame its children are folded in. -/
def execProdB (v : BitVec 3) (len : BitVec 15) (s : State) : Out := operatorB .prod v len s

/-- PROD.N (R183): Product, framed by child count. It opens the frame its children are folded in. -/
def execProdN (v : BitVec 3) (cnt : BitVec 11) (s : State) : Out := operatorN .prod v cnt s

end Sys2Proof.Machine
end

