-- ==== Sys2Proof/Machine/Comparison.lean ====
section
/-! DEFINITION. The meanings of GT, LT and EQ (R188 to R193). -/

namespace Sys2Proof.Machine

/-- GT.B (R188): GreaterThan, framed by total bit length. It opens the frame its children are folded in. -/
def execGtB (v : BitVec 3) (len : BitVec 15) (s : State) : Out := operatorB .gt v len s

/-- GT.N (R189): GreaterThan, framed by child count. It opens the frame its children are folded in. -/
def execGtN (v : BitVec 3) (cnt : BitVec 11) (s : State) : Out := operatorN .gt v cnt s

/-- LT.B (R190): LessThan, framed by total bit length. It opens the frame its children are folded in. -/
def execLtB (v : BitVec 3) (len : BitVec 15) (s : State) : Out := operatorB .lt v len s

/-- LT.N (R191): LessThan, framed by child count. It opens the frame its children are folded in. -/
def execLtN (v : BitVec 3) (cnt : BitVec 11) (s : State) : Out := operatorN .lt v cnt s

/-- EQ.B (R192): EqualTo, framed by total bit length. It opens the frame its children are folded in. -/
def execEqB (v : BitVec 3) (len : BitVec 15) (s : State) : Out := operatorB .eq v len s

/-- EQ.N (R193): EqualTo, framed by child count. It opens the frame its children are folded in. -/
def execEqN (v : BitVec 3) (cnt : BitVec 11) (s : State) : Out := operatorN .eq v cnt s

end Sys2Proof.Machine
end

