-- ==== Sys2Proof/Machine/Extremum.lean ====
section
/-! DEFINITION. The meanings of MIN and MAX (R184 to R187). -/

namespace Sys2Proof.Machine

/-- MIN.B (R184): Minimum, framed by total bit length. It opens the frame its children are folded in. -/
def execMinB (v : BitVec 3) (len : BitVec 15) (s : State) : Out := operatorB .min v len s

/-- MIN.N (R185): Minimum, framed by child count. It opens the frame its children are folded in. -/
def execMinN (v : BitVec 3) (cnt : BitVec 11) (s : State) : Out := operatorN .min v cnt s

/-- MAX.B (R186): Maximum, framed by total bit length. It opens the frame its children are folded in. -/
def execMaxB (v : BitVec 3) (len : BitVec 15) (s : State) : Out := operatorB .max v len s

/-- MAX.N (R187): Maximum, framed by child count. It opens the frame its children are folded in. -/
def execMaxN (v : BitVec 3) (cnt : BitVec 11) (s : State) : Out := operatorN .max v cnt s

end Sys2Proof.Machine
end

