-- ==== Sys2Proof/Machine/Literal.lean ====
section
/-! DEFINITION. The meaning of LIT (41_literal.md). -/

namespace Sys2Proof.Machine

/-- LIT (R140): version and type-id 4, then one LIT_G per group; the value waits in `ret` for RET. -/
def execLit (v : BitVec 3) (groups : List (BitVec 4)) (s : State) : Out := literal v groups s

end Sys2Proof.Machine
end

