-- ==== Sys2Proof/Machine/Dispatch.lean ====
section
/-! DEFINITION. One arm per instruction. -/

namespace Sys2Proof.Machine

def exec (i : Instr) (s : State) : Host.Outcome State Fault Refusal :=
  match i with
  | .lit v groups => Sys2Proof.Machine.execLit v groups s
  | .sumB v len => Sys2Proof.Machine.execSumB v len s
  | .sumN v cnt => Sys2Proof.Machine.execSumN v cnt s
  | .prodB v len => Sys2Proof.Machine.execProdB v len s
  | .prodN v cnt => Sys2Proof.Machine.execProdN v cnt s
  | .minB v len => Sys2Proof.Machine.execMinB v len s
  | .minN v cnt => Sys2Proof.Machine.execMinN v cnt s
  | .maxB v len => Sys2Proof.Machine.execMaxB v len s
  | .maxN v cnt => Sys2Proof.Machine.execMaxN v cnt s
  | .gtB v len => Sys2Proof.Machine.execGtB v len s
  | .gtN v cnt => Sys2Proof.Machine.execGtN v cnt s
  | .ltB v len => Sys2Proof.Machine.execLtB v len s
  | .ltN v cnt => Sys2Proof.Machine.execLtN v cnt s
  | .eqB v len => Sys2Proof.Machine.execEqB v len s
  | .eqN v cnt => Sys2Proof.Machine.execEqN v cnt s

end Sys2Proof.Machine
end

