-- ==== Sys2Proof/Machine/Engine.lean ====
section
/-! DEFINITION. The engine: one micro-state's action per step (R14, R32). -/

namespace Sys2Proof.Machine

/-- SCAN (R122): validate one character, or begin the first packet once all are validated. -/
def scanStep (s : State) : Out :=
  if s.scanI.toNat = s.nbits.toNat / 4 then .next { s with es := .hdrV }
  else
    match ibufAt s s.scanI.toNat with
    | none => .fault .pastBuffer
    | some c =>
      match hexval c with
      | none => .next (raiseError .invalidHex c s.pos s)
      | some _ => .next { s with scanI := s.scanI + 1 }

/-- LIT_G once its group is read (R141): bit 4 of the group is C_j, bits 3 to 0 are D_j. -/
def litG (g : BitVec 5) (s : State) : State :=
  if g.getLsbD 4 then litMore (g.setWidth 4) s else litLast (g.setWidth 4) s

/-- The top frame needs no further child (R155). -/
def frameFull (f : Frame) (s : State) : Bool :=
  match f.lt with
  | .l0 => decide (s.pos = f.lim)
  | .l1 => decide (f.n.toNat = f.lim.toNat)

/-- NEXT (R155). -/
def nextStep (s : State) : Out :=
  match s.frames with
  | [] => .fault .noOpenFrame
  | f :: _ => .next { s with es := if frameFull f s then .close else .hdrV }

/-- CLOSE (R156): the arity checks of R214 and R215, then the operator's value. -/
def closeStep (s : State) : Out :=
  match s.frames with
  | [] => .fault .noOpenFrame
  | f :: rest =>
    if needsChild f.op && decide (f.n.toNat = 0) then .next (raiseError .malformedPacket 3 s.pos s)
    else if isComparison f.op && decide (f.n.toNat ≠ 2) then .next (raiseError .malformedPacket 2 s.pos s)
    else .next (popFrame f rest s)

/-- RET (R157): finish the run, or hand the value to the enclosing frame unless the child overshot its window. -/
def retStep (s : State) : Out :=
  match s.frames with
  | [] => .next (finishRun s)
  | f :: rest =>
    if decide (f.lt = .l0) && decide (f.lim.toNat < s.pos.toNat) then .next (raiseError .malformedPacket 1 s.pos s)
    else .next (combineTop f rest s)

/-- The operator whose length field is due, named by `typ` (R152, R153). -/
def withOperator (s : State) (k : Op → Out) : Out :=
  match Op.ofTypeId s.typ with
  | some op => k op
  | none => .fault .operatorTypeId

/-- One engine step: exactly one micro-state's action (R14, R32). In IDLE, DONE and ERROR the engine takes no step and
nothing changes (R312, R285). -/
def microStep (s : State) : Out :=
  match s.es with
  | .idle => .next s
  | .scan => scanStep s
  | .hdrV => readField 3 s fun v => .next (hdrV v s)
  | .hdrT => readField 3 s fun t => .next (hdrT t s)
  | .litG => readField 5 s fun g => .next (litG g s)
  | .opI => readField 1 s fun i => .next (opI i s)
  | .opL0 => readField 15 s fun len => withOperator s fun op => .next (opL0 op len s)
  | .opL1 => readField 11 s fun cnt => withOperator s fun op => .next (opL1 op cnt s)
  | .next => nextStep s
  | .close => closeStep s
  | .ret => retStep s
  | .done => .next s
  | .error => .next s

/-- n engine steps with no host access between them. -/
def engineRun : Nat → State → Out
  | 0, s => .next s
  | n + 1, s =>
    match microStep s with
    | .next t => engineRun n t
    | .fault f => .fault f
    | .refused r => .refused r

end Sys2Proof.Machine
end

