-- ==== Sys2Proof/Machine/HostPort.lean ====
section
/-! DEFINITION. The host's side: the register map, the host accesses (45_host_commands.md) and the hardware reset. -/

namespace Sys2Proof.Machine

/-- The registers of the host window (R21). -/
inductive HostReg where
  | ctrl
  | status
  | err
  | errPos
  | len
  | pos
  | vsum
  | value (j : Nat)
  deriving DecidableEq, Repr

/-- The register at an offset, if one is there (R21): VALUE_j for j < W/32 only (R40). -/
def regAt (p : Config.Params) (off : Nat) : Option HostReg :=
  if off = 0x000 then some .ctrl
  else if off = 0x004 then some .status
  else if off = 0x008 then some .err
  else if off = 0x00C then some .errPos
  else if off = 0x010 then some .len
  else if off = 0x014 then some .pos
  else if off = 0x018 then some .vsum
  else if 0x020 ≤ off ∧ off % 4 = 0 ∧ (off - 0x020) / 4 < p.width / 32 then some (.value ((off - 0x020) / 4))
  else none

/-- The IBUF entry at an offset, if one is there (R66). -/
def ibufIndex (p : Config.Params) (off : Nat) : Option Nat :=
  if 0x1000 ≤ off ∧ off < 0x1000 + p.maxChars then some (off - 0x1000) else none

/-- An offset inside no register and no IBUF entry (R67). -/
def unmapped (p : Config.Params) (off : Nat) : Bool :=
  (regAt p (off - off % 4)).isNone && (ibufIndex p off).isNone

/-- STATUS (R23): VALUE_OVF, VALUE_VALID and STATE in bits 3 to 0, the rest 0. -/
def statusWord (s : State) : Word :=
  0#28 ++ BitVec.ofBool s.valueOvf ++ BitVec.ofBool s.valueValid ++ s.es.stateCode

/-- ERR (R25): DETAIL in bits 15 to 8, CODE in bits 7 to 0, the rest 0. -/
def errWord (s : State) : Word := 0#16 ++ s.errDetail ++ s.errCode

/-- VALUE_j (R40): bits 32j+31 to 32j of VALUE_R. -/
def valueWord (s : State) (j : Nat) : Word := BitVec.ofNat 32 (s.valueR / 2 ^ (32 * j))

/-- `RegRead` (R242). -/
def regRead (s : State) : HostReg → Word
  | .ctrl => 0
  | .status => statusWord s
  | .err => errWord s
  | .errPos => s.errPosR
  | .len => s.len
  | .pos => s.posR
  | .vsum => s.vsumR
  | .value j => valueWord s j

/-- A host read's answer; it has no other effect (R71). -/
def answer (v : Word) (s : State) : State := { s with reply := v }

/-- `CtrlWrite` (R241): bit 0 starts a run unless one is BUSY; bits 31 to 1 are ignored (R22). -/
def ctrlWrite (v : Word) (s : State) : State :=
  if v.getLsbD 0 && !s.es.busy then startRun s else s

/-- `LenWrite` (R245): ignored while BUSY. -/
def lenWrite (v : Word) (s : State) : State := if s.es.busy then s else { s with len := v }

/-- `IbufWrite` (R243): ignored while BUSY. -/
def ibufWrite (i : Nat) (b : Byte) (s : State) : State :=
  if s.es.busy then s else { s with ibuf := Memory.write s.ibuf i b }

/-- A 32-bit write to a register (R241, R245, R246): the registers other than CTRL and LEN are read-only. -/
def regWrite (v : Word) (s : State) : HostReg → State
  | .ctrl => ctrlWrite v s
  | .len => lenWrite v s
  | .status => s
  | .err => s
  | .errPos => s
  | .pos => s
  | .vsum => s
  | .value _ => s

/-- `HostRead` (R240). -/
def hostRead (off size : Nat) (s : State) : Out :=
  if size = 4 then
    match regAt s.params off with
    | some r => .next (answer (regRead s r) s)
    | none =>
      if unmapped s.params off && decide (off % 4 = 0) then .next (answer 0 s) else .refused (.hostAccess off size)
  else if size = 1 then
    match ibufIndex s.params off with
    | some i => .next (answer ((ibufByte s i).setWidth 32) s)
    | none => if unmapped s.params off then .next (answer 0 s) else .refused (.hostAccess off size)
  else .refused (.hostAccess off size)

/-- `HostWrite` (R240). -/
def hostWrite (off size : Nat) (v : Word) (s : State) : Out :=
  if size = 4 then
    match regAt s.params off with
    | some r => .next (regWrite v s r)
    | none => if unmapped s.params off && decide (off % 4 = 0) then .next s else .refused (.hostAccess off size)
  else if size = 1 then
    match ibufIndex s.params off with
    | some i => .next (ibufWrite i (v.setWidth 8) s)
    | none => if unmapped s.params off then .next s else .refused (.hostAccess off size)
  else .refused (.hostAccess off size)

/-- A host access event (R240). -/
def hostEvent : HostAccess → State → Out
  | .read off size, s => hostRead off size s
  | .write off size v, s => hostWrite off size v s

/-- Hardware reset (R300, R301): the state of R50 for the same instance. Every IBUF entry is a fresh free draw. The
events still to come are the outside world's, and stay. -/
def hardReset (s : State) : State :=
  { State.reset with params := s.params, schedule := s.schedule, reply := s.reply, draw := s.draw + 1 }

end Sys2Proof.Machine
end

