-- ==== Sys2Proof/Machine/Fetch.lean ====
section
/-! DEFINITION. Fetching a packet at the cursor, one event, and placing a program's bits in the input buffer. -/

namespace Sys2Proof.Machine

/-- The stream bits from the cursor to the end (R31), where all are defined. -/
def bitsAhead (s : State) : Option (List Bool) := streamBits s s.pos.toNat (s.nbits.toNat - s.pos.toNat)

/-- The packet at the cursor, where a packet is due (HDR_V, R128) and the stream holds all its own fields. -/
def fetch (s : State) : Option Instr :=
  if s.es = .hdrV then
    match bitsAhead s with
    | none => none
    | some bits =>
      match decode bits with
      | .ok (i, _) => if i.wellFormed then some i else none
      | .error _ => none
  else none

/-- One atomic event (R70, R300). -/
def runEvent : Event → State → Out
  | .engine, s => microStep s
  | .host a, s => hostEvent a s
  | .reset, s => .next (hardReset s)

/-- The upper-case character of a hex digit (R62). -/
def hexChar (d : Nat) : Byte := if d < 10 then BitVec.ofNat 8 (0x30 + d) else BitVec.ofNat 8 (0x37 + d)

/-- Four bits a digit, first bit most significant (R61): bits as hex characters; a last digit short of bits is filled
with zeros (R107). -/
def hexChars : List Bool → List Byte
  | a :: b :: c :: d :: rest => hexChar (bitsVal [a, b, c, d]) :: hexChars rest
  | [a, b, c] => [hexChar (bitsVal [a, b, c, false])]
  | [a, b] => [hexChar (bitsVal [a, b, false, false])]
  | [a] => [hexChar (bitsVal [a, false, false, false])]
  | [] => []

/-- Memory with bytes at the indexes from `i` on. -/
def writeAll (i : Nat) : List Byte → Memory → Memory
  | [], m => m
  | b :: bs, m => writeAll (i + 1) bs (Memory.write m i b)

/-- The state with a transmission in IBUF and its length in LEN (R302 steps 2 and 3). -/
def loadText (text : List Byte) (s : State) : State :=
  { s with ibuf := writeAll 0 text s.ibuf, len := BitVec.ofNat 32 text.length }

end Sys2Proof.Machine
end

