-- ==== Sys2Proof/Machine/Step.lean ====
section
/-! DEFINITION. One step of the machine, and the placing of one instruction where the next step fetches it. -/

namespace Sys2Proof.Machine

/-- One step. While the outside world still has events fixed, the next of them happens: one micro-step, one host access
or a reset, each atomic (R14, R70). Once it has none, no host access can come between the engine's steps, and the
engine runs the packet at the cursor as one instruction, or takes one micro-step where no whole packet is due (log
entry 1). -/
def step (s : State) : Host.Outcome State Fault Refusal :=
  match s.schedule with
  | e :: es => runEvent e { s with schedule := es }
  | [] =>
    match fetch s with
    | some i => exec i s
    | none => microStep s

/-- The state with one instruction as the whole transmission, scanned and about to be parsed (R302, R122): its hex
characters in IBUF, LEN, nbits, the cursor at 0, HDR_V due, no event fixed. Log entry 9. -/
def State.withFetchWord (s : State) (_nbits w : Nat) : State :=
  { loadText (hexChars (tableBits w)) s with nbits := 24, pos := 0, es := .hdrV, schedule := [] }

end Sys2Proof.Machine
end

