-- ==== Sys2Proof/Machine/Reference.lean ====
section
/-! DEFINITION. The reference semantics (44_results.md section 2): the packet tree, its version sum and value, and the
reference parse. They are no state of the TPD: they are what the engine is held to (R228). -/

namespace Sys2Proof.Machine

/-- The Packet Tree (R16, R226). A literal keeps its groups and an operator its framing, so that a tree also gives
the packet's bits (R107) and the engine's steps (R229). -/
inductive Packet where
  | literal (version : BitVec 3) (groups : List (BitVec 4))
  | operator (version : BitVec 3) (op : Op) (lt : LenType) (children : List Packet)
  deriving Repr

/-- A literal's exact value (R98, R226): `value * 16 + g` over its groups. -/
def litValue (groups : List (BitVec 4)) : Nat := groups.foldl (fun value d => value * 16 + d.toNat) 0

mutual
/-- `versionSum` of a tree (R222). -/
def versionSum : Packet → Nat
  | .literal v _ => v.toNat
  | .operator v _ _ cs => v.toNat + versionSums cs
/-- The version sums of the children, added up (R222). -/
def versionSums : List Packet → Nat
  | [] => 0
  | c :: cs => versionSum c + versionSums cs
end

/-- An operator over its children's exact values, left to right (R223). MIN and MAX of no child, and a comparison of
other than two children, have no value. -/
def evalOp : Op → List Nat → Option Nat
  | .sum, vs => some vs.sum
  | .prod, vs => some vs.prod
  | .min, v :: vs => some (vs.foldl min v)
  | .min, [] => none
  | .max, v :: vs => some (vs.foldl max v)
  | .max, [] => none
  | .gt, [a, b] => some (if b < a then 1 else 0)
  | .gt, _ => none
  | .lt, [a, b] => some (if a < b then 1 else 0)
  | .lt, _ => none
  | .eq, [a, b] => some (if a = b then 1 else 0)
  | .eq, _ => none

mutual
/-- `evaluate` of a tree, over unbounded integers (R223). -/
def evaluate : Packet → Option Nat
  | .literal _ ds => some (litValue ds)
  | .operator _ op _ cs =>
    match evaluateAll cs with
    | some vs => evalOp op vs
    | none => none
/-- The children's values in order (R223). -/
def evaluateAll : List Packet → Option (List Nat)
  | [] => some []
  | c :: cs =>
    match evaluate c, evaluateAll cs with
    | some v, some vs => some (v :: vs)
    | _, _ => none
end

/-- An operator's own overflow (R227): (b) a sum of 2^W or more, (c) a product some prefix of which is 2^W or
more. -/
def opOverflows (w : Nat) : Op → List Nat → Bool
  | .sum, vs => decide (2 ^ w ≤ vs.sum)
  | .prod, vs => (List.range (vs.length + 1)).any fun j => decide (2 ^ w ≤ (vs.take j).prod)
  | .min, _ => false
  | .max, _ => false
  | .gt, _ => false
  | .lt, _ => false
  | .eq, _ => false

mutual
/-- Condition (a), (b) or (c) of R227 holds somewhere in the tree. -/
def treeOverflows (w : Nat) : Packet → Bool
  | .literal _ ds => decide (2 ^ w ≤ litValue ds)
  | .operator _ op _ cs =>
    treesOverflow w cs ||
      match evaluateAll cs with
      | some vs => opOverflows w op vs
      | none => false
/-- R227 in one of the children. -/
def treesOverflow (w : Nat) : List Packet → Bool
  | [] => false
  | c :: cs => treeOverflows w c || treesOverflow w cs
end

mutual
/-- The bits a packet occupies, children included (R102). -/
def packetBits : Packet → Nat
  | .literal _ ds => 6 + 5 * ds.length
  | .operator _ _ .l0 cs => 22 + packetsBits cs
  | .operator _ _ .l1 cs => 18 + packetsBits cs
/-- The bits of packets back to back. -/
def packetsBits : List Packet → Nat
  | [] => 0
  | c :: cs => packetBits c + packetsBits cs
end

mutual
/-- The engine steps a packet takes, children included (R229): k + 3 for a literal, m + 7 for an operator. -/
def packetSteps : Packet → Nat
  | .literal _ ds => ds.length + 3
  | .operator _ _ _ cs => cs.length + 7 + packetsSteps cs
/-- The engine steps of packets one after the other. -/
def packetsSteps : List Packet → Nat
  | [] => 0
  | c :: cs => packetSteps c + packetsSteps cs
end

mutual
/-- How many operators nest in a packet, itself included: the frames it needs (R33). -/
def packetDepth : Packet → Nat
  | .literal _ _ => 0
  | .operator _ _ _ cs => 1 + packetsDepth cs
/-- The deepest of several packets. -/
def packetsDepth : List Packet → Nat
  | [] => 0
  | c :: cs => max (packetDepth c) (packetsDepth cs)
end

/-- The arity checks of R105 (d) and (e). -/
def arityOk (op : Op) (children : Nat) : Bool :=
  !(needsChild op && decide (children = 0)) && !(isComparison op && decide (children ≠ 2))

mutual
/-- A well-formed packet tree (R105), whose length field can hold its children's bits or count (R94, R96). -/
def packetWf : Packet → Bool
  | .literal _ ds => !ds.isEmpty
  | .operator _ op .l0 cs => packetsWf cs && arityOk op cs.length && decide (packetsBits cs < 2 ^ 15)
  | .operator _ op .l1 cs => packetsWf cs && arityOk op cs.length && decide (cs.length < 2 ^ 11)
/-- Every child is well-formed (R105 (f)). -/
def packetsWf : List Packet → Bool
  | [] => true
  | c :: cs => packetWf c && packetsWf cs
end

mutual
/-- A packet's bits, children included, its L or N computed from them (R107). -/
def packetEncode : Packet → List Bool
  | .literal v ds => encodeHeader v 4#3 ++ encodeGroups ds
  | .operator v op .l0 cs => encodeB op.typeId v (BitVec.ofNat 15 (packetsBits cs)) ++ packetsEncode cs
  | .operator v op .l1 cs => encodeN op.typeId v (BitVec.ofNat 11 cs.length) ++ packetsEncode cs
/-- Packets back to back (R94, R96). -/
def packetsEncode : List Packet → List Bool
  | [] => []
  | c :: cs => packetEncode c ++ packetsEncode cs
end

/-- How the reference parse fails (R226, R228). `noFuel` is this rendering's own: the recursion bound was too
small. -/
inductive ParseError where
  | outOfBits
  | malformedPacket
  | depthExceeded
  | noFuel
  deriving DecidableEq, Repr

/-- What the reference parse gives: a tree and the bits after it, or its first failure. -/
abbrev Parsed (α : Type) := Except ParseError (α × List Bool)

/-- The end of the reference parse of an operator (R226): the arity checks, then the tree. -/
def closeOperator (v : BitVec 3) (op : Op) (lt : LenType) : Parsed (List Packet) → Parsed Packet
  | .error e => .error e
  | .ok (cs, rest) => if arityOk op cs.length then .ok (.operator v op lt cs, rest) else .error .malformedPacket

mutual
/-- `parsePacket` (R226), with R228's depth check: `depth` operators are open around the packet. `fuel` bounds the
recursion. -/
def parsePacket (maxDepth : Nat) : Nat → Nat → List Bool → Parsed Packet
  | 0, _, _ => .error .noFuel
  | fuel + 1, depth, bits =>
    match takeField 3 bits with
    | none => .error .outOfBits
    | some (v, bits) =>
      match takeField 3 bits with
      | none => .error .outOfBits
      | some (t, bits) =>
        match Op.ofTypeId t with
        | none =>
          match decodeGroups bits with
          | .ok (ds, rest) => .ok (.literal v ds, rest)
          | .error _ => .error .outOfBits
        | some op =>
          match bits with
          | [] => .error .outOfBits
          | false :: bits =>
            match takeField 15 bits with
            | none => .error .outOfBits
            | some (len, bits) =>
              if maxDepth ≤ depth then .error .depthExceeded
              else closeOperator v op .l0 (parseWindow maxDepth fuel (depth + 1) len.toNat bits)
          | true :: bits =>
            match takeField 11 bits with
            | none => .error .outOfBits
            | some (cnt, bits) =>
              if maxDepth ≤ depth then .error .depthExceeded
              else closeOperator v op .l1 (parseCount maxDepth fuel (depth + 1) cnt.toNat bits)
termination_by structural fuel => fuel
/-- The children of an L0 operator: packets until `left` bits of its window are used up, tested before each child; a
child that uses more overshoots (R226). -/
def parseWindow (maxDepth : Nat) : Nat → Nat → Nat → List Bool → Parsed (List Packet)
  | 0, _, _, _ => .error .noFuel
  | fuel + 1, depth, left, bits =>
    if left = 0 then .ok ([], bits)
    else
      match parsePacket maxDepth fuel depth bits with
      | .error e => .error e
      | .ok (c, rest) =>
        if left < bits.length - rest.length then .error .malformedPacket
        else
          match parseWindow maxDepth fuel depth (left - (bits.length - rest.length)) rest with
          | .error e => .error e
          | .ok (cs, rest) => .ok (c :: cs, rest)
termination_by structural fuel => fuel
/-- The children of an L1 operator: exactly `n` packets (R226). -/
def parseCount (maxDepth : Nat) : Nat → Nat → Nat → List Bool → Parsed (List Packet)
  | 0, _, _, _ => .error .noFuel
  | fuel + 1, depth, n, bits =>
    if n = 0 then .ok ([], bits)
    else
      match parsePacket maxDepth fuel depth bits with
      | .error e => .error e
      | .ok (c, rest) =>
        match parseCount maxDepth fuel depth (n - 1) rest with
        | .error e => .error e
        | .ok (cs, rest) => .ok (c :: cs, rest)
termination_by structural fuel => fuel
end

/-- `decode` of R226 over a whole bit sequence: one top-level packet; the rest is padding. The fuel covers every
recursion, since each packet uses bits (R103). -/
def referenceDecode (maxDepth : Nat) (bits : List Bool) : Parsed Packet :=
  parsePacket maxDepth (bits.length + 1) 0 bits

end Sys2Proof.Machine
end

