-- ==== Sys2Proof/Safety.lean ====
section
/-! DEFINITION. What holds of every state a run reaches: the terms in which claims about the machine are stated. -/

namespace Sys2Proof.Safety

open Sys2Proof.Machine

/-- STATE = BUSY (R24). -/
def busy (s : State) : Prop := s.es.busy = true

/-- Every one of the first n characters of IBUF is a hex digit (R122). -/
def hexUpTo (s : State) (n : Nat) : Prop := ∀ i, i < n → ∃ d, hexval (ibufByte s i) = some d

/-- IBUF is in its canonical form and lists only entries it has (R60). -/
def memoryFits (s : State) : Prop :=
  Memory.wf s.ibuf = true ∧ ∀ c, c ∈ s.ibuf → c.1 < s.params.maxChars

/-- Every value register holds W bits (R10, R30, R34). -/
def valuesFit (s : State) : Prop :=
  s.acc < 2 ^ s.params.width ∧ s.ret < 2 ^ s.params.width ∧ s.valueR < 2 ^ s.params.width ∧
  ∀ f, f ∈ s.frames → f.r < 2 ^ s.params.width

/-- What the error registers record in ERROR (R261 to R263, R28). -/
def errorRecorded (s : State) : Prop :=
  (s.errCode = 1 ∧ s.errDetail ∈ [1, 3, 5, 11, 15] ∧ s.errPosR = s.posR) ∨
  (s.errCode = 2 ∧ s.errDetail ∈ [1, 2, 3] ∧ s.errPosR = s.posR) ∨
  (s.errCode = 3 ∧ hexval s.errDetail = none ∧ s.posR = 0) ∨
  (s.errCode = 4 ∧ s.errDetail = 0 ∧ s.errPosR = s.posR) ∨
  (s.errCode = 5 ∧ s.errDetail = 0 ∧ s.errPosR = 0 ∧ s.posR = 0)

/-- The error registers are clear (R25, R26). -/
def errorClear (s : State) : Prop := s.errCode = 0 ∧ s.errDetail = 0 ∧ s.errPosR = 0

/-- The value registers are clear (R23, R29, R40). -/
def valueClear (s : State) : Prop :=
  s.vsumR = 0 ∧ s.valueR = 0 ∧ s.valueValid = false ∧ s.valueOvf = false

/-- The result registers agree with STATE (R23, R25, R26, R28, R29, R40, R221). -/
def resultsFit (s : State) : Prop :=
  match s.es.stateCode.toNat with
  | 2 => errorClear s ∧ s.valueValid = !s.valueOvf ∧ (s.valueOvf = true → s.valueR = 0) ∧
      s.vsumR.toNat ≤ 7 * (s.posR.toNat / 11)
  | 3 => errorRecorded s ∧ valueClear s
  | _ => errorClear s ∧ valueClear s ∧ s.posR = 0

/-- Bits of the packet at hand that its micro-state has read (R91, R93, R94, R96). -/
def headBits : Micro → Nat
  | .hdrT => 3
  | .litG => 6
  | .opI => 6
  | .opL0 => 7
  | .opL1 => 7
  | .idle => 0
  | .scan => 0
  | .hdrV => 0
  | .next => 0
  | .close => 0
  | .ret => 0
  | .done => 0
  | .error => 0

/-- Bits the packet at hand still lacks to the 11 that every packet has (R103), once its version is summed. -/
def owedBits : Micro → Nat
  | .hdrT => 8
  | .litG => 5
  | .opI => 5
  | .opL0 => 4
  | .opL1 => 4
  | .idle => 0
  | .scan => 0
  | .hdrV => 0
  | .next => 0
  | .close => 0
  | .ret => 0
  | .done => 0
  | .error => 0

/-- The type-id register fits the micro-state (R127). -/
def typeFits (s : State) : Prop :=
  match s.es with
  | .litG => s.typ = 4
  | .opI => s.typ ≠ 4
  | .opL0 => s.typ ≠ 4
  | .opL1 => s.typ ≠ 4
  | _ => True

/-- The top frame fits the micro-state (R155, R156): NEXT and CLOSE have one; in NEXT an L0 window is not overshot; in
CLOSE the frame needs no more children. -/
def topFits (s : State) : Prop :=
  match s.es, s.frames with
  | .next, [] => False
  | .next, f :: _ => f.lt = .l0 → s.pos.toNat ≤ f.lim.toNat
  | .close, [] => False
  | .close, f :: _ => frameFull f s = true
  | _, _ => True

/-- The engine's registers during a run (R30, R31, R33, R61, R72, R103, R221). -/
structure RunFits (s : State) : Prop where
  lenFits : s.len.toNat ≤ s.params.maxChars
  nbitsIs : s.nbits.toNat = 4 * s.len.toNat
  posFits : s.pos.toNat ≤ s.nbits.toNat
  scanFits : s.es = .scan → s.scanI.toNat ≤ s.len.toNat ∧ s.pos = 0 ∧ s.frames = [] ∧ hexUpTo s s.scanI.toNat
  hexFits : s.es ≠ .scan → hexUpTo s s.len.toNat
  depthFits : s.frames.length ≤ s.params.maxDepth
  framesFit : 18 * s.frames.length + headBits s.es ≤ s.pos.toNat
  versionsFit : s.vacc.toNat ≤ 7 * ((s.pos.toNat + owedBits s.es) / 11)
  typeFit : typeFits s
  topFit : topFits s

/-- The invariant of the machine. -/
structure Consistent (s : State) : Prop where
  legal : s.params.legal = true
  memory : memoryFits s
  values : valuesFit s
  results : resultsFit s
  run : busy s → RunFits s

/-- The host accesses that are no event of the TPD (R68, R240): a size other than 4 or 1, a word access off its
alignment, a byte access inside a register's word (log entry 14), and a word access to IBUF. -/
abbrev refusedAccess (p : Config.Params) (off size : Nat) : Prop :=
  (size ≠ 4 ∧ size ≠ 1) ∨ (size = 4 ∧ off % 4 ≠ 0) ∨
  (size = 1 ∧ (off < 0x01C ∨ (0x020 ≤ off ∧ off < 0x020 + 4 * (p.width / 32)))) ∨
  (size = 4 ∧ 0x1000 ≤ off ∧ off < 0x1000 + p.maxChars)

/-- The next event fixed is a host access, of this size at this offset (R240). -/
def accessDue (s : State) (off size : Nat) : Prop :=
  ∃ es, s.schedule = .host (.read off size) :: es ∨ ∃ v, s.schedule = .host (.write off size v) :: es

/-- The micro-steps that one instruction stands for: one per field it reads (R126, R127, R141, R151 to R153). -/
def microSteps : Instr → Nat
  | .lit _ ds => 2 + ds.length
  | .sumB _ _ => 4
  | .sumN _ _ => 4
  | .prodB _ _ => 4
  | .prodN _ _ => 4
  | .minB _ _ => 4
  | .minN _ _ => 4
  | .maxB _ _ => 4
  | .maxN _ _ => 4
  | .gtB _ _ => 4
  | .gtN _ _ => 4
  | .ltB _ _ => 4
  | .ltN _ _ => 4
  | .eqB _ _ => 4
  | .eqN _ _ => 4

/-- The code a failure of the reference parse has in the TPD (R228, R261). -/
def parseCode : ParseError → Option Byte
  | .outOfBits => some 1
  | .malformedPacket => some 2
  | .depthExceeded => some 4
  | .noFuel => none

/-- What R228 asks of the end of a run whose reference parse gave tree `p` and left `rest` of `bits`. -/
def doneAs (t : State) (bits rest : List Bool) (p : Packet) : Prop :=
  t.es = .done ∧ t.posR.toNat = bits.length - rest.length ∧ t.posR.toNat = packetBits p ∧
  t.vsumR.toNat = versionSum p ∧ t.valueOvf = treeOverflows t.params.width p ∧
  (treeOverflows t.params.width p = true → t.valueValid = false ∧ t.valueR = 0) ∧
  (treeOverflows t.params.width p = false → t.valueValid = true ∧ evaluate p = some t.valueR)

/-- The fold of an operator over its children's values (R203): the child count, the running result and whether some
step overflowed. -/
def foldChildren (w : Nat) (op : Op) (vs : List Value) : BitVec 16 × Value × Bool :=
  vs.foldl (fun a v => (a.1 + 1, (combine w op a.1 a.2.1 v).1, a.2.2 || (combine w op a.1 a.2.1 v).2))
    (0, initVal op, false)

/-- The character codes of the hex digits (R62). -/
def isHexCode (c : Byte) : Prop :=
  (0x30 ≤ c.toNat ∧ c.toNat ≤ 0x39) ∨ (0x41 ≤ c.toNat ∧ c.toNat ≤ 0x46) ∨ (0x61 ≤ c.toNat ∧ c.toNat ≤ 0x66)

/-- The seven instructions of format OPB (R94). -/
def operatorsB (v : BitVec 3) (len : BitVec 15) : List Instr :=
  [.sumB v len, .prodB v len, .minB v len, .maxB v len, .gtB v len, .ltB v len, .eqB v len]

/-- The seven instructions of format OPN (R96). -/
def operatorsN (v : BitVec 3) (cnt : BitVec 11) : List Instr :=
  [.sumN v cnt, .prodN v cnt, .minN v cnt, .maxN v cnt, .gtN v cnt, .ltN v cnt, .eqN v cnt]

/-- The state after a `.B` operator with type-id `t` opened its frame (R150, R152): the 22 bits are read, the version is
summed, and the window of `len` bits begins after them. -/
def openedB (t : BitVec 3) (op : Op) (r : Value) (v : BitVec 3) (len : BitVec 15) (s : State) : State :=
  { s with
    pos := s.pos + 22, ver := v, typ := t, vacc := s.vacc + v.setWidth 32
    frames := { op := op, lt := .l0, lim := s.pos + 22 + len.setWidth 32, n := 0, r := r } :: s.frames
    es := .next }

/-- The state after a `.N` operator with type-id `t` opened its frame (R150, R153): the 18 bits are read, the version is
summed, and `cnt` children are due. -/
def openedN (t : BitVec 3) (op : Op) (r : Value) (v : BitVec 3) (cnt : BitVec 11) (s : State) : State :=
  { s with
    pos := s.pos + 18, ver := v, typ := t, vacc := s.vacc + v.setWidth 32
    frames := { op := op, lt := .l1, lim := cnt.setWidth 32, n := 0, r := r } :: s.frames
    es := .next }

/-- ERROR with a code, a detail and a position, and no result (R270). -/
def errorState (t : State) (code detail : Byte) (pos : Word) : Prop :=
  t.es = .error ∧ t.errCode = code ∧ t.errDetail = detail ∧ t.errPosR = pos ∧ t.posR = pos ∧
  t.vsumR = 0 ∧ t.valueR = 0 ∧ t.valueValid = false ∧ t.valueOvf = false

/-- The state with the registers that R270 writes taken from another state. -/
def withErrorOf (t s : State) : State :=
  { s with
    errCode := t.errCode, errDetail := t.errDetail, errPosR := t.errPosR, posR := t.posR, vsumR := t.vsumR
    valueR := t.valueR, valueValid := t.valueValid, valueOvf := t.valueOvf, es := t.es }

/-- The input of a run and everything no packet can reach: parameters, LEN, IBUF, and the model's own fields. -/
def sameInput (s t : State) : Prop :=
  t.params = s.params ∧ t.len = s.len ∧ t.ibuf = s.ibuf ∧ t.schedule = s.schedule ∧ t.reply = s.reply ∧
  t.draw = s.draw ∧ ∀ a, ibufAt t a = ibufAt s a

/-- The result registers are the same (R25, R26, R28, R29, R40, R23). -/
def sameResults (s t : State) : Prop :=
  t.errCode = s.errCode ∧ t.errDetail = s.errDetail ∧ t.errPosR = s.errPosR ∧ t.posR = s.posR ∧
  t.vsumR = s.vsumR ∧ t.valueR = s.valueR ∧ t.valueValid = s.valueValid ∧ t.valueOvf = s.valueOvf

/-- Two states agree on everything but W and the registers and flags that hold values (R212). -/
def sameButValues (s t : State) : Prop :=
  s.params.maxChars = t.params.maxChars ∧ s.params.maxDepth = t.params.maxDepth ∧
  s.len = t.len ∧ s.ibuf = t.ibuf ∧ s.draw = t.draw ∧
  s.errCode = t.errCode ∧ s.errDetail = t.errDetail ∧ s.errPosR = t.errPosR ∧
  s.posR = t.posR ∧ s.vsumR = t.vsumR ∧
  s.es = t.es ∧ s.scanI = t.scanI ∧ s.nbits = t.nbits ∧ s.pos = t.pos ∧ s.ver = t.ver ∧ s.typ = t.typ ∧
  s.vacc = t.vacc ∧
  s.frames.map (fun f => (f.op, f.lt, f.lim, f.n)) = t.frames.map (fun f => (f.op, f.lt, f.lim, f.n))

end Sys2Proof.Safety
end

