-- ==== Sys2Proof/Certificates/Slice0/Obligations.lean ====
section
/-! DEFINITION. The statements for the provers, from the numbered rules of the spec. -/

open Sys2Proof Sys2Proof.Machine Sys2Proof.Safety

/-! ### Encoding -/

/-- Packet bits written out from the spec: the worked encodings R108 and R109 (fields of the top packet and of the first
child), and one `.N` header (S5). -/
def Obligations.WorkedEncodingsDecode : Prop :=
  decode [true, true, false, true, false, false, true, false, true, true, true, true, true, true, true, false,
      false, false, true, false, true, false, false, false] =
    .ok (.lit 6 [7, 14, 5], [false, false, false]) ∧
  decode [false, false, true, true, true, false, false, false, false, false, false, false, false, false, false, false,
      false, true, true, false, true, true, true, true, false, true, false, false, false, true, false, true, false] =
    .ok (.ltB 1 27, [true, true, false, true, false, false, false, true, false, true, false]) ∧
  decode [true, true, false, true, false, false, false, true, false, true, false] = .ok (.lit 6 [10], []) ∧
  decode [true, true, false, false, false, false, true, false, false, false, false, false, false, false, false, false,
      true, false] = .ok (.sumN 6 2, [])

/-- R101: for every 7-bit H7 exactly one row of the opcode table matches; the decoder reads that row's instruction, whose
first 7 bits are H7. Six bits are enough to know a LIT: a stream that ends after them lacks a group, not a field of an
operator. -/
def Obligations.SevenBitsMatchOneRow : Prop :=
  (∀ w, w < 128 → ∃ r i, matchingRows w = [r] ∧ decodeTableWord 8 w = some i ∧ mnemonicOf i = r.mnemonic ∧
    (encode i).take 7 = bitsOf (BitVec.ofNat 7 w)) ∧
  ∀ v : BitVec 3, decode (encodeHeader v 4) = .error .endsInGroup

/-- R91 to R98: the bits of a well-formed instruction decode to it, whatever follows them. -/
def Obligations.DecodeAfterEncodeIsTheInstruction : Prop :=
  ∀ (i : Instr) (rest : List Bool), i.wellFormed = true → decode (encode i ++ rest) = .ok (i, rest)

/-- R102, R104: what decodes is a well-formed instruction whose bits, as many as R102 says, stand at the head. -/
def Obligations.EncodeAfterDecodeIsTheBits : Prop :=
  ∀ (bits rest : List Bool) (i : Instr), decode bits = .ok (i, rest) →
    i.wellFormed = true ∧ bits = encode i ++ rest ∧ (encode i).length = bitLength i

/-- R104, R125: no encoding is reserved: a bit string is rejected only because it ends too soon, and some continuation of
it decodes. -/
def Obligations.OnlyStreamsThatEndAreRejected : Prop :=
  ∀ (bits : List Bool) (e : DecodeError), decode bits = .error e →
    e ≠ .notAnOperator ∧ ∃ more i rest, decode (bits ++ more) = .ok (i, rest)

/-- R105 to R107, R226: the reference parse of a well-formed packet's bits gives the packet back, children included, and
leaves what follows, where the nesting fits. -/
def Obligations.EncodedPacketParsesBack : Prop :=
  ∀ (p : Packet) (maxDepth fuel depth : Nat) (rest : List Bool), packetWf p = true →
    packetDepth p + depth ≤ maxDepth → (packetEncode p).length < fuel →
    parsePacket maxDepth fuel depth (packetEncode p ++ rest) = .ok (p, rest)

/-! ### The step -/

/-- Where no event is fixed, a packet is due and the bits at the cursor decode to a well-formed instruction, the step is
exec of it; the TPD's step adds nothing around exec (R128; the granularity is log entry 1). -/
def Obligations.StepRunsTheDecodedInstruction : Prop :=
  ∀ (s : State) (i : Instr) (bits rest : List Bool), s.schedule = [] → s.es = .hdrV → bitsAhead s = some bits →
    decode bits = .ok (i, rest) → i.wellFormed = true → step s = exec i s

/-- R14, R70: a fixed event is one atomic event; with none fixed and no whole packet at the cursor, the step is one
micro-step (log entries 1 and 5). -/
def Obligations.StepTakesOneEvent : Prop :=
  (∀ (s : State) (es : List Event), s.schedule = .engine :: es → step s = microStep { s with schedule := es }) ∧
  (∀ (s : State) (a : HostAccess) (es : List Event), s.schedule = .host a :: es →
    step s = hostEvent a { s with schedule := es }) ∧
  (∀ (s : State) (es : List Event), s.schedule = .reset :: es → step s = .next (hardReset { s with schedule := es })) ∧
  (∀ s : State, s.schedule = [] → fetch s = none → step s = microStep s)

/-- R140, R150: where the stream holds an instruction's bits from the cursor on, as many of them as it has left, the
instruction run at once is exactly its micro-steps, one per field: with all its bits there, up to its result or
DEPTH_EXCEEDED; with the stream ending inside it, up to OUT_OF_BITS. The engine events due after a raise change nothing
(log entry 17). -/
def Obligations.InstructionIsItsMicroSteps : Prop :=
  ∀ (i : Instr) (s : State), i.wellFormed = true → s.es = .hdrV →
    streamBits s s.pos.toNat (min (bitLength i) (s.nbits.toNat - s.pos.toNat)) =
      some ((encode i).take (s.nbits.toNat - s.pos.toNat)) →
    engineRun (microSteps i) s = exec i s

/-! ### Instructions: results, errors, frames -/

/-- R98, R140, R142: LIT completes where its bits are in the stream: its value is in `ret` and `acc` modulo 2^W, `ovf` is
set exactly when the exact value is 2^W or more, and its version is summed. -/
def Obligations.LitGivesItsValue : Prop :=
  ∀ (v : BitVec 3) (ds : List (BitVec 4)) (s : State), ds ≠ [] → s.pos.toNat + (6 + 5 * ds.length) ≤ s.nbits.toNat →
    exec (.lit v ds) s = .next { s with
      pos := s.pos + BitVec.ofNat 32 (6 + 5 * ds.length), ver := v, typ := 4, vacc := s.vacc + v.setWidth 32
      acc := litValue ds % 2 ^ s.params.width, ret := litValue ds % 2 ^ s.params.width
      ovf := s.ovf || decide (2 ^ s.params.width ≤ litValue ds), es := .ret }

/-- R150, R152, R153, R200: SUM and PROD complete where their own bits are in the stream and the stack has room: they open
a frame, Sum with 0 and Product with 1. -/
def Obligations.SumAndProductOpenFrames : Prop :=
  (∀ (v : BitVec 3) (len : BitVec 15) (s : State), s.pos.toNat + 22 ≤ s.nbits.toNat →
    s.frames.length < s.params.maxDepth →
    exec (.sumB v len) s = .next (openedB 0 .sum 0 v len s) ∧
    exec (.prodB v len) s = .next (openedB 1 .prod 1 v len s)) ∧
  (∀ (v : BitVec 3) (cnt : BitVec 11) (s : State), s.pos.toNat + 18 ≤ s.nbits.toNat →
    s.frames.length < s.params.maxDepth →
    exec (.sumN v cnt) s = .next (openedN 0 .sum 0 v cnt s) ∧
    exec (.prodN v cnt) s = .next (openedN 1 .prod 1 v cnt s))

/-- R150, R152, R153, R200: MIN and MAX complete where their own bits are in the stream and the stack has room. -/
def Obligations.MinimumAndMaximumOpenFrames : Prop :=
  (∀ (v : BitVec 3) (len : BitVec 15) (s : State), s.pos.toNat + 22 ≤ s.nbits.toNat →
    s.frames.length < s.params.maxDepth →
    exec (.minB v len) s = .next (openedB 2 .min 0 v len s) ∧
    exec (.maxB v len) s = .next (openedB 3 .max 0 v len s)) ∧
  (∀ (v : BitVec 3) (cnt : BitVec 11) (s : State), s.pos.toNat + 18 ≤ s.nbits.toNat →
    s.frames.length < s.params.maxDepth →
    exec (.minN v cnt) s = .next (openedN 2 .min 0 v cnt s) ∧
    exec (.maxN v cnt) s = .next (openedN 3 .max 0 v cnt s))

/-- R150, R152, R153, R200: GT, LT and EQ complete where their own bits are in the stream and the stack has room. -/
def Obligations.ComparisonsOpenFrames : Prop :=
  (∀ (v : BitVec 3) (len : BitVec 15) (s : State), s.pos.toNat + 22 ≤ s.nbits.toNat →
    s.frames.length < s.params.maxDepth →
    exec (.gtB v len) s = .next (openedB 5 .gt 0 v len s) ∧
    exec (.ltB v len) s = .next (openedB 6 .lt 0 v len s) ∧
    exec (.eqB v len) s = .next (openedB 7 .eq 0 v len s)) ∧
  (∀ (v : BitVec 3) (cnt : BitVec 11) (s : State), s.pos.toNat + 18 ≤ s.nbits.toNat →
    s.frames.length < s.params.maxDepth →
    exec (.gtN v cnt) s = .next (openedN 5 .gt 0 v cnt s) ∧
    exec (.ltN v cnt) s = .next (openedN 6 .lt 0 v cnt s) ∧
    exec (.eqN v cnt) s = .next (openedN 7 .eq 0 v cnt s))

/-- R154, R263, R269: an operator whose own bits are in the stream, met with a full stack, raises DEPTH_EXCEEDED with
ERR_POS after its length field, and leaves the frame stack as it was. -/
def Obligations.FullStackRaisesDepthExceeded : Prop :=
  (∀ (v : BitVec 3) (len : BitVec 15) (i : Instr) (s : State), i ∈ operatorsB v len →
    s.pos.toNat + 22 ≤ s.nbits.toNat → s.frames.length = s.params.maxDepth →
    ∃ t, exec i s = .next t ∧ errorState t 4 0 (s.pos + 22) ∧ t.frames = s.frames) ∧
  (∀ (v : BitVec 3) (cnt : BitVec 11) (i : Instr) (s : State), i ∈ operatorsN v cnt →
    s.pos.toNat + 18 ≤ s.nbits.toNat → s.frames.length = s.params.maxDepth →
    ∃ t, exec i s = .next t ∧ errorState t 4 0 (s.pos + 18) ∧ t.frames = s.frames)

/-- R124, R125, R264: an instruction whose bits run past the stream's end raises OUT_OF_BITS at its first field that does
not fit, with that field's width as DETAIL and its offset as position. -/
def Obligations.CutShortInstructionRaisesOutOfBits : Prop :=
  ∀ (i : Instr) (s : State) (off w : Nat), i.wellFormed = true → s.pos.toNat ≤ s.nbits.toNat →
    firstMissing (s.nbits.toNat - s.pos.toNat) 0 (fieldWidths i) = some (off, w) →
    ∃ t, exec i s = .next t ∧ errorState t 1 (BitVec.ofNat 8 w) (s.pos + BitVec.ofNat 32 off) ∧ t.frames = s.frames

/-- Frame of LIT (R140, R144): it leaves the input, the frame stack, `scan_i` and `nbits`; unless it raises an error it
leaves every result register. -/
def Obligations.LitLeavesTheRest : Prop :=
  ∀ (v : BitVec 3) (ds : List (BitVec 4)) (s t : State), exec (.lit v ds) s = .next t →
    sameInput s t ∧ t.frames = s.frames ∧ t.scanI = s.scanI ∧ t.nbits = s.nbits ∧
    (t.es ≠ .error → sameResults s t)

/-- Frame of the fourteen operators (R150): they leave the input, `scan_i`, `nbits`, `acc`, `ret`, `ovf` and every frame
already open; unless they raise an error they leave every result register and open one frame. -/
def Obligations.OperatorsLeaveTheRest : Prop :=
  ∀ (v : BitVec 3) (len : BitVec 15) (cnt : BitVec 11) (i : Instr) (s t : State),
    i ∈ operatorsB v len ++ operatorsN v cnt → exec i s = .next t →
    sameInput s t ∧ t.scanI = s.scanI ∧ t.nbits = s.nbits ∧ t.acc = s.acc ∧ t.ret = s.ret ∧ t.ovf = s.ovf ∧
    (t.es = .error → t.frames = s.frames) ∧
    (t.es ≠ .error → sameResults s t ∧ ∃ f, t.frames = f :: s.frames)

/-! ### Operators: the fold of the children -/

/-- R157, R203, R211: RET adds or multiplies the child's value into the top Sum or Product frame in W bits and sets `ovf`
exactly when the exact result is 2^W or more. -/
def Obligations.ReturnIntoSumAndProduct : Prop :=
  ∀ (s : State) (f : Frame) (fs : List Frame), s.es = .ret → s.frames = f :: fs →
    (f.lt = .l0 → s.pos.toNat ≤ f.lim.toNat) →
    (f.op = .sum → microStep s = .next { s with
      frames := { f with r := (f.r + s.ret) % 2 ^ s.params.width, n := f.n + 1 } :: fs
      ovf := s.ovf || decide (2 ^ s.params.width ≤ f.r + s.ret), es := .next }) ∧
    (f.op = .prod → microStep s = .next { s with
      frames := { f with r := (f.r * s.ret) % 2 ^ s.params.width, n := f.n + 1 } :: fs
      ovf := s.ovf || decide (2 ^ s.params.width ≤ f.r * s.ret), es := .next })

/-- R157, R203: RET keeps the first child's value in a Minimum or Maximum frame, and after it the smaller or the larger
of the two. -/
def Obligations.ReturnIntoMinimumAndMaximum : Prop :=
  ∀ (s : State) (f : Frame) (fs : List Frame), s.es = .ret → s.frames = f :: fs →
    (f.lt = .l0 → s.pos.toNat ≤ f.lim.toNat) →
    (f.op = .min → ∃ r, (f.n = 0 → r = s.ret) ∧ (f.n ≠ 0 → r = min f.r s.ret) ∧
      microStep s = .next { s with frames := { f with r := r, n := f.n + 1 } :: fs, es := .next }) ∧
    (f.op = .max → ∃ r, (f.n = 0 → r = s.ret) ∧ (f.n ≠ 0 → r = max f.r s.ret) ∧
      microStep s = .next { s with frames := { f with r := r, n := f.n + 1 } :: fs, es := .next })

/-- R157, R203: RET keeps the first child's value in a comparison's frame, makes it 1 or 0 at the second, first child on
the left, and leaves it at a later one. -/
def Obligations.ReturnIntoComparisons : Prop :=
  ∀ (s : State) (f : Frame) (fs : List Frame), s.es = .ret → s.frames = f :: fs →
    (f.lt = .l0 → s.pos.toNat ≤ f.lim.toNat) → f.op = .gt ∨ f.op = .lt ∨ f.op = .eq →
    ∃ r, microStep s = .next { s with frames := { f with r := r, n := f.n + 1 } :: fs, es := .next } ∧
      (f.n = 0 → r = s.ret) ∧
      (f.n = 1 → f.op = .gt → r = if s.ret < f.r then 1 else 0) ∧
      (f.n = 1 → f.op = .lt → r = if f.r < s.ret then 1 else 0) ∧
      (f.n = 1 → f.op = .eq → r = if f.r = s.ret then 1 else 0) ∧
      (f.n ≠ 0 → f.n ≠ 1 → r = f.r)

/-- R203, R204, R223, R227: the fold of an operator over its children's values, from init, overflows exactly where
R227 says, and where it does not, it is the operator's exact value. -/
def Obligations.FoldIsTheOperatorsValue : Prop :=
  ∀ (w : Nat) (op : Op) (vs : List Value), 0 < w → arityOk op vs.length = true → vs.length < 2 ^ 16 →
    (foldChildren w op vs).1.toNat = vs.length ∧
    (foldChildren w op vs).2.2 = opOverflows w op vs ∧
    (opOverflows w op vs = false → evalOp op vs = some (foldChildren w op vs).2.1)

/-- R157: a child of an L0 frame that ended past the window raises MALFORMED_PACKET, DETAIL 1, at the cursor, and the frame
stack stays. -/
def Obligations.OvershootIsMalformed : Prop :=
  ∀ (s : State) (f : Frame) (fs : List Frame), s.es = .ret → s.frames = f :: fs → f.lt = .l0 →
    f.lim.toNat < s.pos.toNat → ∃ t, microStep s = .next t ∧ errorState t 2 1 s.pos ∧ t.frames = s.frames

/-- R156, R214, R215: CLOSE of a MIN or MAX with no child raises MALFORMED_PACKET, DETAIL 3; CLOSE of a comparison with
other than two children raises it with DETAIL 2; at the cursor, the frame stack kept. -/
def Obligations.WrongArityIsMalformed : Prop :=
  ∀ (s : State) (f : Frame) (fs : List Frame), s.es = .close → s.frames = f :: fs →
    (f.op = .min ∨ f.op = .max → f.n = 0 →
      ∃ t, microStep s = .next t ∧ errorState t 2 3 s.pos ∧ t.frames = s.frames) ∧
    (f.op = .gt ∨ f.op = .lt ∨ f.op = .eq → f.n ≠ 2 →
      ∃ t, microStep s = .next t ∧ errorState t 2 2 s.pos ∧ t.frames = s.frames)

/-- R156, R204: CLOSE of any other frame hands its running result to `ret` and pops it. -/
def Obligations.CloseGivesTheRunningResult : Prop :=
  ∀ (s : State) (f : Frame) (fs : List Frame), s.es = .close → s.frames = f :: fs →
    (f.op = .min ∨ f.op = .max → f.n ≠ 0) → (f.op = .gt ∨ f.op = .lt ∨ f.op = .eq → f.n = 2) →
    microStep s = .next { s with ret := f.r, frames := fs, es := .ret }

/-- R155: NEXT goes to CLOSE exactly where the window is used up or the count is reached, else to the next child, and
changes nothing else; in every consistent state an L0 window is not overshot there. -/
def Obligations.NextTestsBeforeEachChild : Prop :=
  ∀ (s : State) (f : Frame) (fs : List Frame), s.es = .next → s.frames = f :: fs →
    ((f.lt = .l0 ∧ s.pos = f.lim) ∨ (f.lt = .l1 ∧ f.n.toNat = f.lim.toNat) →
      microStep s = .next { s with es := .close }) ∧
    (¬((f.lt = .l0 ∧ s.pos = f.lim) ∨ (f.lt = .l1 ∧ f.n.toNat = f.lim.toNat)) →
      microStep s = .next { s with es := .hdrV }) ∧
    (Consistent s → f.lt = .l0 → s.pos.toNat ≤ f.lim.toNat)

/-! ### The cursor -/

/-- R122: SCAN goes on to the first packet once every character is validated; else it passes a hex digit of either case
and raises INVALID_HEX with the byte and its index at any other. -/
def Obligations.ScanValidatesOneCharacter : Prop :=
  ∀ s : State, s.es = .scan →
    (s.scanI.toNat = s.nbits.toNat / 4 → microStep s = .next { s with es := .hdrV }) ∧
    (s.scanI.toNat ≠ s.nbits.toNat / 4 → s.scanI.toNat < s.params.maxChars → isHexCode (ibufByte s s.scanI.toNat) →
      microStep s = .next { s with scanI := s.scanI + 1 }) ∧
    (s.scanI.toNat ≠ s.nbits.toNat / 4 → s.scanI.toNat < s.params.maxChars → ¬isHexCode (ibufByte s s.scanI.toNat) →
      ∃ t, microStep s = .next t ∧ t.es = .error ∧ t.errCode = 3 ∧ t.errDetail = ibufByte s s.scanI.toNat ∧
        t.errPosR = s.scanI ∧ t.posR = s.pos ∧ t.vsumR = 0 ∧ t.valueR = 0 ∧ t.valueValid = false ∧
        t.valueOvf = false)

/-- R126: HDR_V reads 3 bits as the version, most significant first, and sums it; fewer than 3 bits raise OUT_OF_BITS with
DETAIL 3. HDR_V is entered from SCAN and from NEXT only. -/
def Obligations.HeaderReadsTheVersion : Prop :=
  (∀ (s : State) (a b c : Bool), s.es = .hdrV → s.pos.toNat + 3 ≤ s.nbits.toNat →
    streamBits s s.pos.toNat 3 = some [a, b, c] →
    ∃ t, microStep s = .next t ∧ t.ver.toNat = 4 * a.toNat + 2 * b.toNat + c.toNat ∧
      t.vacc = s.vacc + t.ver.setWidth 32 ∧
      t = { s with pos := s.pos + 3, ver := t.ver, vacc := t.vacc, es := .hdrT }) ∧
  (∀ s : State, s.es = .hdrV → s.nbits.toNat < s.pos.toNat + 3 →
    ∃ t, microStep s = .next t ∧ errorState t 1 3 s.pos) ∧
  ∀ s t : State, microStep s = .next t → t.es = .hdrV → s.es = .scan ∨ s.es = .next

/-- R127: HDR_T reads 3 bits as the type-id; 4 begins a literal with `acc` 0, any other value an operator; fewer than 3
bits raise OUT_OF_BITS with DETAIL 3. -/
def Obligations.HeaderDispatchesOnTheTypeId : Prop :=
  (∀ (s : State) (a b c : Bool), s.es = .hdrT → s.pos.toNat + 3 ≤ s.nbits.toNat →
    streamBits s s.pos.toNat 3 = some [a, b, c] →
    ∃ t, microStep s = .next t ∧ t.typ.toNat = 4 * a.toNat + 2 * b.toNat + c.toNat ∧
      (t.typ.toNat = 4 → t = { s with pos := s.pos + 3, typ := t.typ, acc := 0, es := .litG }) ∧
      (t.typ.toNat ≠ 4 → t = { s with pos := s.pos + 3, typ := t.typ, es := .opI })) ∧
  ∀ s : State, s.es = .hdrT → s.nbits.toNat < s.pos.toNat + 3 →
    ∃ t, microStep s = .next t ∧ errorState t 1 3 s.pos

/-- R141: LIT_G appends a group's four data bits to `acc` in W bits with the sticky flag; a clear first bit ends the
literal and hands `acc` to `ret`; fewer than 5 bits raise OUT_OF_BITS with DETAIL 5. -/
def Obligations.LiteralGroupAppendsFourBits : Prop :=
  (∀ (s : State) (c a3 a2 a1 a0 : Bool) (exact : Nat), s.es = .litG → s.pos.toNat + 5 ≤ s.nbits.toNat →
    streamBits s s.pos.toNat 5 = some [c, a3, a2, a1, a0] →
    exact = s.acc * 16 + (8 * a3.toNat + 4 * a2.toNat + 2 * a1.toNat + a0.toNat) →
    (c = true → microStep s = .next { s with
      pos := s.pos + 5, acc := exact % 2 ^ s.params.width
      ovf := s.ovf || decide (2 ^ s.params.width ≤ exact) }) ∧
    (c = false → microStep s = .next { s with
      pos := s.pos + 5, acc := exact % 2 ^ s.params.width, ret := exact % 2 ^ s.params.width
      ovf := s.ovf || decide (2 ^ s.params.width ≤ exact), es := .ret })) ∧
  ∀ s : State, s.es = .litG → s.nbits.toNat < s.pos.toNat + 5 →
    ∃ t, microStep s = .next t ∧ errorState t 1 5 s.pos

/-- R151: OP_I reads the length-type-id; R125: with no bit left it raises OUT_OF_BITS with DETAIL 1. -/
def Obligations.LengthTypeIdIsRead : Prop :=
  (∀ (s : State) (b : Bool), s.es = .opI → s.pos.toNat + 1 ≤ s.nbits.toNat → streamBits s s.pos.toNat 1 = some [b] →
    microStep s = .next { s with pos := s.pos + 1, es := if b then .opL1 else .opL0 }) ∧
  ∀ s : State, s.es = .opI → s.nbits.toNat < s.pos.toNat + 1 →
    ∃ t, microStep s = .next t ∧ errorState t 1 1 s.pos

/-- R152, R153, R200: OP_L0 and OP_L1 read L or N and push the operator's frame; short of bits they raise OUT_OF_BITS with
DETAIL 15 or 11, and with a full stack DEPTH_EXCEEDED after the field, the frame stack kept (R154). -/
def Obligations.LengthFieldsOpenTheFrame : Prop :=
  (∀ (s : State) (op : Op) (bits : List Bool), s.es = .opL0 → s.pos.toNat + 15 ≤ s.nbits.toNat →
    streamBits s s.pos.toNat 15 = some bits → s.typ = op.typeId →
    (s.frames.length < s.params.maxDepth → microStep s = .next { s with
      pos := s.pos + 15, es := .next
      frames := { op := op, lt := .l0, lim := s.pos + 15 + BitVec.ofNat 32 (bitsVal bits), n := 0,
                  r := if op = .prod then 1 else 0 } :: s.frames }) ∧
    (s.frames.length = s.params.maxDepth →
      ∃ t, microStep s = .next t ∧ errorState t 4 0 (s.pos + 15) ∧ t.frames = s.frames)) ∧
  (∀ (s : State) (op : Op) (bits : List Bool), s.es = .opL1 → s.pos.toNat + 11 ≤ s.nbits.toNat →
    streamBits s s.pos.toNat 11 = some bits → s.typ = op.typeId →
    (s.frames.length < s.params.maxDepth → microStep s = .next { s with
      pos := s.pos + 11, es := .next
      frames := { op := op, lt := .l1, lim := BitVec.ofNat 32 (bitsVal bits), n := 0,
                  r := if op = .prod then 1 else 0 } :: s.frames }) ∧
    (s.frames.length = s.params.maxDepth →
      ∃ t, microStep s = .next t ∧ errorState t 4 0 (s.pos + 11) ∧ t.frames = s.frames)) ∧
  ∀ (s : State) (n : Nat), (s.es = .opL0 ∧ n = 15) ∨ (s.es = .opL1 ∧ n = 11) → s.nbits.toNat < s.pos.toNat + n →
    ∃ t, microStep s = .next t ∧ errorState t 1 (BitVec.ofNat 8 n) s.pos

/-- R124, R125, R263: in every reading micro-state a read of more bits than remain raises OUT_OF_BITS with the width as
DETAIL at the unadvanced cursor. -/
def Obligations.FailedReadConsumesNothing : Prop :=
  ∀ (s : State) (n : Nat), (s.es, n) ∈ [(Micro.hdrV, 3), (Micro.hdrT, 3), (Micro.litG, 5), (Micro.opI, 1),
      (Micro.opL0, 15), (Micro.opL1, 11)] → s.nbits.toNat < s.pos.toNat + n →
    ∃ t, microStep s = .next t ∧ errorState t 1 (BitVec.ofNat 8 n) s.pos ∧ t.pos = s.pos

/-- R31: an engine step never moves the cursor back, nor past the stream's end, and never changes the stream's
length. -/
def Obligations.CursorOnlyAdvances : Prop :=
  ∀ s t : State, s.pos.toNat ≤ s.nbits.toNat → microStep s = .next t →
    s.pos.toNat ≤ t.pos.toNat ∧ t.pos.toNat ≤ t.nbits.toNat ∧ t.nbits = s.nbits

/-! ### Start, end and errors of a run -/

/-- R120, R241: a CTRL write with bit 0 set, while STATE is not BUSY and LEN fits, clears the results and the run's registers
and enters SCAN in that same event; LEN, IBUF and everything else stay. -/
def Obligations.StartBeginsARun : Prop :=
  ∀ (s : State) (v : Word), ¬busy s → v.getLsbD 0 = true → s.len.toNat ≤ s.params.maxChars →
    hostEvent (.write 0 4 v) s = .next { s with
      errCode := 0, errDetail := 0, errPosR := 0, posR := 0, vsumR := 0, valueR := 0
      valueValid := false, valueOvf := false
      pos := 0, vacc := 0, ovf := false, frames := [], scanI := 0, nbits := 4#32 * s.len, es := .scan }

/-- R121: START with LEN above MAX_CHARS ends at once in ERROR: LEN_RANGE, DETAIL 0, ERR_POS 0 and (R270) POS 0. No IBUF
byte is read: with any other buffer the same happens. -/
def Obligations.StartRejectsLongInput : Prop :=
  ∀ (s : State) (v : Word), ¬busy s → v.getLsbD 0 = true → s.params.maxChars < s.len.toNat →
    ∃ t, hostEvent (.write 0 4 v) s = .next t ∧ errorState t 5 0 0 ∧
      ∀ m, hostEvent (.write 0 4 v) { s with ibuf := m } = .next { t with ibuf := m }

/-- R224: RET with no open frame ends the run: POS and VSUM are latched, and VALUE exactly where `ovf` is clear. -/
def Obligations.FinishLatchesTheResults : Prop :=
  ∀ s : State, s.es = .ret → s.frames = [] →
    (s.ovf = true → microStep s = .next { s with
      posR := s.pos, vsumR := s.vacc, valueR := 0, valueValid := false, valueOvf := true, es := .done }) ∧
    (s.ovf = false → microStep s = .next { s with
      posR := s.pos, vsumR := s.vacc, valueR := s.ret, valueValid := true, valueOvf := false, es := .done })

/-- R269, R270: a micro-step that raises an error writes no other register than those of R270, and clears the results. -/
def Obligations.RaiseWritesOnlyTheErrorRegisters : Prop :=
  ∀ s t : State, microStep s = .next t → s.es ≠ .error → t.es = .error →
    t = withErrorOf t s ∧ t.vsumR = 0 ∧ t.valueR = 0 ∧ t.valueValid = false ∧ t.valueOvf = false ∧
    1 ≤ t.errCode.toNat ∧ t.errCode.toNat ≤ 4

/-- In IDLE, DONE and ERROR an engine event answers the same state: the model's choice, the stutter of log entry 17 (the
spec has no engine step there). R229, R312: in every BUSY micro-state a step changes the state. -/
def Obligations.QuiescentStatesKeepEverything : Prop :=
  ∀ s : State, (¬busy s → microStep s = .next s) ∧ (busy s → microStep s ≠ .next s)

/-- R36: no engine step and no instruction clears the sticky overflow flag. -/
def Obligations.OverflowFlagIsSticky : Prop :=
  (∀ s t : State, s.ovf = true → microStep s = .next t → t.ovf = true) ∧
  (∀ (i : Instr) (s t : State), s.ovf = true → exec i s = .next t → t.ovf = true)

/-- R60, R72, R317: the engine never writes IBUF or LEN, whether by a micro-step or by an instruction. -/
def Obligations.EngineNeverWritesItsInput : Prop :=
  (∀ s t : State, microStep s = .next t → sameInput s t) ∧
  (∀ (i : Instr) (s t : State), exec i s = .next t → sameInput s t)

/-! ### The host -/

/-- R244: while BUSY a write of CTRL, LEN or an IBUF byte is ignored, and no host write changes any state. In every state
a write to a read-only register (R246), of a clear START bit (R22), or to an unmapped offset (R67) is ignored; that a
byte write inside an unmapped word is one of the last is the model's reading, log entry 14. -/
def Obligations.IgnoredHostWrites : Prop :=
  (∀ (s : State) (v : Word), busy s → hostEvent (.write 0 4 v) s = .next s ∧ hostEvent (.write 0x010 4 v) s = .next s ∧
    ∀ i, i < s.params.maxChars → hostEvent (.write (0x1000 + i) 1 v) s = .next s) ∧
  (∀ (s t : State) (off size : Nat) (v : Word), busy s → hostEvent (.write off size v) s = .next t → t = s) ∧
  (∀ (s : State) (v : Word) (off : Nat), off ∈ [0x004, 0x008, 0x00C, 0x014, 0x018] →
    hostEvent (.write off 4 v) s = .next s) ∧
  (∀ (s : State) (v : Word) (j : Nat), j < s.params.width / 32 → hostEvent (.write (0x020 + 4 * j) 4 v) s = .next s) ∧
  (∀ (s : State) (v : Word), v.getLsbD 0 = false → hostEvent (.write 0 4 v) s = .next s) ∧
  (∀ (s : State) (off size : Nat) (v : Word), s.params.legal = true →
    (0x01C ≤ off ∧ off < 0x020) ∨ (0x020 + 4 * (s.params.width / 32) ≤ off ∧ off < 0x1000) ∨
      0x1000 + s.params.maxChars ≤ off →
    size = 1 ∨ (size = 4 ∧ off % 4 = 0) → hostEvent (.write off size v) s = .next s)

/-- R71: a host read has no side effect: it changes nothing but what the host has read (the model's field `reply`, log
entry 6). -/
def Obligations.HostReadsHaveNoSideEffect : Prop :=
  ∀ (s t : State) (off size : Nat), hostEvent (.read off size) s = .next t → t = { s with reply := t.reply }

/-- R242, R22 to R29, R40: what a read of each register returns, in the model's field `reply` (log entry 6). -/
def Obligations.RegisterReads : Prop :=
  ∀ s : State, ∃ ctrl status err errPos len pos vsum : Word,
    hostEvent (.read 0x000 4) s = .next { s with reply := ctrl } ∧ ctrl = 0 ∧
    hostEvent (.read 0x004 4) s = .next { s with reply := status } ∧
    status.toNat = s.es.stateCode.toNat + 4 * s.valueValid.toNat + 8 * s.valueOvf.toNat ∧
    hostEvent (.read 0x008 4) s = .next { s with reply := err } ∧
    err.toNat = s.errCode.toNat + 256 * s.errDetail.toNat ∧
    hostEvent (.read 0x00C 4) s = .next { s with reply := errPos } ∧ errPos = s.errPosR ∧
    hostEvent (.read 0x010 4) s = .next { s with reply := len } ∧ len = s.len ∧
    hostEvent (.read 0x014 4) s = .next { s with reply := pos } ∧ pos = s.posR ∧
    hostEvent (.read 0x018 4) s = .next { s with reply := vsum } ∧ vsum = s.vsumR ∧
    ∀ j, j < s.params.width / 32 → ∃ value : Word,
      hostEvent (.read (0x020 + 4 * j) 4) s = .next { s with reply := value } ∧
      value.toNat = s.valueR / 2 ^ (32 * j) % 2 ^ 32

/-- R67, R240: an access to an unmapped offset, aligned to its size, reads 0 and writes nothing; that a byte access inside
an unmapped word is one is the model's reading, log entry 14. The answer stands in the model's field `reply` (log entry
6). -/
def Obligations.UnmappedOffsetsReadZero : Prop :=
  ∀ (s : State) (off size : Nat) (v : Word), s.params.legal = true →
    (0x01C ≤ off ∧ off < 0x020) ∨ (0x020 + 4 * (s.params.width / 32) ≤ off ∧ off < 0x1000) ∨
      0x1000 + s.params.maxChars ≤ off →
    size = 1 ∨ (size = 4 ∧ off % 4 = 0) →
    hostEvent (.read off size) s = .next { s with reply := 0 } ∧ hostEvent (.write off size v) s = .next s

/-- R68: a word access off its alignment, a byte access to a register and a word access to IBUF are refused; R240: so is
an access of a size other than 4 or 1, at every offset. That the four offsets of a register's word are the register's,
so that a byte access at any of them is refused, is the model's reading, log entry 14. -/
def Obligations.OtherAccessesAreRefused : Prop :=
  ∀ (s : State) (off size : Nat) (v : Word), s.params.legal = true → refusedAccess s.params off size →
    hostEvent (.read off size) s = .refused (.hostAccess off size) ∧
    hostEvent (.write off size v) s = .refused (.hostAccess off size)

/-- R245: LEN stores every 32-bit value unless a run is BUSY, and nothing else changes. -/
def Obligations.LenWriteStores : Prop :=
  ∀ (s : State) (v : Word),
    (¬busy s → hostEvent (.write 0x010 4 v) s = .next { s with len := v }) ∧
    (busy s → hostEvent (.write 0x010 4 v) s = .next s)

/-- R243: an IBUF byte write, unless a run is BUSY, stores its byte and no other, keeps IBUF's canonical form, and changes
nothing else; an IBUF byte read returns the entry in every state, in the model's field `reply` (log entry 6). -/
def Obligations.IbufWriteReadsBack : Prop :=
  (∀ (s : State) (i : Nat) (v : Word), ¬busy s → i < s.params.maxChars →
    ∃ m, hostEvent (.write (0x1000 + i) 1 v) s = .next { s with ibuf := m } ∧
      ibufByte { s with ibuf := m } i = v.setWidth 8 ∧
      (∀ j, j ≠ i → ibufByte { s with ibuf := m } j = ibufByte s j) ∧
      (Memory.wf s.ibuf = true → Memory.wf m = true)) ∧
  (∀ (s : State) (i : Nat), i < s.params.maxChars →
    hostEvent (.read (0x1000 + i) 1) s = .next { s with reply := (ibufByte s i).setWidth 32 })

/-! ### Reset -/

/-- R50: what reset leaves in the host-visible registers and in `es`. That IBUF lists nothing is the model's form of
unwritten entries (log entry 2), and that reset holds the parameters, as data of the state at R8's defaults 64, 4096 and
1024, is the model's choice (log entry 8). -/
def Obligations.ResetState : Prop :=
  State.reset.es = .idle ∧ State.reset.len = 0 ∧ State.reset.errCode = 0 ∧ State.reset.errDetail = 0 ∧
  State.reset.errPosR = 0 ∧ State.reset.posR = 0 ∧ State.reset.vsumR = 0 ∧ State.reset.valueR = 0 ∧
  State.reset.valueValid = false ∧ State.reset.valueOvf = false ∧ State.reset.ibuf = [] ∧
  State.reset.params.width = 64 ∧ State.reset.params.maxChars = 4096 ∧ State.reset.params.maxDepth = 1024 ∧
  State.reset.params.legal = true

/-- R300, R301: a hardware reset in any state, BUSY among them, leaves STATE = IDLE, every host register 0 and IBUF unlisted;
the parameters and the remaining schedule stay (log entry 13), and IBUF's free draw is a new one (log entry 2). -/
def Obligations.HardResetFromAnyState : Prop :=
  ∀ (s : State) (es : List Event), s.schedule = .reset :: es → ∃ t, step s = .next t ∧
    t.es = .idle ∧ t.len = 0 ∧ t.errCode = 0 ∧ t.errDetail = 0 ∧ t.errPosR = 0 ∧ t.posR = 0 ∧ t.vsumR = 0 ∧
    t.valueR = 0 ∧ t.valueValid = false ∧ t.valueOvf = false ∧ t.ibuf = [] ∧ t.params = s.params ∧
    t.schedule = es ∧ t.draw = s.draw + 1

/-! ### Whole-machine statements -/

/-- The invariant holds right after reset (the internal registers' zeros are the model's choice, log entry 3). -/
def Obligations.ResetIsConsistent : Prop := Consistent State.reset

/-- Every step, whoever moves, keeps the invariant. -/
def Obligations.StepKeepsConsistency : Prop :=
  ∀ s t : State, Consistent s → step s = .next t → Consistent t

/-- A machine in a consistent state never faults: it goes on, or the next event is a host access that R68 or R240 refuses
(the list of OtherAccessesAreRefused; log entry 14), and it refuses exactly that access; any other access goes on. -/
def Obligations.ConsistentMachineNeverFaults : Prop :=
  ∀ s : State, Consistent s →
    ((∃ t, step s = .next t) ∧ ∀ off size, accessDue s off size → ¬refusedAccess s.params off size) ∨
    ∃ off size, accessDue s off size ∧ refusedAccess s.params off size ∧ step s = .refused (.hostAccess off size)

/-- R242, R313: while BUSY every result register reads 0 and STATUS reads 1, in the model's field `reply` (log entry 6). -/
def Obligations.ResultsReadZeroWhileBusy : Prop :=
  ∀ s : State, Consistent s → busy s →
    hostEvent (.read 0x004 4) s = .next { s with reply := 1 } ∧
    (∀ off, off ∈ [0x008, 0x00C, 0x014, 0x018] → hostEvent (.read off 4) s = .next { s with reply := 0 }) ∧
    ∀ j, j < s.params.width / 32 → hostEvent (.read (0x020 + 4 * j) 4) s = .next { s with reply := 0 }

/-- R154: a run over nbits bits never raises DEPTH_EXCEEDED where MAX_DEPTH is at least floor(nbits / 18). -/
def Obligations.DepthErrorNeedsDeepStream : Prop :=
  ∀ s t : State, Consistent s → busy s → s.nbits.toNat / 18 ≤ s.params.maxDepth → microStep s = .next t → t.errCode ≠ 4

/-- R212: no value steers the engine: two states that differ only in W, in values and in the value flags take the same
step, raise the same error, and again differ only there. -/
def Obligations.ValuesNeverSteerTheEngine : Prop :=
  ∀ s t s' : State, sameButValues s t → microStep s = .next s' → ∃ t', microStep t = .next t' ∧ sameButValues s' t'

/-- R229, R322: every run ends: from START with an input that fits, DONE or ERROR comes within 17 * LEN + 2 engine
steps. -/
def Obligations.EveryRunEnds : Prop :=
  ∀ s : State, Consistent s → ¬busy s → s.len.toNat ≤ s.params.maxChars →
    ∃ n t, n ≤ 17 * s.len.toNat + 2 ∧ engineRun n (startRun s) = .next t ∧ (t.es = .done ∨ t.es = .error)

/-- R228, R227, R229: the engine is the reference decoder. Over hex characters only, with an input that fits, a run ends in
DONE exactly where the reference parse gives a tree, after exactly R229's steps, with that tree's bits in POS, its version
sum in VSUM and its value in VALUE unless R227 makes it overflow; else it ends in ERROR with the code of the reference's
failure. -/
def Obligations.EngineMatchesReference : Prop :=
  ∀ (s : State) (bits : List Bool), s.params.legal = true → ¬busy s → s.len.toNat ≤ s.params.maxChars →
    streamBits s 0 (4 * s.len.toNat) = some bits →
    match referenceDecode s.params.maxDepth bits with
    | .ok (p, rest) =>
      (∃ t, engineRun (s.len.toNat + 1 + packetSteps p) (startRun s) = .next t ∧ t.params = s.params ∧
        doneAs t bits rest p) ∧
      ∀ m u, m < s.len.toNat + 1 + packetSteps p → engineRun m (startRun s) = .next u → busy u
    | .error e => ∃ n t c, engineRun n (startRun s) = .next t ∧ t.es = .error ∧ parseCode e = some c ∧ t.errCode = c
end

