-- ==== Sys2Proof/Laws/Bits.lean ====
section
/-! SUPPORT. Lemmas about bit lists, fields, groups and packet lengths. -/

namespace Sys2Proof.Laws

open Sys2Proof

@[simp] theorem bitsVal_nil : bitsVal [] = 0 := rfl

theorem foldl_bits (bits : List Bool) (a : Nat) :
    bits.foldl (fun v b => 2 * v + b.toNat) a = a * 2 ^ bits.length + bitsVal bits := by
  induction bits generalizing a with
  | nil => simp
  | cons b bs ih =>
    rw [bitsVal, List.foldl_cons, List.foldl_cons, ih, ih (2 * 0 + b.toNat), List.length_cons, Nat.pow_succ]
    ring

theorem bitsVal_cons (b : Bool) (bs : List Bool) : bitsVal (b :: bs) = b.toNat * 2 ^ bs.length + bitsVal bs := by
  rw [bitsVal, List.foldl_cons, foldl_bits]
  simp

theorem bitsVal_append (as bs : List Bool) : bitsVal (as ++ bs) = bitsVal as * 2 ^ bs.length + bitsVal bs := by
  rw [bitsVal, List.foldl_append, foldl_bits]
  rfl

theorem bitsVal_lt (bs : List Bool) : bitsVal bs < 2 ^ bs.length := by
  induction bs with
  | nil => simp
  | cons b bs ih =>
    rw [bitsVal_cons, List.length_cons, Nat.pow_succ]
    cases b <;> simp <;> omega

@[simp] theorem bitsOf_length {n : Nat} (v : BitVec n) : (bitsOf v).length = n := by simp [bitsOf]

theorem bitsVal_range (v n k : Nat) :
    bitsVal ((List.range k).map fun j => v.testBit (n - 1 - j)) = v / 2 ^ (n - k) % 2 ^ k ∨ n < k := by
  by_cases hk : n < k
  · exact .inr hk
  left
  induction k with
  | zero => simp [Nat.mod_one]
  | succ k ih =>
    have ih := ih (by omega)
    rw [List.range_succ, List.map_append, bitsVal_append, ih]
    have e : n - k = (n - (k + 1)) + 1 := by omega
    have hb : bitsVal (List.map (fun j => v.testBit (n - 1 - j)) [k]) = v / 2 ^ (n - (k + 1)) % 2 := by
      have : n - 1 - k = n - (k + 1) := by omega
      simp [bitsVal, Nat.testBit, Nat.shiftRight_eq_div_pow, this]
      rcases Nat.mod_two_eq_zero_or_one (v / 2 ^ (n - (k + 1))) with h | h <;> simp [h]
    rw [hb, e, Nat.pow_succ, ← Nat.div_div_eq_div_mul, List.length_map, List.length_singleton]
    generalize v / 2 ^ (n - (k + 1)) = q
    rw [show 2 ^ (k + 1) = 2 * 2 ^ k by ring, Nat.mod_mul]
    omega

/-- A field's bits read back as its value (R11). -/
@[simp] theorem bitsVal_bitsOf {n : Nat} (v : BitVec n) : bitsVal (bitsOf v) = v.toNat := by
  have h : bitsOf v = (List.range n).map fun j => v.toNat.testBit (n - 1 - j) := by
    refine List.map_congr_left fun j hj => ?_
    rw [List.mem_range] at hj
    simp [BitVec.getMsbD, BitVec.getLsbD, hj]
  rcases bitsVal_range v.toNat n n with e | e
  · rw [h, e]; simp [Nat.mod_eq_of_lt v.isLt]
  · omega

@[simp] theorem ofNat_bitsVal_bitsOf {n : Nat} (v : BitVec n) : BitVec.ofNat n (bitsVal (bitsOf v)) = v := by simp

theorem bitsVal_inj : ∀ {as bs : List Bool}, as.length = bs.length → bitsVal as = bitsVal bs → as = bs
  | [], [], _, _ => rfl
  | a :: as, b :: bs, hl, hv => by
    simp only [List.length_cons, Nat.add_right_cancel_iff] at hl
    rw [bitsVal_cons, bitsVal_cons, hl] at hv
    have h1 := bitsVal_lt as
    have h2 := bitsVal_lt bs
    rw [hl] at h1
    cases a <;> cases b <;> simp at hv <;> first | omega | (rw [bitsVal_inj hl hv])

/-- n bits are the field that their value is. -/
theorem bitsOf_ofNat_bitsVal {n : Nat} {bs : List Bool} (h : bs.length = n) :
    bitsOf (BitVec.ofNat n (bitsVal bs)) = bs := by
  refine bitsVal_inj (by simp [h]) ?_
  have := bitsVal_lt bs
  rw [h] at this
  simp [Nat.mod_eq_of_lt this]

/-- A field at the head of a bit string is taken whole. -/
@[simp] theorem takeField_bitsOf {n : Nat} (v : BitVec n) (rest : List Bool) :
    takeField n (bitsOf v ++ rest) = some (v, rest) := by
  simp [takeField]

/-- What takeField answers: the field's bits and those after it. -/
theorem takeField_eq_some {n : Nat} {bits rest : List Bool} {v : BitVec n} :
    takeField n bits = some (v, rest) ↔ bits = bitsOf v ++ rest := by
  constructor
  · intro h
    unfold takeField at h
    split at h
    · cases h
    · rename_i hl
      cases h
      rw [bitsOf_ofNat_bitsVal (by simp; omega), List.take_append_drop]
  · rintro rfl
    simp

theorem takeField_eq_none {n : Nat} {bits : List Bool} : takeField n bits = none ↔ bits.length < n := by
  unfold takeField
  split <;> simp_all

theorem takeField_append {n : Nat} {bits rest more : List Bool} {v : BitVec n} (h : takeField n bits = some (v, rest)) :
    takeField n (bits ++ more) = some (v, rest ++ more) := by
  rw [takeField_eq_some] at h ⊢
  simp [h]

/-- The groups of a literal come back from their bits (R93). -/
theorem decodeGroups_encodeGroups : ∀ (ds : List (BitVec 4)) (rest : List Bool), ds ≠ [] →
    decodeGroups (encodeGroups ds ++ rest) = .ok (ds, rest)
  | [], _, h => absurd rfl h
  | [d], rest, _ => by
    obtain ⟨b3, b2, b1, b0, hd⟩ : ∃ b3 b2 b1 b0, bitsOf d = [b3, b2, b1, b0] := ⟨_, _, _, _, rfl⟩
    have hv : BitVec.ofNat 4 (bitsVal [b3, b2, b1, b0]) = d := by rw [← hd]; simp
    simp [encodeGroups, hd, decodeGroups, hv]
  | d :: e :: ds, rest, _ => by
    obtain ⟨b3, b2, b1, b0, hd⟩ : ∃ b3 b2 b1 b0, bitsOf d = [b3, b2, b1, b0] := ⟨_, _, _, _, rfl⟩
    have hv : BitVec.ofNat 4 (bitsVal [b3, b2, b1, b0]) = d := by rw [← hd]; simp
    have ih := decodeGroups_encodeGroups (e :: ds) rest (by simp)
    simp [encodeGroups, hd, decodeGroups, hv] at ih ⊢
    rw [ih]

/-- What decodeGroups answers: at least one group, whose bits stand at the head (R102). -/
theorem decodeGroups_ok : ∀ {bits rest : List Bool} {ds : List (BitVec 4)}, decodeGroups bits = .ok (ds, rest) →
    ds ≠ [] ∧ bits = encodeGroups ds ++ rest
  | [], _, _, h => by simp [decodeGroups] at h
  | [_], _, _, h => by simp [decodeGroups] at h
  | [_, _], _, _, h => by simp [decodeGroups] at h
  | [_, _, _], _, _, h => by simp [decodeGroups] at h
  | [_, _, _, _], _, _, h => by simp [decodeGroups] at h
  | c :: b3 :: b2 :: b1 :: b0 :: bits, rest, ds, h => by
    have hb : bitsOf (BitVec.ofNat 4 (bitsVal [b3, b2, b1, b0])) = [b3, b2, b1, b0] := bitsOf_ofNat_bitsVal rfl
    simp only [decodeGroups] at h
    cases c with
    | false =>
      simp at h
      obtain ⟨rfl, rfl⟩ := h
      exact ⟨by simp, by simp [encodeGroups, hb]⟩
    | true =>
      simp only [if_true] at h
      split at h
      · rename_i ds' rest' heq
        cases h
        obtain ⟨hne, rfl⟩ := decodeGroups_ok heq
        refine ⟨by simp, ?_⟩
        cases ds' with
        | nil => exact absurd rfl hne
        | cons e es => simp [encodeGroups, hb]
      · cases h

theorem decodeGroups_append : ∀ {bits rest : List Bool} {ds : List (BitVec 4)} (more : List Bool),
    decodeGroups bits = .ok (ds, rest) → decodeGroups (bits ++ more) = .ok (ds, rest ++ more) := by
  intro bits rest ds more h
  obtain ⟨hne, rfl⟩ := decodeGroups_ok h
  rw [List.append_assoc, decodeGroups_encodeGroups _ _ hne]

@[simp] theorem encodeHeader_length (v t : BitVec 3) : (encodeHeader v t).length = 6 := by simp [encodeHeader]

theorem encodeGroups_length : ∀ ds : List (BitVec 4), (encodeGroups ds).length = 5 * ds.length
  | [] => rfl
  | [d] => by simp [encodeGroups]
  | d :: e :: ds => by
    have := encodeGroups_length (e :: ds)
    simp [encodeGroups] at this ⊢
    omega

@[simp] theorem encodeB_length (t v : BitVec 3) (len : BitVec 15) : (encodeB t v len).length = 22 := by simp [encodeB]

@[simp] theorem encodeN_length (t v : BitVec 3) (cnt : BitVec 11) : (encodeN t v cnt).length = 18 := by simp [encodeN]

end Sys2Proof.Laws
end

