-- ==== Sys2Proof/Laws/Memory.lean ====
section
/-! SUPPORT. Lemmas about the input buffer and the bit sequence over it. -/

namespace Sys2Proof.Laws

open Sys2Proof Sys2Proof.Machine

/-! ### Memory -/

@[simp] theorem lookup_write_same (m : Memory) (i : Nat) (b : Byte) :
    Memory.lookup (Memory.write m i b) i = some b := by
  induction m with
  | nil => simp [Memory.write, Memory.lookup]
  | cons c m ih =>
    simp only [Memory.write]
    split
    · simp [Memory.lookup]
    · split
      · simp [Memory.lookup]
      · rename_i h1 h2
        simp [Memory.lookup, ih, h2]

theorem lookup_write_other (m : Memory) {i j : Nat} (b : Byte) (h : j ≠ i) :
    Memory.lookup (Memory.write m i b) j = Memory.lookup m j := by
  induction m with
  | nil => simp [Memory.write, Memory.lookup, h]
  | cons c m ih =>
    simp only [Memory.write]
    split
    · simp [Memory.lookup, h]
    · split
      · rename_i h1 h2
        subst h2
        simp [Memory.lookup, h]
      · simp [Memory.lookup, ih]

/-- In canonical form the head's index is below every other listed index. -/
theorem wf_cons {c : Host.Cell} {m : Memory} :
    Memory.wf (c :: m) = true ↔ (∀ d, d ∈ m → c.1 < d.1) ∧ Memory.wf m = true := by
  induction m generalizing c with
  | nil => simp [Memory.wf]
  | cons d m ih =>
    simp only [Memory.wf, Bool.and_eq_true, decide_eq_true_eq, List.mem_cons, forall_eq_or_imp]
    constructor
    · rintro ⟨h, hw⟩
      exact ⟨⟨h, fun e he => lt_trans h ((ih.1 hw).1 e he)⟩, hw⟩
    · rintro ⟨⟨h, _⟩, hw⟩
      exact ⟨h, hw⟩

theorem mem_write {m : Memory} {i : Nat} {b : Byte} {c : Host.Cell} (h : c ∈ Memory.write m i b) :
    c = (i, b) ∨ c ∈ m := by
  induction m with
  | nil => simpa [Memory.write] using h
  | cons d m ih =>
    simp only [Memory.write] at h
    split at h
    · simpa using h
    · split at h
      · simp only [List.mem_cons] at h ⊢
        tauto
      · simp only [List.mem_cons] at h ⊢
        rcases h with h | h
        · exact .inr (.inl h)
        · rcases ih h with h | h <;> tauto

/-- A write keeps the canonical form. -/
theorem wf_write {m : Memory} (i : Nat) (b : Byte) (h : Memory.wf m = true) : Memory.wf (Memory.write m i b) = true := by
  induction m with
  | nil => rfl
  | cons c m ih =>
    obtain ⟨hc, hm⟩ := wf_cons.1 h
    simp only [Memory.write]
    split
    · rename_i hi
      exact wf_cons.2 ⟨by
        intro d hd
        rcases List.mem_cons.1 hd with rfl | hd
        · exact hi
        · exact lt_trans hi (hc d hd), h⟩
    · split
      · rename_i h1 h2
        subst h2
        exact wf_cons.2 ⟨hc, hm⟩
      · rename_i h1 h2
        refine wf_cons.2 ⟨fun d hd => ?_, ih hm⟩
        rcases mem_write hd with rfl | hd
        · simp only; omega
        · exact hc d hd

theorem wf_writeAll : ∀ (bs : List Byte) (i : Nat) {m : Memory}, Memory.wf m = true → Memory.wf (writeAll i bs m) = true
  | [], _, _, h => h
  | b :: bs, i, _, h => wf_writeAll bs (i + 1) (wf_write i b h)

@[simp] theorem wf_reset : Memory.wf State.reset.ibuf = true := rfl

/-! ### The bit sequence -/

theorem ibufByte_congr {s t : State} (hm : t.ibuf = s.ibuf) (hd : t.draw = s.draw) (i : Nat) :
    ibufByte t i = ibufByte s i := by simp [ibufByte, hm, hd]

theorem ibufAt_congr {s t : State} (hp : t.params = s.params) (hm : t.ibuf = s.ibuf) (hd : t.draw = s.draw) (i : Nat) :
    ibufAt t i = ibufAt s i := by simp [ibufAt, ibufByte_congr hm hd, hp]

theorem streamBit_congr {s t : State} (hp : t.params = s.params) (hm : t.ibuf = s.ibuf) (hd : t.draw = s.draw)
    (k : Nat) : streamBit t k = streamBit s k := by simp [streamBit, ibufAt_congr hp hm hd]

/-- The bit sequence depends on the input buffer alone. -/
theorem streamBits_congr {s t : State} (hp : t.params = s.params) (hm : t.ibuf = s.ibuf) (hd : t.draw = s.draw)
    (a n : Nat) : streamBits t a n = streamBits s a n := by
  induction n generalizing a with
  | zero => rfl
  | succ n ih => simp [streamBits, streamBit_congr hp hm hd, ih]

theorem streamBits_length {s : State} {a n : Nat} {bs : List Bool} (h : streamBits s a n = some bs) :
    bs.length = n := by
  induction n generalizing a bs with
  | zero => simp [streamBits] at h; simp [← h]
  | succ n ih =>
    simp only [streamBits] at h
    split at h
    · rename_i b bs' hb hbs
      cases h
      simp [ih hbs]
    · cases h

/-- A read of n + m bits is the read of n bits and the read of the m after them. -/
theorem streamBits_add {s : State} {a n m : Nat} {cs : List Bool} :
    streamBits s a (n + m) = some cs ↔
      ∃ as bs, streamBits s a n = some as ∧ streamBits s (a + n) m = some bs ∧ cs = as ++ bs := by
  induction n generalizing a cs with
  | zero => simp [streamBits]
  | succ n ih =>
    have e : n + 1 + m = (n + m) + 1 := by omega
    rw [e]
    constructor
    · intro h
      simp only [streamBits] at h
      split at h
      · rename_i b bs' hb hbs
        cases h
        obtain ⟨as, bs, h1, h2, rfl⟩ := ih.1 hbs
        refine ⟨b :: as, bs, by simp [streamBits, hb, h1], ?_, rfl⟩
        rw [← h2]
        congr 1
        omega
      · cases h
    · rintro ⟨as, bs, h1, h2, rfl⟩
      simp only [streamBits] at h1
      split at h1
      · rename_i b as' hb has
        cases h1
        have h2' : streamBits s (a + 1 + n) m = some bs := by
          rw [← h2]
          congr 1
          omega
        have := ih.2 ⟨as', bs, has, h2', rfl⟩
        simp [streamBits, hb, this]
      · cases h1

/-- MemRead of a field whose bits stand in the stream gives the field (R63). -/
theorem memRead_bitsOf {s : State} {a n : Nat} {v : BitVec n} (h : streamBits s a n = some (bitsOf v)) :
    memRead s a n = some v := by simp [memRead, h]

/-- What MemRead answers: the field whose bits stand in the stream (R63). -/
theorem memRead_eq_some {s : State} {a n : Nat} {v : BitVec n} :
    memRead s a n = some v ↔ streamBits s a n = some (bitsOf v) := by
  constructor
  · intro h
    simp only [memRead, Option.map_eq_some_iff] at h
    obtain ⟨bs, hbs, rfl⟩ := h
    rw [hbs, bitsOf_ofNat_bitsVal (streamBits_length hbs)]
  · exact memRead_bitsOf

/-- Every stream bit of valid characters is defined (R61). -/
theorem streamBits_defined {s : State} {a n : Nat}
    (h : ∀ i, i < (a + n + 3) / 4 → i < s.params.maxChars ∧ ∃ d, hexval (ibufByte s i) = some d) :
    ∃ bs, streamBits s a n = some bs := by
  induction n generalizing a with
  | zero => exact ⟨[], rfl⟩
  | succ n ih =>
    obtain ⟨bs, hbs⟩ := ih (a := a + 1) fun i hi => h i (by omega)
    obtain ⟨hc, d, hd⟩ := h (a / 4) (by omega)
    refine ⟨d.getLsbD (3 - a % 4) :: bs, ?_⟩
    simp [streamBits, streamBit, ibufAt, hc, hd, hbs]

/-- A read that is defined reads valid characters only. -/
theorem hexval_of_streamBits {s : State} {a n : Nat} {bs : List Bool} (h : streamBits s a n = some bs) {k : Nat}
    (h1 : a ≤ k) (h2 : k < a + n) : k / 4 < s.params.maxChars ∧ ∃ d, hexval (ibufByte s (k / 4)) = some d := by
  induction n generalizing a bs with
  | zero => omega
  | succ n ih =>
    simp only [streamBits] at h
    split at h
    · rename_i b bs' hb hbs
      cases h
      rcases Nat.eq_or_lt_of_le h1 with rfl | h1
      · unfold streamBit at hb
        split at hb
        · cases hb
        · rename_i c hc
          split at hb
          · cases hb
          · rename_i d hd
            unfold ibufAt at hc
            split at hc
            · cases hc
              exact ⟨by assumption, d, hd⟩
            · cases hc
      · exact ih hbs (by omega) (by omega)
    · cases h

theorem hexval_hexChar {d : Nat} (h : d < 16) : hexval (hexChar d) = some (BitVec.ofNat 4 d) := by
  revert h; revert d; decide

end Sys2Proof.Laws
end

