-- ==== Sys2Proof/Laws/State.lean ====
section
/-! SUPPORT. One lemma per field per update of State, each true by unfolding the update once. -/

namespace Sys2Proof.Laws

open Sys2Proof Sys2Proof.Machine

/-! ### raiseError -/

@[simp] theorem raiseError_params (e : ErrKind) (d : Byte) (p : Word) (s : State) : (raiseError e d p s).params = s.params := rfl
@[simp] theorem raiseError_len (e : ErrKind) (d : Byte) (p : Word) (s : State) : (raiseError e d p s).len = s.len := rfl
@[simp] theorem raiseError_ibuf (e : ErrKind) (d : Byte) (p : Word) (s : State) : (raiseError e d p s).ibuf = s.ibuf := rfl
@[simp] theorem raiseError_errCode (e : ErrKind) (d : Byte) (p : Word) (s : State) : (raiseError e d p s).errCode = e.code := rfl
@[simp] theorem raiseError_errDetail (e : ErrKind) (d : Byte) (p : Word) (s : State) : (raiseError e d p s).errDetail = d := rfl
@[simp] theorem raiseError_posR (e : ErrKind) (d : Byte) (p : Word) (s : State) : (raiseError e d p s).posR = p := rfl
@[simp] theorem raiseError_vsumR (e : ErrKind) (d : Byte) (p : Word) (s : State) : (raiseError e d p s).vsumR = 0 := rfl
@[simp] theorem raiseError_valueR (e : ErrKind) (d : Byte) (p : Word) (s : State) : (raiseError e d p s).valueR = 0 := rfl
@[simp] theorem raiseError_valueValid (e : ErrKind) (d : Byte) (p : Word) (s : State) : (raiseError e d p s).valueValid = false := rfl
@[simp] theorem raiseError_valueOvf (e : ErrKind) (d : Byte) (p : Word) (s : State) : (raiseError e d p s).valueOvf = false := rfl
@[simp] theorem raiseError_es (e : ErrKind) (d : Byte) (p : Word) (s : State) : (raiseError e d p s).es = .error := rfl
@[simp] theorem raiseError_scanI (e : ErrKind) (d : Byte) (p : Word) (s : State) : (raiseError e d p s).scanI = s.scanI := rfl
@[simp] theorem raiseError_nbits (e : ErrKind) (d : Byte) (p : Word) (s : State) : (raiseError e d p s).nbits = s.nbits := rfl
@[simp] theorem raiseError_pos (e : ErrKind) (d : Byte) (p : Word) (s : State) : (raiseError e d p s).pos = s.pos := rfl
@[simp] theorem raiseError_ver (e : ErrKind) (d : Byte) (p : Word) (s : State) : (raiseError e d p s).ver = s.ver := rfl
@[simp] theorem raiseError_typ (e : ErrKind) (d : Byte) (p : Word) (s : State) : (raiseError e d p s).typ = s.typ := rfl
@[simp] theorem raiseError_acc (e : ErrKind) (d : Byte) (p : Word) (s : State) : (raiseError e d p s).acc = s.acc := rfl
@[simp] theorem raiseError_ret (e : ErrKind) (d : Byte) (p : Word) (s : State) : (raiseError e d p s).ret = s.ret := rfl
@[simp] theorem raiseError_vacc (e : ErrKind) (d : Byte) (p : Word) (s : State) : (raiseError e d p s).vacc = s.vacc := rfl
@[simp] theorem raiseError_ovf (e : ErrKind) (d : Byte) (p : Word) (s : State) : (raiseError e d p s).ovf = s.ovf := rfl
@[simp] theorem raiseError_frames (e : ErrKind) (d : Byte) (p : Word) (s : State) : (raiseError e d p s).frames = s.frames := rfl
@[simp] theorem raiseError_schedule (e : ErrKind) (d : Byte) (p : Word) (s : State) : (raiseError e d p s).schedule = s.schedule := rfl
@[simp] theorem raiseError_reply (e : ErrKind) (d : Byte) (p : Word) (s : State) : (raiseError e d p s).reply = s.reply := rfl
@[simp] theorem raiseError_draw (e : ErrKind) (d : Byte) (p : Word) (s : State) : (raiseError e d p s).draw = s.draw := rfl
@[simp] theorem raiseError_errPosR_outOfBits (d : Byte) (p : Word) (s : State) :
    (raiseError .outOfBits d p s).errPosR = p := rfl
@[simp] theorem raiseError_errPosR_malformedPacket (d : Byte) (p : Word) (s : State) :
    (raiseError .malformedPacket d p s).errPosR = p := rfl
@[simp] theorem raiseError_errPosR_invalidHex (d : Byte) (p : Word) (s : State) :
    (raiseError .invalidHex d p s).errPosR = s.scanI := rfl
@[simp] theorem raiseError_errPosR_depthExceeded (d : Byte) (p : Word) (s : State) :
    (raiseError .depthExceeded d p s).errPosR = p := rfl
@[simp] theorem raiseError_errPosR_lenRange (d : Byte) (p : Word) (s : State) :
    (raiseError .lenRange d p s).errPosR = 0 := rfl

/-! ### raiseShort -/

@[simp] theorem raiseShort_params (n : Nat) (s : State) : (raiseShort n s).params = s.params := rfl
@[simp] theorem raiseShort_len (n : Nat) (s : State) : (raiseShort n s).len = s.len := rfl
@[simp] theorem raiseShort_ibuf (n : Nat) (s : State) : (raiseShort n s).ibuf = s.ibuf := rfl
@[simp] theorem raiseShort_errCode (n : Nat) (s : State) : (raiseShort n s).errCode = 1 := rfl
@[simp] theorem raiseShort_errDetail (n : Nat) (s : State) : (raiseShort n s).errDetail = BitVec.ofNat 8 n := rfl
@[simp] theorem raiseShort_errPosR (n : Nat) (s : State) : (raiseShort n s).errPosR = s.pos := rfl
@[simp] theorem raiseShort_posR (n : Nat) (s : State) : (raiseShort n s).posR = s.pos := rfl
@[simp] theorem raiseShort_vsumR (n : Nat) (s : State) : (raiseShort n s).vsumR = 0 := rfl
@[simp] theorem raiseShort_valueR (n : Nat) (s : State) : (raiseShort n s).valueR = 0 := rfl
@[simp] theorem raiseShort_valueValid (n : Nat) (s : State) : (raiseShort n s).valueValid = false := rfl
@[simp] theorem raiseShort_valueOvf (n : Nat) (s : State) : (raiseShort n s).valueOvf = false := rfl
@[simp] theorem raiseShort_es (n : Nat) (s : State) : (raiseShort n s).es = .error := rfl
@[simp] theorem raiseShort_scanI (n : Nat) (s : State) : (raiseShort n s).scanI = s.scanI := rfl
@[simp] theorem raiseShort_nbits (n : Nat) (s : State) : (raiseShort n s).nbits = s.nbits := rfl
@[simp] theorem raiseShort_pos (n : Nat) (s : State) : (raiseShort n s).pos = s.pos := rfl
@[simp] theorem raiseShort_ver (n : Nat) (s : State) : (raiseShort n s).ver = s.ver := rfl
@[simp] theorem raiseShort_typ (n : Nat) (s : State) : (raiseShort n s).typ = s.typ := rfl
@[simp] theorem raiseShort_acc (n : Nat) (s : State) : (raiseShort n s).acc = s.acc := rfl
@[simp] theorem raiseShort_ret (n : Nat) (s : State) : (raiseShort n s).ret = s.ret := rfl
@[simp] theorem raiseShort_vacc (n : Nat) (s : State) : (raiseShort n s).vacc = s.vacc := rfl
@[simp] theorem raiseShort_ovf (n : Nat) (s : State) : (raiseShort n s).ovf = s.ovf := rfl
@[simp] theorem raiseShort_frames (n : Nat) (s : State) : (raiseShort n s).frames = s.frames := rfl
@[simp] theorem raiseShort_schedule (n : Nat) (s : State) : (raiseShort n s).schedule = s.schedule := rfl
@[simp] theorem raiseShort_reply (n : Nat) (s : State) : (raiseShort n s).reply = s.reply := rfl
@[simp] theorem raiseShort_draw (n : Nat) (s : State) : (raiseShort n s).draw = s.draw := rfl

/-! ### clearRun -/

@[simp] theorem clearRun_params (s : State) : (clearRun s).params = s.params := rfl
@[simp] theorem clearRun_len (s : State) : (clearRun s).len = s.len := rfl
@[simp] theorem clearRun_ibuf (s : State) : (clearRun s).ibuf = s.ibuf := rfl
@[simp] theorem clearRun_errCode (s : State) : (clearRun s).errCode = 0 := rfl
@[simp] theorem clearRun_errDetail (s : State) : (clearRun s).errDetail = 0 := rfl
@[simp] theorem clearRun_errPosR (s : State) : (clearRun s).errPosR = 0 := rfl
@[simp] theorem clearRun_posR (s : State) : (clearRun s).posR = 0 := rfl
@[simp] theorem clearRun_vsumR (s : State) : (clearRun s).vsumR = 0 := rfl
@[simp] theorem clearRun_valueR (s : State) : (clearRun s).valueR = 0 := rfl
@[simp] theorem clearRun_valueValid (s : State) : (clearRun s).valueValid = false := rfl
@[simp] theorem clearRun_valueOvf (s : State) : (clearRun s).valueOvf = false := rfl
@[simp] theorem clearRun_es (s : State) : (clearRun s).es = s.es := rfl
@[simp] theorem clearRun_scanI (s : State) : (clearRun s).scanI = 0 := rfl
@[simp] theorem clearRun_nbits (s : State) : (clearRun s).nbits = s.nbits := rfl
@[simp] theorem clearRun_pos (s : State) : (clearRun s).pos = 0 := rfl
@[simp] theorem clearRun_ver (s : State) : (clearRun s).ver = s.ver := rfl
@[simp] theorem clearRun_typ (s : State) : (clearRun s).typ = s.typ := rfl
@[simp] theorem clearRun_acc (s : State) : (clearRun s).acc = s.acc := rfl
@[simp] theorem clearRun_ret (s : State) : (clearRun s).ret = s.ret := rfl
@[simp] theorem clearRun_vacc (s : State) : (clearRun s).vacc = 0 := rfl
@[simp] theorem clearRun_ovf (s : State) : (clearRun s).ovf = false := rfl
@[simp] theorem clearRun_frames (s : State) : (clearRun s).frames = [] := rfl
@[simp] theorem clearRun_schedule (s : State) : (clearRun s).schedule = s.schedule := rfl
@[simp] theorem clearRun_reply (s : State) : (clearRun s).reply = s.reply := rfl
@[simp] theorem clearRun_draw (s : State) : (clearRun s).draw = s.draw := rfl

/-! ### enterScan -/

@[simp] theorem enterScan_params (s : State) : (enterScan s).params = s.params := rfl
@[simp] theorem enterScan_len (s : State) : (enterScan s).len = s.len := rfl
@[simp] theorem enterScan_ibuf (s : State) : (enterScan s).ibuf = s.ibuf := rfl
@[simp] theorem enterScan_errCode (s : State) : (enterScan s).errCode = s.errCode := rfl
@[simp] theorem enterScan_errDetail (s : State) : (enterScan s).errDetail = s.errDetail := rfl
@[simp] theorem enterScan_errPosR (s : State) : (enterScan s).errPosR = s.errPosR := rfl
@[simp] theorem enterScan_posR (s : State) : (enterScan s).posR = s.posR := rfl
@[simp] theorem enterScan_vsumR (s : State) : (enterScan s).vsumR = s.vsumR := rfl
@[simp] theorem enterScan_valueR (s : State) : (enterScan s).valueR = s.valueR := rfl
@[simp] theorem enterScan_valueValid (s : State) : (enterScan s).valueValid = s.valueValid := rfl
@[simp] theorem enterScan_valueOvf (s : State) : (enterScan s).valueOvf = s.valueOvf := rfl
@[simp] theorem enterScan_es (s : State) : (enterScan s).es = .scan := rfl
@[simp] theorem enterScan_scanI (s : State) : (enterScan s).scanI = s.scanI := rfl
@[simp] theorem enterScan_nbits (s : State) : (enterScan s).nbits = 4#32 * s.len := rfl
@[simp] theorem enterScan_pos (s : State) : (enterScan s).pos = s.pos := rfl
@[simp] theorem enterScan_ver (s : State) : (enterScan s).ver = s.ver := rfl
@[simp] theorem enterScan_typ (s : State) : (enterScan s).typ = s.typ := rfl
@[simp] theorem enterScan_acc (s : State) : (enterScan s).acc = s.acc := rfl
@[simp] theorem enterScan_ret (s : State) : (enterScan s).ret = s.ret := rfl
@[simp] theorem enterScan_vacc (s : State) : (enterScan s).vacc = s.vacc := rfl
@[simp] theorem enterScan_ovf (s : State) : (enterScan s).ovf = s.ovf := rfl
@[simp] theorem enterScan_frames (s : State) : (enterScan s).frames = s.frames := rfl
@[simp] theorem enterScan_schedule (s : State) : (enterScan s).schedule = s.schedule := rfl
@[simp] theorem enterScan_reply (s : State) : (enterScan s).reply = s.reply := rfl
@[simp] theorem enterScan_draw (s : State) : (enterScan s).draw = s.draw := rfl

/-! ### finishRun -/

@[simp] theorem finishRun_params (s : State) : (finishRun s).params = s.params := rfl
@[simp] theorem finishRun_len (s : State) : (finishRun s).len = s.len := rfl
@[simp] theorem finishRun_ibuf (s : State) : (finishRun s).ibuf = s.ibuf := rfl
@[simp] theorem finishRun_errCode (s : State) : (finishRun s).errCode = s.errCode := rfl
@[simp] theorem finishRun_errDetail (s : State) : (finishRun s).errDetail = s.errDetail := rfl
@[simp] theorem finishRun_errPosR (s : State) : (finishRun s).errPosR = s.errPosR := rfl
@[simp] theorem finishRun_posR (s : State) : (finishRun s).posR = s.pos := rfl
@[simp] theorem finishRun_vsumR (s : State) : (finishRun s).vsumR = s.vacc := rfl
@[simp] theorem finishRun_valueR (s : State) : (finishRun s).valueR = (if s.ovf then 0 else s.ret) := rfl
@[simp] theorem finishRun_valueValid (s : State) : (finishRun s).valueValid = (!s.ovf) := rfl
@[simp] theorem finishRun_valueOvf (s : State) : (finishRun s).valueOvf = s.ovf := rfl
@[simp] theorem finishRun_es (s : State) : (finishRun s).es = .done := rfl
@[simp] theorem finishRun_scanI (s : State) : (finishRun s).scanI = s.scanI := rfl
@[simp] theorem finishRun_nbits (s : State) : (finishRun s).nbits = s.nbits := rfl
@[simp] theorem finishRun_pos (s : State) : (finishRun s).pos = s.pos := rfl
@[simp] theorem finishRun_ver (s : State) : (finishRun s).ver = s.ver := rfl
@[simp] theorem finishRun_typ (s : State) : (finishRun s).typ = s.typ := rfl
@[simp] theorem finishRun_acc (s : State) : (finishRun s).acc = s.acc := rfl
@[simp] theorem finishRun_ret (s : State) : (finishRun s).ret = s.ret := rfl
@[simp] theorem finishRun_vacc (s : State) : (finishRun s).vacc = s.vacc := rfl
@[simp] theorem finishRun_ovf (s : State) : (finishRun s).ovf = s.ovf := rfl
@[simp] theorem finishRun_frames (s : State) : (finishRun s).frames = s.frames := rfl
@[simp] theorem finishRun_schedule (s : State) : (finishRun s).schedule = s.schedule := rfl
@[simp] theorem finishRun_reply (s : State) : (finishRun s).reply = s.reply := rfl
@[simp] theorem finishRun_draw (s : State) : (finishRun s).draw = s.draw := rfl

/-! ### popFrame -/

@[simp] theorem popFrame_params (f : Frame) (fs : List Frame) (s : State) : (popFrame f fs s).params = s.params := rfl
@[simp] theorem popFrame_len (f : Frame) (fs : List Frame) (s : State) : (popFrame f fs s).len = s.len := rfl
@[simp] theorem popFrame_ibuf (f : Frame) (fs : List Frame) (s : State) : (popFrame f fs s).ibuf = s.ibuf := rfl
@[simp] theorem popFrame_errCode (f : Frame) (fs : List Frame) (s : State) : (popFrame f fs s).errCode = s.errCode := rfl
@[simp] theorem popFrame_errDetail (f : Frame) (fs : List Frame) (s : State) : (popFrame f fs s).errDetail = s.errDetail := rfl
@[simp] theorem popFrame_errPosR (f : Frame) (fs : List Frame) (s : State) : (popFrame f fs s).errPosR = s.errPosR := rfl
@[simp] theorem popFrame_posR (f : Frame) (fs : List Frame) (s : State) : (popFrame f fs s).posR = s.posR := rfl
@[simp] theorem popFrame_vsumR (f : Frame) (fs : List Frame) (s : State) : (popFrame f fs s).vsumR = s.vsumR := rfl
@[simp] theorem popFrame_valueR (f : Frame) (fs : List Frame) (s : State) : (popFrame f fs s).valueR = s.valueR := rfl
@[simp] theorem popFrame_valueValid (f : Frame) (fs : List Frame) (s : State) : (popFrame f fs s).valueValid = s.valueValid := rfl
@[simp] theorem popFrame_valueOvf (f : Frame) (fs : List Frame) (s : State) : (popFrame f fs s).valueOvf = s.valueOvf := rfl
@[simp] theorem popFrame_es (f : Frame) (fs : List Frame) (s : State) : (popFrame f fs s).es = .ret := rfl
@[simp] theorem popFrame_scanI (f : Frame) (fs : List Frame) (s : State) : (popFrame f fs s).scanI = s.scanI := rfl
@[simp] theorem popFrame_nbits (f : Frame) (fs : List Frame) (s : State) : (popFrame f fs s).nbits = s.nbits := rfl
@[simp] theorem popFrame_pos (f : Frame) (fs : List Frame) (s : State) : (popFrame f fs s).pos = s.pos := rfl
@[simp] theorem popFrame_ver (f : Frame) (fs : List Frame) (s : State) : (popFrame f fs s).ver = s.ver := rfl
@[simp] theorem popFrame_typ (f : Frame) (fs : List Frame) (s : State) : (popFrame f fs s).typ = s.typ := rfl
@[simp] theorem popFrame_acc (f : Frame) (fs : List Frame) (s : State) : (popFrame f fs s).acc = s.acc := rfl
@[simp] theorem popFrame_ret (f : Frame) (fs : List Frame) (s : State) : (popFrame f fs s).ret = f.r := rfl
@[simp] theorem popFrame_vacc (f : Frame) (fs : List Frame) (s : State) : (popFrame f fs s).vacc = s.vacc := rfl
@[simp] theorem popFrame_ovf (f : Frame) (fs : List Frame) (s : State) : (popFrame f fs s).ovf = s.ovf := rfl
@[simp] theorem popFrame_frames (f : Frame) (fs : List Frame) (s : State) : (popFrame f fs s).frames = fs := rfl
@[simp] theorem popFrame_schedule (f : Frame) (fs : List Frame) (s : State) : (popFrame f fs s).schedule = s.schedule := rfl
@[simp] theorem popFrame_reply (f : Frame) (fs : List Frame) (s : State) : (popFrame f fs s).reply = s.reply := rfl
@[simp] theorem popFrame_draw (f : Frame) (fs : List Frame) (s : State) : (popFrame f fs s).draw = s.draw := rfl

/-! ### combineTop -/

@[simp] theorem combineTop_params (f : Frame) (fs : List Frame) (s : State) : (combineTop f fs s).params = s.params := rfl
@[simp] theorem combineTop_len (f : Frame) (fs : List Frame) (s : State) : (combineTop f fs s).len = s.len := rfl
@[simp] theorem combineTop_ibuf (f : Frame) (fs : List Frame) (s : State) : (combineTop f fs s).ibuf = s.ibuf := rfl
@[simp] theorem combineTop_errCode (f : Frame) (fs : List Frame) (s : State) : (combineTop f fs s).errCode = s.errCode := rfl
@[simp] theorem combineTop_errDetail (f : Frame) (fs : List Frame) (s : State) : (combineTop f fs s).errDetail = s.errDetail := rfl
@[simp] theorem combineTop_errPosR (f : Frame) (fs : List Frame) (s : State) : (combineTop f fs s).errPosR = s.errPosR := rfl
@[simp] theorem combineTop_posR (f : Frame) (fs : List Frame) (s : State) : (combineTop f fs s).posR = s.posR := rfl
@[simp] theorem combineTop_vsumR (f : Frame) (fs : List Frame) (s : State) : (combineTop f fs s).vsumR = s.vsumR := rfl
@[simp] theorem combineTop_valueR (f : Frame) (fs : List Frame) (s : State) : (combineTop f fs s).valueR = s.valueR := rfl
@[simp] theorem combineTop_valueValid (f : Frame) (fs : List Frame) (s : State) : (combineTop f fs s).valueValid = s.valueValid := rfl
@[simp] theorem combineTop_valueOvf (f : Frame) (fs : List Frame) (s : State) : (combineTop f fs s).valueOvf = s.valueOvf := rfl
@[simp] theorem combineTop_es (f : Frame) (fs : List Frame) (s : State) : (combineTop f fs s).es = .next := rfl
@[simp] theorem combineTop_scanI (f : Frame) (fs : List Frame) (s : State) : (combineTop f fs s).scanI = s.scanI := rfl
@[simp] theorem combineTop_nbits (f : Frame) (fs : List Frame) (s : State) : (combineTop f fs s).nbits = s.nbits := rfl
@[simp] theorem combineTop_pos (f : Frame) (fs : List Frame) (s : State) : (combineTop f fs s).pos = s.pos := rfl
@[simp] theorem combineTop_ver (f : Frame) (fs : List Frame) (s : State) : (combineTop f fs s).ver = s.ver := rfl
@[simp] theorem combineTop_typ (f : Frame) (fs : List Frame) (s : State) : (combineTop f fs s).typ = s.typ := rfl
@[simp] theorem combineTop_acc (f : Frame) (fs : List Frame) (s : State) : (combineTop f fs s).acc = s.acc := rfl
@[simp] theorem combineTop_ret (f : Frame) (fs : List Frame) (s : State) : (combineTop f fs s).ret = s.ret := rfl
@[simp] theorem combineTop_vacc (f : Frame) (fs : List Frame) (s : State) : (combineTop f fs s).vacc = s.vacc := rfl
@[simp] theorem combineTop_ovf (f : Frame) (fs : List Frame) (s : State) : (combineTop f fs s).ovf = (s.ovf || (combine s.params.width f.op f.n f.r s.ret).2) := rfl
@[simp] theorem combineTop_frames (f : Frame) (fs : List Frame) (s : State) : (combineTop f fs s).frames = { f with r := (combine s.params.width f.op f.n f.r s.ret).1, n := f.n + 1 } :: fs := rfl
@[simp] theorem combineTop_schedule (f : Frame) (fs : List Frame) (s : State) : (combineTop f fs s).schedule = s.schedule := rfl
@[simp] theorem combineTop_reply (f : Frame) (fs : List Frame) (s : State) : (combineTop f fs s).reply = s.reply := rfl
@[simp] theorem combineTop_draw (f : Frame) (fs : List Frame) (s : State) : (combineTop f fs s).draw = s.draw := rfl

/-! ### hdrV -/

@[simp] theorem hdrV_params (v : BitVec 3) (s : State) : (hdrV v s).params = s.params := rfl
@[simp] theorem hdrV_len (v : BitVec 3) (s : State) : (hdrV v s).len = s.len := rfl
@[simp] theorem hdrV_ibuf (v : BitVec 3) (s : State) : (hdrV v s).ibuf = s.ibuf := rfl
@[simp] theorem hdrV_errCode (v : BitVec 3) (s : State) : (hdrV v s).errCode = s.errCode := rfl
@[simp] theorem hdrV_errDetail (v : BitVec 3) (s : State) : (hdrV v s).errDetail = s.errDetail := rfl
@[simp] theorem hdrV_errPosR (v : BitVec 3) (s : State) : (hdrV v s).errPosR = s.errPosR := rfl
@[simp] theorem hdrV_posR (v : BitVec 3) (s : State) : (hdrV v s).posR = s.posR := rfl
@[simp] theorem hdrV_vsumR (v : BitVec 3) (s : State) : (hdrV v s).vsumR = s.vsumR := rfl
@[simp] theorem hdrV_valueR (v : BitVec 3) (s : State) : (hdrV v s).valueR = s.valueR := rfl
@[simp] theorem hdrV_valueValid (v : BitVec 3) (s : State) : (hdrV v s).valueValid = s.valueValid := rfl
@[simp] theorem hdrV_valueOvf (v : BitVec 3) (s : State) : (hdrV v s).valueOvf = s.valueOvf := rfl
@[simp] theorem hdrV_es (v : BitVec 3) (s : State) : (hdrV v s).es = .hdrT := rfl
@[simp] theorem hdrV_scanI (v : BitVec 3) (s : State) : (hdrV v s).scanI = s.scanI := rfl
@[simp] theorem hdrV_nbits (v : BitVec 3) (s : State) : (hdrV v s).nbits = s.nbits := rfl
@[simp] theorem hdrV_pos (v : BitVec 3) (s : State) : (hdrV v s).pos = s.pos + 3 := rfl
@[simp] theorem hdrV_ver (v : BitVec 3) (s : State) : (hdrV v s).ver = v := rfl
@[simp] theorem hdrV_typ (v : BitVec 3) (s : State) : (hdrV v s).typ = s.typ := rfl
@[simp] theorem hdrV_acc (v : BitVec 3) (s : State) : (hdrV v s).acc = s.acc := rfl
@[simp] theorem hdrV_ret (v : BitVec 3) (s : State) : (hdrV v s).ret = s.ret := rfl
@[simp] theorem hdrV_vacc (v : BitVec 3) (s : State) : (hdrV v s).vacc = s.vacc + v.setWidth 32 := rfl
@[simp] theorem hdrV_ovf (v : BitVec 3) (s : State) : (hdrV v s).ovf = s.ovf := rfl
@[simp] theorem hdrV_frames (v : BitVec 3) (s : State) : (hdrV v s).frames = s.frames := rfl
@[simp] theorem hdrV_schedule (v : BitVec 3) (s : State) : (hdrV v s).schedule = s.schedule := rfl
@[simp] theorem hdrV_reply (v : BitVec 3) (s : State) : (hdrV v s).reply = s.reply := rfl
@[simp] theorem hdrV_draw (v : BitVec 3) (s : State) : (hdrV v s).draw = s.draw := rfl

/-! ### hdrT_lit -/

@[simp] theorem hdrT_lit_params (s : State) : (hdrT 4#3 s).params = s.params := rfl
@[simp] theorem hdrT_lit_len (s : State) : (hdrT 4#3 s).len = s.len := rfl
@[simp] theorem hdrT_lit_ibuf (s : State) : (hdrT 4#3 s).ibuf = s.ibuf := rfl
@[simp] theorem hdrT_lit_errCode (s : State) : (hdrT 4#3 s).errCode = s.errCode := rfl
@[simp] theorem hdrT_lit_errDetail (s : State) : (hdrT 4#3 s).errDetail = s.errDetail := rfl
@[simp] theorem hdrT_lit_errPosR (s : State) : (hdrT 4#3 s).errPosR = s.errPosR := rfl
@[simp] theorem hdrT_lit_posR (s : State) : (hdrT 4#3 s).posR = s.posR := rfl
@[simp] theorem hdrT_lit_vsumR (s : State) : (hdrT 4#3 s).vsumR = s.vsumR := rfl
@[simp] theorem hdrT_lit_valueR (s : State) : (hdrT 4#3 s).valueR = s.valueR := rfl
@[simp] theorem hdrT_lit_valueValid (s : State) : (hdrT 4#3 s).valueValid = s.valueValid := rfl
@[simp] theorem hdrT_lit_valueOvf (s : State) : (hdrT 4#3 s).valueOvf = s.valueOvf := rfl
@[simp] theorem hdrT_lit_es (s : State) : (hdrT 4#3 s).es = .litG := rfl
@[simp] theorem hdrT_lit_scanI (s : State) : (hdrT 4#3 s).scanI = s.scanI := rfl
@[simp] theorem hdrT_lit_nbits (s : State) : (hdrT 4#3 s).nbits = s.nbits := rfl
@[simp] theorem hdrT_lit_pos (s : State) : (hdrT 4#3 s).pos = s.pos + 3 := rfl
@[simp] theorem hdrT_lit_ver (s : State) : (hdrT 4#3 s).ver = s.ver := rfl
@[simp] theorem hdrT_lit_typ (s : State) : (hdrT 4#3 s).typ = 4#3 := rfl
@[simp] theorem hdrT_lit_acc (s : State) : (hdrT 4#3 s).acc = 0 := rfl
@[simp] theorem hdrT_lit_ret (s : State) : (hdrT 4#3 s).ret = s.ret := rfl
@[simp] theorem hdrT_lit_vacc (s : State) : (hdrT 4#3 s).vacc = s.vacc := rfl
@[simp] theorem hdrT_lit_ovf (s : State) : (hdrT 4#3 s).ovf = s.ovf := rfl
@[simp] theorem hdrT_lit_frames (s : State) : (hdrT 4#3 s).frames = s.frames := rfl
@[simp] theorem hdrT_lit_schedule (s : State) : (hdrT 4#3 s).schedule = s.schedule := rfl
@[simp] theorem hdrT_lit_reply (s : State) : (hdrT 4#3 s).reply = s.reply := rfl
@[simp] theorem hdrT_lit_draw (s : State) : (hdrT 4#3 s).draw = s.draw := rfl

/-! ### litMore -/

@[simp] theorem litMore_params (d : BitVec 4) (s : State) : (litMore d s).params = s.params := rfl
@[simp] theorem litMore_len (d : BitVec 4) (s : State) : (litMore d s).len = s.len := rfl
@[simp] theorem litMore_ibuf (d : BitVec 4) (s : State) : (litMore d s).ibuf = s.ibuf := rfl
@[simp] theorem litMore_errCode (d : BitVec 4) (s : State) : (litMore d s).errCode = s.errCode := rfl
@[simp] theorem litMore_errDetail (d : BitVec 4) (s : State) : (litMore d s).errDetail = s.errDetail := rfl
@[simp] theorem litMore_errPosR (d : BitVec 4) (s : State) : (litMore d s).errPosR = s.errPosR := rfl
@[simp] theorem litMore_posR (d : BitVec 4) (s : State) : (litMore d s).posR = s.posR := rfl
@[simp] theorem litMore_vsumR (d : BitVec 4) (s : State) : (litMore d s).vsumR = s.vsumR := rfl
@[simp] theorem litMore_valueR (d : BitVec 4) (s : State) : (litMore d s).valueR = s.valueR := rfl
@[simp] theorem litMore_valueValid (d : BitVec 4) (s : State) : (litMore d s).valueValid = s.valueValid := rfl
@[simp] theorem litMore_valueOvf (d : BitVec 4) (s : State) : (litMore d s).valueOvf = s.valueOvf := rfl
@[simp] theorem litMore_es (d : BitVec 4) (s : State) : (litMore d s).es = .litG := rfl
@[simp] theorem litMore_scanI (d : BitVec 4) (s : State) : (litMore d s).scanI = s.scanI := rfl
@[simp] theorem litMore_nbits (d : BitVec 4) (s : State) : (litMore d s).nbits = s.nbits := rfl
@[simp] theorem litMore_pos (d : BitVec 4) (s : State) : (litMore d s).pos = s.pos + 5 := rfl
@[simp] theorem litMore_ver (d : BitVec 4) (s : State) : (litMore d s).ver = s.ver := rfl
@[simp] theorem litMore_typ (d : BitVec 4) (s : State) : (litMore d s).typ = s.typ := rfl
@[simp] theorem litMore_acc (d : BitVec 4) (s : State) : (litMore d s).acc = (litW s.params.width s.acc d).1 := rfl
@[simp] theorem litMore_ret (d : BitVec 4) (s : State) : (litMore d s).ret = s.ret := rfl
@[simp] theorem litMore_vacc (d : BitVec 4) (s : State) : (litMore d s).vacc = s.vacc := rfl
@[simp] theorem litMore_ovf (d : BitVec 4) (s : State) : (litMore d s).ovf = (s.ovf || (litW s.params.width s.acc d).2) := rfl
@[simp] theorem litMore_frames (d : BitVec 4) (s : State) : (litMore d s).frames = s.frames := rfl
@[simp] theorem litMore_schedule (d : BitVec 4) (s : State) : (litMore d s).schedule = s.schedule := rfl
@[simp] theorem litMore_reply (d : BitVec 4) (s : State) : (litMore d s).reply = s.reply := rfl
@[simp] theorem litMore_draw (d : BitVec 4) (s : State) : (litMore d s).draw = s.draw := rfl

/-! ### litLast -/

@[simp] theorem litLast_params (d : BitVec 4) (s : State) : (litLast d s).params = s.params := rfl
@[simp] theorem litLast_len (d : BitVec 4) (s : State) : (litLast d s).len = s.len := rfl
@[simp] theorem litLast_ibuf (d : BitVec 4) (s : State) : (litLast d s).ibuf = s.ibuf := rfl
@[simp] theorem litLast_errCode (d : BitVec 4) (s : State) : (litLast d s).errCode = s.errCode := rfl
@[simp] theorem litLast_errDetail (d : BitVec 4) (s : State) : (litLast d s).errDetail = s.errDetail := rfl
@[simp] theorem litLast_errPosR (d : BitVec 4) (s : State) : (litLast d s).errPosR = s.errPosR := rfl
@[simp] theorem litLast_posR (d : BitVec 4) (s : State) : (litLast d s).posR = s.posR := rfl
@[simp] theorem litLast_vsumR (d : BitVec 4) (s : State) : (litLast d s).vsumR = s.vsumR := rfl
@[simp] theorem litLast_valueR (d : BitVec 4) (s : State) : (litLast d s).valueR = s.valueR := rfl
@[simp] theorem litLast_valueValid (d : BitVec 4) (s : State) : (litLast d s).valueValid = s.valueValid := rfl
@[simp] theorem litLast_valueOvf (d : BitVec 4) (s : State) : (litLast d s).valueOvf = s.valueOvf := rfl
@[simp] theorem litLast_es (d : BitVec 4) (s : State) : (litLast d s).es = .ret := rfl
@[simp] theorem litLast_scanI (d : BitVec 4) (s : State) : (litLast d s).scanI = s.scanI := rfl
@[simp] theorem litLast_nbits (d : BitVec 4) (s : State) : (litLast d s).nbits = s.nbits := rfl
@[simp] theorem litLast_pos (d : BitVec 4) (s : State) : (litLast d s).pos = s.pos + 5 := rfl
@[simp] theorem litLast_ver (d : BitVec 4) (s : State) : (litLast d s).ver = s.ver := rfl
@[simp] theorem litLast_typ (d : BitVec 4) (s : State) : (litLast d s).typ = s.typ := rfl
@[simp] theorem litLast_acc (d : BitVec 4) (s : State) : (litLast d s).acc = (litW s.params.width s.acc d).1 := rfl
@[simp] theorem litLast_ret (d : BitVec 4) (s : State) : (litLast d s).ret = (litW s.params.width s.acc d).1 := rfl
@[simp] theorem litLast_vacc (d : BitVec 4) (s : State) : (litLast d s).vacc = s.vacc := rfl
@[simp] theorem litLast_ovf (d : BitVec 4) (s : State) : (litLast d s).ovf = (s.ovf || (litW s.params.width s.acc d).2) := rfl
@[simp] theorem litLast_frames (d : BitVec 4) (s : State) : (litLast d s).frames = s.frames := rfl
@[simp] theorem litLast_schedule (d : BitVec 4) (s : State) : (litLast d s).schedule = s.schedule := rfl
@[simp] theorem litLast_reply (d : BitVec 4) (s : State) : (litLast d s).reply = s.reply := rfl
@[simp] theorem litLast_draw (d : BitVec 4) (s : State) : (litLast d s).draw = s.draw := rfl

/-! ### opI -/

@[simp] theorem opI_params (i : BitVec 1) (s : State) : (opI i s).params = s.params := rfl
@[simp] theorem opI_len (i : BitVec 1) (s : State) : (opI i s).len = s.len := rfl
@[simp] theorem opI_ibuf (i : BitVec 1) (s : State) : (opI i s).ibuf = s.ibuf := rfl
@[simp] theorem opI_errCode (i : BitVec 1) (s : State) : (opI i s).errCode = s.errCode := rfl
@[simp] theorem opI_errDetail (i : BitVec 1) (s : State) : (opI i s).errDetail = s.errDetail := rfl
@[simp] theorem opI_errPosR (i : BitVec 1) (s : State) : (opI i s).errPosR = s.errPosR := rfl
@[simp] theorem opI_posR (i : BitVec 1) (s : State) : (opI i s).posR = s.posR := rfl
@[simp] theorem opI_vsumR (i : BitVec 1) (s : State) : (opI i s).vsumR = s.vsumR := rfl
@[simp] theorem opI_valueR (i : BitVec 1) (s : State) : (opI i s).valueR = s.valueR := rfl
@[simp] theorem opI_valueValid (i : BitVec 1) (s : State) : (opI i s).valueValid = s.valueValid := rfl
@[simp] theorem opI_valueOvf (i : BitVec 1) (s : State) : (opI i s).valueOvf = s.valueOvf := rfl
@[simp] theorem opI_es (i : BitVec 1) (s : State) : (opI i s).es = if i = 0#1 then .opL0 else .opL1 := rfl
@[simp] theorem opI_scanI (i : BitVec 1) (s : State) : (opI i s).scanI = s.scanI := rfl
@[simp] theorem opI_nbits (i : BitVec 1) (s : State) : (opI i s).nbits = s.nbits := rfl
@[simp] theorem opI_pos (i : BitVec 1) (s : State) : (opI i s).pos = s.pos + 1 := rfl
@[simp] theorem opI_ver (i : BitVec 1) (s : State) : (opI i s).ver = s.ver := rfl
@[simp] theorem opI_typ (i : BitVec 1) (s : State) : (opI i s).typ = s.typ := rfl
@[simp] theorem opI_acc (i : BitVec 1) (s : State) : (opI i s).acc = s.acc := rfl
@[simp] theorem opI_ret (i : BitVec 1) (s : State) : (opI i s).ret = s.ret := rfl
@[simp] theorem opI_vacc (i : BitVec 1) (s : State) : (opI i s).vacc = s.vacc := rfl
@[simp] theorem opI_ovf (i : BitVec 1) (s : State) : (opI i s).ovf = s.ovf := rfl
@[simp] theorem opI_frames (i : BitVec 1) (s : State) : (opI i s).frames = s.frames := rfl
@[simp] theorem opI_schedule (i : BitVec 1) (s : State) : (opI i s).schedule = s.schedule := rfl
@[simp] theorem opI_reply (i : BitVec 1) (s : State) : (opI i s).reply = s.reply := rfl
@[simp] theorem opI_draw (i : BitVec 1) (s : State) : (opI i s).draw = s.draw := rfl

/-! ### answer -/

@[simp] theorem answer_params (v : Word) (s : State) : (answer v s).params = s.params := rfl
@[simp] theorem answer_len (v : Word) (s : State) : (answer v s).len = s.len := rfl
@[simp] theorem answer_ibuf (v : Word) (s : State) : (answer v s).ibuf = s.ibuf := rfl
@[simp] theorem answer_errCode (v : Word) (s : State) : (answer v s).errCode = s.errCode := rfl
@[simp] theorem answer_errDetail (v : Word) (s : State) : (answer v s).errDetail = s.errDetail := rfl
@[simp] theorem answer_errPosR (v : Word) (s : State) : (answer v s).errPosR = s.errPosR := rfl
@[simp] theorem answer_posR (v : Word) (s : State) : (answer v s).posR = s.posR := rfl
@[simp] theorem answer_vsumR (v : Word) (s : State) : (answer v s).vsumR = s.vsumR := rfl
@[simp] theorem answer_valueR (v : Word) (s : State) : (answer v s).valueR = s.valueR := rfl
@[simp] theorem answer_valueValid (v : Word) (s : State) : (answer v s).valueValid = s.valueValid := rfl
@[simp] theorem answer_valueOvf (v : Word) (s : State) : (answer v s).valueOvf = s.valueOvf := rfl
@[simp] theorem answer_es (v : Word) (s : State) : (answer v s).es = s.es := rfl
@[simp] theorem answer_scanI (v : Word) (s : State) : (answer v s).scanI = s.scanI := rfl
@[simp] theorem answer_nbits (v : Word) (s : State) : (answer v s).nbits = s.nbits := rfl
@[simp] theorem answer_pos (v : Word) (s : State) : (answer v s).pos = s.pos := rfl
@[simp] theorem answer_ver (v : Word) (s : State) : (answer v s).ver = s.ver := rfl
@[simp] theorem answer_typ (v : Word) (s : State) : (answer v s).typ = s.typ := rfl
@[simp] theorem answer_acc (v : Word) (s : State) : (answer v s).acc = s.acc := rfl
@[simp] theorem answer_ret (v : Word) (s : State) : (answer v s).ret = s.ret := rfl
@[simp] theorem answer_vacc (v : Word) (s : State) : (answer v s).vacc = s.vacc := rfl
@[simp] theorem answer_ovf (v : Word) (s : State) : (answer v s).ovf = s.ovf := rfl
@[simp] theorem answer_frames (v : Word) (s : State) : (answer v s).frames = s.frames := rfl
@[simp] theorem answer_schedule (v : Word) (s : State) : (answer v s).schedule = s.schedule := rfl
@[simp] theorem answer_reply (v : Word) (s : State) : (answer v s).reply = v := rfl
@[simp] theorem answer_draw (v : Word) (s : State) : (answer v s).draw = s.draw := rfl

/-! ### hdrT of an operator's type-id -/

theorem hdrT_op {t : BitVec 3} (h : t ≠ 4#3) (s : State) :
    hdrT t s = { s with pos := s.pos + 3, typ := t, es := .opI } := by simp [hdrT, h]

/-! ### Small lemmas of the enumerations -/

@[simp] theorem ofTypeId_typeId (op : Op) : Op.ofTypeId op.typeId = some op := by cases op <;> rfl

@[simp] theorem typeId_ne_lit (op : Op) : op.typeId ≠ 4#3 := by cases op <;> decide

theorem ofTypeId_eq_none {t : BitVec 3} : Op.ofTypeId t = none ↔ t = 4#3 := by revert t; decide

theorem ofTypeId_eq_some {t : BitVec 3} {op : Op} : Op.ofTypeId t = some op ↔ t = op.typeId := by
  revert t; cases op <;> decide

theorem busy_iff {m : Micro} : m.busy = true ↔ m ≠ .idle ∧ m ≠ .done ∧ m ≠ .error := by cases m <;> decide

theorem not_busy_iff {m : Micro} : m.busy = false ↔ m = .idle ∨ m = .done ∨ m = .error := by cases m <;> decide

end Sys2Proof.Laws
end

