-- ==== Sys2Proof/Laws/Operands.lean ====
section
/-! SUPPORT. What the shared operations answer: the bound check, the fields of a decoded packet, and the fields read from
the stream. -/

namespace Sys2Proof.Laws

open Sys2Proof Sys2Proof.Machine

theorem short_eq_false {n : Nat} {s : State} : short n s = false ↔ s.pos.toNat + n ≤ s.nbits.toNat := by
  simp [short]

theorem short_eq_true {n : Nat} {s : State} : short n s = true ↔ s.nbits.toNat < s.pos.toNat + n := by
  simp [short]

theorem field_fits {n : Nat} {s : State} {k : Out} (h : s.pos.toNat + n ≤ s.nbits.toNat) : field n s k = k := by
  simp [field, short_eq_false.2 h]

theorem field_short {n : Nat} {s : State} {k : Out} (h : s.nbits.toNat < s.pos.toNat + n) :
    field n s k = .next (raiseShort n s) := by
  simp [field, short_eq_true.2 h]

/-- A field of a decoded packet raises OUT_OF_BITS, or goes on. -/
theorem field_cases (n : Nat) (s : State) (k : Out) :
    (s.nbits.toNat < s.pos.toNat + n ∧ field n s k = .next (raiseShort n s)) ∨
    (s.pos.toNat + n ≤ s.nbits.toNat ∧ field n s k = k) := by
  rcases Nat.lt_or_ge s.nbits.toNat (s.pos.toNat + n) with h | h
  · exact .inl ⟨h, field_short h⟩
  · exact .inr ⟨h, field_fits h⟩

theorem readField_short {n : Nat} {s : State} {k : BitVec n → Out} (h : s.nbits.toNat < s.pos.toNat + n) :
    readField n s k = .next (raiseShort n s) := by
  simp [readField, short_eq_true.2 h]

theorem readField_fits {n : Nat} {s : State} {k : BitVec n → Out} {v : BitVec n}
    (h : s.pos.toNat + n ≤ s.nbits.toNat) (hv : streamBits s s.pos.toNat n = some (bitsOf v)) :
    readField n s k = k v := by
  simp [readField, short_eq_false.2 h, memRead_bitsOf hv]

/-- ReadBits raises OUT_OF_BITS, or uses the field whose bits stand at the cursor, or is stuck where the bit sequence is
not defined. -/
theorem readField_cases (n : Nat) (s : State) (k : BitVec n → Out) :
    (s.nbits.toNat < s.pos.toNat + n ∧ readField n s k = .next (raiseShort n s)) ∨
    (s.pos.toNat + n ≤ s.nbits.toNat ∧ ∃ v, streamBits s s.pos.toNat n = some (bitsOf v) ∧ readField n s k = k v) ∨
    (s.pos.toNat + n ≤ s.nbits.toNat ∧ streamBits s s.pos.toNat n = none ∧
      readField n s k = .fault .streamUndefined) := by
  rcases Nat.lt_or_ge s.nbits.toNat (s.pos.toNat + n) with h | h
  · exact .inl ⟨h, readField_short h⟩
  · refine .inr ?_
    rcases hb : streamBits s s.pos.toNat n with _ | bs
    · refine .inr ⟨h, rfl, ?_⟩
      simp [readField, short_eq_false.2 h, memRead, hb]
    · have e := bitsOf_ofNat_bitsVal (streamBits_length hb)
      refine .inl ⟨h, BitVec.ofNat n (bitsVal bs), by rw [e], ?_⟩
      exact readField_fits h (by rw [hb, e])

/-- The cursor after a field that fits (R124): it does not wrap. -/
theorem toNat_pos_add {s : State} {n : Nat} (h : s.pos.toNat + n ≤ s.nbits.toNat) :
    (s.pos + BitVec.ofNat 32 n).toNat = s.pos.toNat + n := by
  have := s.nbits.isLt
  simp [BitVec.toNat_add]
  omega

/-- A push fills a frame, or raises DEPTH_EXCEEDED. -/
theorem pushFrame_cases (f : Frame) (p : Word) (s : State) :
    (s.params.maxDepth ≤ s.frames.length ∧ pushFrame f p s = raiseError .depthExceeded 0 p s) ∨
    (s.frames.length < s.params.maxDepth ∧
      pushFrame f p s = { s with pos := p, frames := f :: s.frames, es := .next }) := by
  unfold pushFrame
  split
  · exact .inl ⟨by assumption, rfl⟩
  · exact .inr ⟨by omega, rfl⟩

/-- START raises LEN_RANGE, or enters SCAN. -/
theorem startRun_cases (s : State) :
    (s.params.maxChars < s.len.toNat ∧ startRun s = raiseError .lenRange 0 0 (clearRun s)) ∨
    (s.len.toNat ≤ s.params.maxChars ∧ startRun s = enterScan (clearRun s)) := by
  unfold startRun
  split
  · exact .inl ⟨by assumption, rfl⟩
  · exact .inr ⟨by omega, rfl⟩

/-- HDR_T goes to LIT_G or to OP_I (R127). -/
theorem hdrT_cases (t : BitVec 3) (s : State) :
    (t = 4#3 ∧ hdrT t s = { s with pos := s.pos + 3, typ := t, acc := 0, es := .litG }) ∨
    (t ≠ 4#3 ∧ hdrT t s = { s with pos := s.pos + 3, typ := t, es := .opI }) := by
  unfold hdrT
  split
  · exact .inl ⟨by assumption, rfl⟩
  · exact .inr ⟨by assumption, rfl⟩

@[simp] theorem hdrT_pos (t : BitVec 3) (s : State) : (hdrT t s).pos = s.pos + 3 := by
  rcases hdrT_cases t s with ⟨_, h⟩ | ⟨_, h⟩ <;> rw [h]

@[simp] theorem hdrT_nbits (t : BitVec 3) (s : State) : (hdrT t s).nbits = s.nbits := by
  rcases hdrT_cases t s with ⟨_, h⟩ | ⟨_, h⟩ <;> rw [h]

/-- An instruction is one of the fifteen, each a literal or an operator head. -/
theorem exec_eq (i : Instr) (s : State) :
    (∃ v ds, i = .lit v ds ∧ exec i s = literal v ds s) ∨
    (∃ op v len, bitLength i = 22 ∧ encode i = encodeB op.typeId v len ∧ fieldWidths i = [3, 3, 1, 15] ∧
      exec i s = operatorB op v len s) ∨
    (∃ op v cnt, bitLength i = 18 ∧ encode i = encodeN op.typeId v cnt ∧ fieldWidths i = [3, 3, 1, 11] ∧
      exec i s = operatorN op v cnt s) := by
  cases i with
  | lit v ds => exact .inl ⟨v, ds, rfl, rfl⟩
  | sumB v len => exact .inr (.inl ⟨.sum, v, len, rfl, rfl, rfl, rfl⟩)
  | prodB v len => exact .inr (.inl ⟨.prod, v, len, rfl, rfl, rfl, rfl⟩)
  | minB v len => exact .inr (.inl ⟨.min, v, len, rfl, rfl, rfl, rfl⟩)
  | maxB v len => exact .inr (.inl ⟨.max, v, len, rfl, rfl, rfl, rfl⟩)
  | gtB v len => exact .inr (.inl ⟨.gt, v, len, rfl, rfl, rfl, rfl⟩)
  | ltB v len => exact .inr (.inl ⟨.lt, v, len, rfl, rfl, rfl, rfl⟩)
  | eqB v len => exact .inr (.inl ⟨.eq, v, len, rfl, rfl, rfl, rfl⟩)
  | sumN v cnt => exact .inr (.inr ⟨.sum, v, cnt, rfl, rfl, rfl, rfl⟩)
  | prodN v cnt => exact .inr (.inr ⟨.prod, v, cnt, rfl, rfl, rfl, rfl⟩)
  | minN v cnt => exact .inr (.inr ⟨.min, v, cnt, rfl, rfl, rfl, rfl⟩)
  | maxN v cnt => exact .inr (.inr ⟨.max, v, cnt, rfl, rfl, rfl, rfl⟩)
  | gtN v cnt => exact .inr (.inr ⟨.gt, v, cnt, rfl, rfl, rfl, rfl⟩)
  | ltN v cnt => exact .inr (.inr ⟨.lt, v, cnt, rfl, rfl, rfl, rfl⟩)
  | eqN v cnt => exact .inr (.inr ⟨.eq, v, cnt, rfl, rfl, rfl, rfl⟩)

/-! ### Decoded packets -/

/-- A decoded header raises OUT_OF_BITS at one of its two fields, or goes on to the body. -/
theorem header_cases (v t : BitVec 3) (s : State) (body : State → Out) :
    header v t s body = .next (raiseShort 3 s) ∨ header v t s body = .next (raiseShort 3 (hdrV v s)) ∨
      header v t s body = body (hdrT t (hdrV v s)) := by
  unfold header
  rcases field_cases 3 s (field 3 (hdrV v s) (body (hdrT t (hdrV v s)))) with ⟨_, e⟩ | ⟨_, e⟩ <;> rw [e]
  · exact .inl rfl
  · rcases field_cases 3 (hdrV v s) (body (hdrT t (hdrV v s))) with ⟨_, e⟩ | ⟨_, e⟩ <;> rw [e]
    · exact .inr (.inl rfl)
    · exact .inr (.inr rfl)

/-- A decoded `.B` operator raises OUT_OF_BITS at one of its four fields, or pushes its frame. -/
theorem operatorB_cases (op : Op) (v : BitVec 3) (len : BitVec 15) (s : State) :
    operatorB op v len s = .next (raiseShort 3 s) ∨ operatorB op v len s = .next (raiseShort 3 (hdrV v s)) ∨
    operatorB op v len s = .next (raiseShort 1 (hdrT op.typeId (hdrV v s))) ∨
    operatorB op v len s = .next (raiseShort 15 (opI 0#1 (hdrT op.typeId (hdrV v s)))) ∨
    operatorB op v len s = .next (opL0 op len (opI 0#1 (hdrT op.typeId (hdrV v s)))) := by
  unfold operatorB
  rcases header_cases v op.typeId s
    (fun s => field 1 s (field 15 (opI 0#1 s) (.next (opL0 op len (opI 0#1 s))))) with e | e | e <;> rw [e]
  · exact .inl rfl
  · exact .inr (.inl rfl)
  · generalize hdrT op.typeId (hdrV v s) = u
    rcases field_cases 1 u (field 15 (opI 0#1 u) (.next (opL0 op len (opI 0#1 u)))) with ⟨_, e⟩ | ⟨_, e⟩ <;> rw [e]
    · exact .inr (.inr (.inl rfl))
    · rcases field_cases 15 (opI 0#1 u) (.next (opL0 op len (opI 0#1 u))) with ⟨_, e⟩ | ⟨_, e⟩ <;> rw [e]
      · exact .inr (.inr (.inr (.inl rfl)))
      · exact .inr (.inr (.inr (.inr rfl)))

/-- A decoded `.N` operator raises OUT_OF_BITS at one of its four fields, or pushes its frame. -/
theorem operatorN_cases (op : Op) (v : BitVec 3) (cnt : BitVec 11) (s : State) :
    operatorN op v cnt s = .next (raiseShort 3 s) ∨ operatorN op v cnt s = .next (raiseShort 3 (hdrV v s)) ∨
    operatorN op v cnt s = .next (raiseShort 1 (hdrT op.typeId (hdrV v s))) ∨
    operatorN op v cnt s = .next (raiseShort 11 (opI 1#1 (hdrT op.typeId (hdrV v s)))) ∨
    operatorN op v cnt s = .next (opL1 op cnt (opI 1#1 (hdrT op.typeId (hdrV v s)))) := by
  unfold operatorN
  rcases header_cases v op.typeId s
    (fun s => field 1 s (field 11 (opI 1#1 s) (.next (opL1 op cnt (opI 1#1 s))))) with e | e | e <;> rw [e]
  · exact .inl rfl
  · exact .inr (.inl rfl)
  · generalize hdrT op.typeId (hdrV v s) = u
    rcases field_cases 1 u (field 11 (opI 1#1 u) (.next (opL1 op cnt (opI 1#1 u)))) with ⟨_, e⟩ | ⟨_, e⟩ <;> rw [e]
    · exact .inr (.inr (.inl rfl))
    · rcases field_cases 11 (opI 1#1 u) (.next (opL1 op cnt (opI 1#1 u))) with ⟨_, e⟩ | ⟨_, e⟩ <;> rw [e]
      · exact .inr (.inr (.inr (.inl rfl)))
      · exact .inr (.inr (.inr (.inr rfl)))

/-- One group of a literal in W bits: the remainder and the sticky flag follow the exact value (R141, R142). -/
theorem litW_step (w a : Nat) (d : BitVec 4) (o : Bool) :
    (litW w (a % 2 ^ w) d).1 = (a * 16 + d.toNat) % 2 ^ w ∧
    ((o || decide (2 ^ w ≤ a)) || (litW w (a % 2 ^ w) d).2) = (o || decide (2 ^ w ≤ a * 16 + d.toNat)) := by
  constructor
  · simp [litW, narrow, Nat.add_mod, Nat.mul_mod]
  · by_cases h : 2 ^ w ≤ a
    · have : 2 ^ w ≤ a * 16 + d.toNat := by omega
      simp [h, this]
    · simp [litW, overflows, Nat.mod_eq_of_lt (Nat.not_le.1 h), h]

/-! ### The fold -/

theorem initVal_lt {w : Nat} (hw : 0 < w) (op : Op) : initVal op < 2 ^ w := by
  have h : 1 < 2 ^ w := Nat.one_lt_two_pow (Nat.ne_of_gt hw)
  have h0 : 0 < 2 ^ w := Nat.two_pow_pos w
  cases op <;> assumption

theorem compareStep_lt {w : Nat} (hw : 0 < w) (test : Value → Value → Bool) (n : BitVec 16) {r v : Value}
    (hr : r < 2 ^ w) (hv : v < 2 ^ w) : compareStep test n r v < 2 ^ w := by
  have h1 : 1 < 2 ^ w := Nat.one_lt_two_pow (Nat.ne_of_gt hw)
  have h0 : 0 < 2 ^ w := Nat.two_pow_pos w
  unfold compareStep
  split
  · exact hv
  · split
    · unfold boolVal
      split <;> assumption
    · exact hr

/-- A combination of W-bit values is a W-bit value (R203). -/
theorem combine_lt {w : Nat} (hw : 0 < w) (op : Op) (n : BitVec 16) {r v : Value} (hr : r < 2 ^ w) (hv : v < 2 ^ w) :
    (combine w op n r v).1 < 2 ^ w := by
  cases op with
  | sum => exact Nat.mod_lt _ (Nat.two_pow_pos w)
  | prod => exact Nat.mod_lt _ (Nat.two_pow_pos w)
  | min =>
    simp only [combine]
    split
    · exact hv
    · split <;> assumption
  | max =>
    simp only [combine]
    split
    · exact hv
    · split <;> assumption
  | gt =>
    simp only [combine]
    exact compareStep_lt hw _ n hr hv
  | lt =>
    simp only [combine]
    exact compareStep_lt hw _ n hr hv
  | eq =>
    simp only [combine]
    exact compareStep_lt hw _ n hr hv

end Sys2Proof.Laws
end

