-- ==== Sys2Proof/Laws/Engine.lean ====
section
/-! SUPPORT. Everything one engine step can do, said once: `microStep` answers one of the moves below. -/

namespace Sys2Proof.Laws

open Sys2Proof Sys2Proof.Machine

/-- The micro-states that read a field, with its width (R126, R127, R141, R151 to R153). -/
def readers : List (Micro × Nat) :=
  [(.hdrV, 3), (.hdrT, 3), (.litG, 5), (.opI, 1), (.opL0, 15), (.opL1, 11)]

/-- A field of n bits lies before the stream's end, and `v` is what it reads. -/
def reads {n : Nat} (s : State) (v : BitVec n) : Prop :=
  s.pos.toNat + n ≤ s.nbits.toNat ∧ streamBits s s.pos.toNat n = some (bitsOf v)

/-- One engine step's guard and effect, a constructor for each. -/
inductive EngineMove (s : State) : Out → Prop
  | quiet : s.es.busy = false → EngineMove s (.next s)
  | scanDone : s.es = .scan → s.scanI.toNat = s.nbits.toNat / 4 → EngineMove s (.next { s with es := .hdrV })
  | scanOk (c : Byte) (d : BitVec 4) : s.es = .scan → s.scanI.toNat ≠ s.nbits.toNat / 4 →
      ibufAt s s.scanI.toNat = some c → hexval c = some d → EngineMove s (.next { s with scanI := s.scanI + 1 })
  | scanBad (c : Byte) : s.es = .scan → s.scanI.toNat ≠ s.nbits.toNat / 4 →
      ibufAt s s.scanI.toNat = some c → hexval c = none → EngineMove s (.next (raiseError .invalidHex c s.pos s))
  | scanPast : s.es = .scan → s.scanI.toNat ≠ s.nbits.toNat / 4 → ibufAt s s.scanI.toNat = none →
      EngineMove s (.fault .pastBuffer)
  | short (n : Nat) : (s.es, n) ∈ readers → s.nbits.toNat < s.pos.toNat + n → EngineMove s (.next (raiseShort n s))
  | undefined (n : Nat) : (s.es, n) ∈ readers → s.pos.toNat + n ≤ s.nbits.toNat →
      streamBits s s.pos.toNat n = none → EngineMove s (.fault .streamUndefined)
  | hdrV (v : BitVec 3) : s.es = .hdrV → reads s v → EngineMove s (.next (Machine.hdrV v s))
  | hdrT (t : BitVec 3) : s.es = .hdrT → reads s t → EngineMove s (.next (Machine.hdrT t s))
  | litG (g : BitVec 5) : s.es = .litG → reads s g → EngineMove s (.next (Machine.litG g s))
  | opI (i : BitVec 1) : s.es = .opI → reads s i → EngineMove s (.next (Machine.opI i s))
  | opL0 (op : Op) (len : BitVec 15) : s.es = .opL0 → reads s len → s.typ = op.typeId →
      s.frames.length < s.params.maxDepth →
      EngineMove s (.next { s with
        pos := s.pos + 15, es := .next
        frames := { op := op, lt := .l0, lim := s.pos + 15 + len.setWidth 32, n := 0, r := initVal op } :: s.frames })
  | opL1 (op : Op) (cnt : BitVec 11) : s.es = .opL1 → reads s cnt → s.typ = op.typeId →
      s.frames.length < s.params.maxDepth →
      EngineMove s (.next { s with
        pos := s.pos + 11, es := .next
        frames := { op := op, lt := .l1, lim := cnt.setWidth 32, n := 0, r := initVal op } :: s.frames })
  | full (n : Nat) : (s.es, n) ∈ [(Micro.opL0, 15), (Micro.opL1, 11)] → s.pos.toNat + n ≤ s.nbits.toNat →
      s.typ ≠ 4 → s.params.maxDepth ≤ s.frames.length →
      EngineMove s (.next (raiseError .depthExceeded 0 (s.pos + BitVec.ofNat 32 n) s))
  | noOperator : s.es = .opL0 ∨ s.es = .opL1 → s.typ = 4 → EngineMove s (.fault .operatorTypeId)
  | next (f : Frame) (fs : List Frame) : s.es = .next → s.frames = f :: fs →
      EngineMove s (.next { s with es := if frameFull f s then .close else .hdrV })
  | noFrame : s.es = .next ∨ s.es = .close → s.frames = [] → EngineMove s (.fault .noOpenFrame)
  | noChild (f : Frame) (fs : List Frame) : s.es = .close → s.frames = f :: fs → needsChild f.op = true → f.n.toNat = 0 →
      EngineMove s (.next (raiseError .malformedPacket 3 s.pos s))
  | notTwo (f : Frame) (fs : List Frame) : s.es = .close → s.frames = f :: fs → isComparison f.op = true →
      f.n.toNat ≠ 2 → EngineMove s (.next (raiseError .malformedPacket 2 s.pos s))
  | close (f : Frame) (fs : List Frame) : s.es = .close → s.frames = f :: fs →
      (needsChild f.op = true → f.n.toNat ≠ 0) → (isComparison f.op = true → f.n.toNat = 2) →
      EngineMove s (.next (popFrame f fs s))
  | finish : s.es = .ret → s.frames = [] → EngineMove s (.next (finishRun s))
  | overshoot (f : Frame) (fs : List Frame) : s.es = .ret → s.frames = f :: fs → f.lt = .l0 →
      f.lim.toNat < s.pos.toNat → EngineMove s (.next (raiseError .malformedPacket 1 s.pos s))
  | combine (f : Frame) (fs : List Frame) : s.es = .ret → s.frames = f :: fs →
      (f.lt = .l0 → s.pos.toNat ≤ f.lim.toNat) → EngineMove s (.next (combineTop f fs s))

theorem pushFrame_room {f : Frame} {p : Word} {s : State} (h : s.frames.length < s.params.maxDepth) :
    pushFrame f p s = { s with pos := p, frames := f :: s.frames, es := .next } := by
  unfold pushFrame
  rw [if_neg (by omega)]

theorem pushFrame_full {f : Frame} {p : Word} {s : State} (h : s.params.maxDepth ≤ s.frames.length) :
    pushFrame f p s = raiseError .depthExceeded 0 p s := by
  unfold pushFrame
  rw [if_pos h]

/-- A reading micro-state's step: short, undefined, or its use of the field. -/
theorem readField_move {s : State} {n : Nat} {k : BitVec n → Out} (hr : (s.es, n) ∈ readers)
    (h : ∀ v, reads s v → EngineMove s (k v)) : EngineMove s (readField n s k) := by
  rcases readField_cases n s k with ⟨h1, e⟩ | ⟨h1, v, h2, e⟩ | ⟨h1, h2, e⟩ <;> rw [e]
  · exact .short n hr h1
  · exact h v ⟨h1, h2⟩
  · exact .undefined n hr h1 h2

theorem scanStep_move {s : State} (he : s.es = .scan) : EngineMove s (scanStep s) := by
  unfold scanStep
  split
  · exact .scanDone he ‹_›
  · split
    · exact .scanPast he ‹_› ‹_›
    · split
      · exact .scanBad _ he ‹_› ‹_› ‹_›
      · exact .scanOk _ _ he ‹_› ‹_› ‹_›

theorem nextStep_move {s : State} (he : s.es = .next) : EngineMove s (nextStep s) := by
  unfold nextStep
  split
  · exact .noFrame (.inl he) ‹_›
  · exact .next _ _ he ‹_›

theorem closeStep_move {s : State} (he : s.es = .close) : EngineMove s (closeStep s) := by
  unfold closeStep
  split
  · exact .noFrame (.inr he) ‹_›
  · split
    · rename_i h
      simp only [Bool.and_eq_true, decide_eq_true_eq] at h
      exact .noChild _ _ he ‹_› h.1 h.2
    · rename_i h1
      simp only [Bool.and_eq_true, decide_eq_true_eq, not_and] at h1
      split
      · rename_i h
        simp only [Bool.and_eq_true, decide_eq_true_eq] at h
        exact .notTwo _ _ he ‹_› h.1 h.2
      · rename_i h
        simp only [Bool.and_eq_true, decide_eq_true_eq, not_and, Classical.not_not] at h
        exact .close _ _ he ‹_› h1 h

theorem retStep_move {s : State} (he : s.es = .ret) : EngineMove s (retStep s) := by
  unfold retStep
  split
  · exact .finish he ‹_›
  · split
    · rename_i h
      simp only [Bool.and_eq_true, decide_eq_true_eq] at h
      exact .overshoot _ _ he ‹_› h.1 h.2
    · rename_i h
      simp only [Bool.and_eq_true, decide_eq_true_eq, not_and, Nat.not_lt] at h
      exact .combine _ _ he ‹_› h

/-- Every engine step is one of the moves. -/
theorem microStep_move (s : State) : EngineMove s (microStep s) := by
  unfold microStep
  split <;> rename_i he
  · exact .quiet (by rw [he]; rfl)
  · exact scanStep_move he
  · exact readField_move (by simp [readers, he]) fun v h => .hdrV v he h
  · exact readField_move (by simp [readers, he]) fun t h => .hdrT t he h
  · exact readField_move (by simp [readers, he]) fun g h => .litG g he h
  · exact readField_move (by simp [readers, he]) fun i h => .opI i he h
  · refine readField_move (by simp [readers, he]) fun len h => ?_
    unfold withOperator
    split
    · rename_i op ho
      rw [ofTypeId_eq_some] at ho
      change EngineMove s (.next (Machine.opL0 op len s))
      rcases pushFrame_cases { op := op, lt := .l0, lim := s.pos + 15 + len.setWidth 32, n := 0, r := initVal op }
        (s.pos + 15) s with ⟨hd, e⟩ | ⟨hd, e⟩ <;> rw [Machine.opL0, e]
      · exact .full 15 (by simp [he]) h.1 (by rw [ho]; exact typeId_ne_lit op) hd
      · exact .opL0 op len he h ho hd
    · exact .noOperator (.inl he) (ofTypeId_eq_none.1 ‹_›)
  · refine readField_move (by simp [readers, he]) fun cnt h => ?_
    unfold withOperator
    split
    · rename_i op ho
      rw [ofTypeId_eq_some] at ho
      change EngineMove s (.next (Machine.opL1 op cnt s))
      rcases pushFrame_cases { op := op, lt := .l1, lim := cnt.setWidth 32, n := 0, r := initVal op }
        (s.pos + 11) s with ⟨hd, e⟩ | ⟨hd, e⟩ <;> rw [Machine.opL1, e]
      · exact .full 11 (by simp [he]) h.1 (by rw [ho]; exact typeId_ne_lit op) hd
      · exact .opL1 op cnt he h ho hd
    · exact .noOperator (.inr he) (ofTypeId_eq_none.1 ‹_›)
  · exact nextStep_move he
  · exact closeStep_move he
  · exact retStep_move he
  · exact .quiet (by rw [he]; rfl)
  · exact .quiet (by rw [he]; rfl)

/-! ### Several steps -/

/-- In IDLE, DONE and ERROR the engine stays (R312). -/
theorem microStep_quiet {s : State} (h : s.es.busy = false) : microStep s = .next s := by
  cases he : s.es <;> simp [he, Micro.busy, Micro.stateCode] at h <;> simp [microStep, he]

theorem engineRun_succ {s t : State} (h : microStep s = .next t) (n : Nat) :
    engineRun (n + 1) s = engineRun n t := by
  simp [engineRun, h]

theorem engineRun_quiet {s : State} (h : s.es.busy = false) (n : Nat) : engineRun n s = .next s := by
  induction n with
  | zero => rfl
  | succ n ih => rw [engineRun_succ (microStep_quiet h), ih]

/-- Runs compose. -/
theorem engineRun_add {n : Nat} {s t : State} (h : engineRun n s = .next t) (m : Nat) :
    engineRun (n + m) s = engineRun m t := by
  induction n generalizing s with
  | zero =>
    cases h
    rw [Nat.zero_add]
  | succ n ih =>
    rw [show n + 1 + m = (n + m) + 1 by omega]
    simp only [engineRun] at h ⊢
    rcases hm : microStep s with u | f | r <;> rw [hm] at h <;> simp at h
    exact ih h

end Sys2Proof.Laws
end

