-- ==== Sys2Proof/Laws/Host.lean ====
section
/-! SUPPORT. Everything one host access can do, said once. -/

namespace Sys2Proof.Laws

open Sys2Proof Sys2Proof.Machine

/-- One host write's guard and effect, a constructor for each. -/
inductive WriteMove (s : State) : State → Prop
  | ignored : WriteMove s s
  | start : s.es.busy = false → WriteMove s (startRun s)
  | len (v : Word) : s.es.busy = false → WriteMove s { s with len := v }
  | ibuf (i : Nat) (b : Byte) : s.es.busy = false → i < s.params.maxChars →
      WriteMove s { s with ibuf := Memory.write s.ibuf i b }

theorem ibufIndex_lt {p : Config.Params} {off i : Nat} (h : ibufIndex p off = some i) : i < p.maxChars := by
  unfold ibufIndex at h
  split at h
  · rename_i hr
    have := Option.some.inj h
    omega
  · exact absurd h (by simp)

theorem regWrite_move (v : Word) (s : State) (r : HostReg) : WriteMove s (regWrite v s r) := by
  unfold regWrite
  split <;> try exact .ignored
  · unfold ctrlWrite
    split
    · rename_i h
      simp only [Bool.and_eq_true, Bool.not_eq_true'] at h
      exact .start h.2
    · exact .ignored
  · unfold lenWrite
    split
    · exact .ignored
    · rename_i h
      exact .len v (by simpa using h)

theorem ibufWrite_move (i : Nat) (b : Byte) (s : State) (hi : i < s.params.maxChars) : WriteMove s (ibufWrite i b s) := by
  unfold ibufWrite
  split
  · exact .ignored
  · rename_i h
    exact .ibuf i b (by simpa using h) hi

/-- A host read is refused, or answers a word and does nothing else. -/
theorem hostRead_move (off size : Nat) (s : State) :
    (∃ v, hostRead off size s = .next { s with reply := v }) ∨ hostRead off size s = .refused (.hostAccess off size) := by
  unfold hostRead
  split
  · split
    · exact .inl ⟨_, rfl⟩
    · split
      · exact .inl ⟨_, rfl⟩
      · exact .inr rfl
  · split
    · split
      · exact .inl ⟨_, rfl⟩
      · split
        · exact .inl ⟨_, rfl⟩
        · exact .inr rfl
    · exact .inr rfl

/-- A host write is refused, or is one of the moves. -/
theorem hostWrite_move (off size : Nat) (v : Word) (s : State) :
    (∃ t, hostWrite off size v s = .next t ∧ WriteMove s t) ∨
      hostWrite off size v s = .refused (.hostAccess off size) := by
  unfold hostWrite
  split
  · split
    · exact .inl ⟨_, rfl, regWrite_move v s _⟩
    · split
      · exact .inl ⟨_, rfl, .ignored⟩
      · exact .inr rfl
  · split
    · split
      · rename_i hi
        exact .inl ⟨_, rfl, ibufWrite_move _ _ s (ibufIndex_lt hi)⟩
      · split
        · exact .inl ⟨_, rfl, .ignored⟩
        · exact .inr rfl
    · exact .inr rfl

end Sys2Proof.Laws
end

