-- ==== Sys2Proof/Laws/PerInstr.lean ====
section
/-! SUPPORT. Statements about every instruction as syntax, one lemma per constructor. -/

namespace Sys2Proof.Laws.EncodeLength

open Sys2Proof

/-- A packet's own fields fill the bits that its field widths add up to, first field first (R92, R102). -/
def Statement (i : Instr) : Prop := (encode i).length = bitLength i ∧ (fieldWidths i).sum = bitLength i

theorem lit (v : BitVec 3) (groups : List (BitVec 4)) : Statement (.lit v groups) := by
  refine ⟨by simp [encode, bitLength, encodeGroups_length], ?_⟩
  simp [fieldWidths, bitLength]
  omega

theorem sumB (v : BitVec 3) (len : BitVec 15) : Statement (.sumB v len) := ⟨by simp [encode, bitLength], rfl⟩

theorem sumN (v : BitVec 3) (cnt : BitVec 11) : Statement (.sumN v cnt) := ⟨by simp [encode, bitLength], rfl⟩

theorem prodB (v : BitVec 3) (len : BitVec 15) : Statement (.prodB v len) := ⟨by simp [encode, bitLength], rfl⟩

theorem prodN (v : BitVec 3) (cnt : BitVec 11) : Statement (.prodN v cnt) := ⟨by simp [encode, bitLength], rfl⟩

theorem minB (v : BitVec 3) (len : BitVec 15) : Statement (.minB v len) := ⟨by simp [encode, bitLength], rfl⟩

theorem minN (v : BitVec 3) (cnt : BitVec 11) : Statement (.minN v cnt) := ⟨by simp [encode, bitLength], rfl⟩

theorem maxB (v : BitVec 3) (len : BitVec 15) : Statement (.maxB v len) := ⟨by simp [encode, bitLength], rfl⟩

theorem maxN (v : BitVec 3) (cnt : BitVec 11) : Statement (.maxN v cnt) := ⟨by simp [encode, bitLength], rfl⟩

theorem gtB (v : BitVec 3) (len : BitVec 15) : Statement (.gtB v len) := ⟨by simp [encode, bitLength], rfl⟩

theorem gtN (v : BitVec 3) (cnt : BitVec 11) : Statement (.gtN v cnt) := ⟨by simp [encode, bitLength], rfl⟩

theorem ltB (v : BitVec 3) (len : BitVec 15) : Statement (.ltB v len) := ⟨by simp [encode, bitLength], rfl⟩

theorem ltN (v : BitVec 3) (cnt : BitVec 11) : Statement (.ltN v cnt) := ⟨by simp [encode, bitLength], rfl⟩

theorem eqB (v : BitVec 3) (len : BitVec 15) : Statement (.eqB v len) := ⟨by simp [encode, bitLength], rfl⟩

theorem eqN (v : BitVec 3) (cnt : BitVec 11) : Statement (.eqN v cnt) := ⟨by simp [encode, bitLength], rfl⟩

end Sys2Proof.Laws.EncodeLength
end

