-- ==== Sys2Proof/Tests/Slice0.lean ====
section
/-! SUPPORT. Tests of the model: well-formedness, each constructor's decoding, single steps with results from the spec's
examples and rules, and witnesses for the hypotheses of the statements in Certificates/Slice0/Obligations.lean. -/

namespace Sys2Proof.Tests

open Sys2Proof Sys2Proof.Machine Sys2Proof.Safety

/-! ### Well-formedness (R93) -/

theorem test_wellFormed_refuses_lit_without_group : (Instr.lit 6 []).wellFormed = false := by decide

theorem test_wellFormed_accepts_lit : (Instr.lit 6 [7, 14, 5]).wellFormed = true := by decide

theorem test_wellFormed_accepts_zero_fields :
    (Instr.sumB 0 0).wellFormed = true ∧ (Instr.minN 0 0).wellFormed = true := by decide

/-! ### Decoding: words written out from R91 to R98, bit by bit -/

/-- A bit string written with digits 0 and 1. -/
def bits (ds : List Nat) : List Bool := ds.map fun d => decide (d = 1)

/-- R108: 110 100 1 0111 1 1110 0 0101. -/
theorem test_decode_lit :
    decode (bits [1,1,0, 1,0,0, 1,0,1,1,1, 1,1,1,1,0, 0,0,1,0,1]) = .ok (.lit 6 [7, 14, 5], []) := by decide

/-- R94: V = 5, T = 000, I = 0, L = 3. -/
theorem test_decode_sumB :
    decode (bits [1,0,1, 0,0,0, 0, 0,0,0,0,0,0,0,0,0,0,0,0,0,1,1]) = .ok (.sumB 5 3, []) := by decide

/-- R96: V = 1, T = 000, I = 1, N = 3. -/
theorem test_decode_sumN :
    decode (bits [0,0,1, 0,0,0, 1, 0,0,0,0,0,0,0,0,0,1,1]) = .ok (.sumN 1 3, []) := by decide

/-- R94: V = 1, T = 001, I = 0, L = 33. -/
theorem test_decode_prodB :
    decode (bits [0,0,1, 0,0,1, 0, 0,0,0,0,0,0,0,0,0,1,0,0,0,0,1]) = .ok (.prodB 1 33, []) := by decide

/-- R96: V = 7, T = 001, I = 1, N = 1024. -/
theorem test_decode_prodN :
    decode (bits [1,1,1, 0,0,1, 1, 1,0,0,0,0,0,0,0,0,0,0]) = .ok (.prodN 7 1024, []) := by decide

/-- R94: V = 2, T = 010, I = 0, L = 16384. -/
theorem test_decode_minB :
    decode (bits [0,1,0, 0,1,0, 0, 1,0,0,0,0,0,0,0,0,0,0,0,0,0,0]) = .ok (.minB 2 16384, []) := by decide

/-- R96: V = 4, T = 010, I = 1, N = 2047. -/
theorem test_decode_minN :
    decode (bits [1,0,0, 0,1,0, 1, 1,1,1,1,1,1,1,1,1,1,1]) = .ok (.minN 4 2047, []) := by decide

/-- R94: V = 3, T = 011, I = 0, L = 32767. -/
theorem test_decode_maxB :
    decode (bits [0,1,1, 0,1,1, 0, 1,1,1,1,1,1,1,1,1,1,1,1,1,1,1]) = .ok (.maxB 3 32767, []) := by decide

/-- R96: V = 6, T = 011, I = 1, N = 1. -/
theorem test_decode_maxN :
    decode (bits [1,1,0, 0,1,1, 1, 0,0,0,0,0,0,0,0,0,0,1]) = .ok (.maxN 6 1, []) := by decide

/-- R94: V = 1, T = 101, I = 0, L = 22. -/
theorem test_decode_gtB :
    decode (bits [0,0,1, 1,0,1, 0, 0,0,0,0,0,0,0,0,0,0,1,0,1,1,0]) = .ok (.gtB 1 22, []) := by decide

/-- R96: V = 0, T = 101, I = 1, N = 2. -/
theorem test_decode_gtN :
    decode (bits [0,0,0, 1,0,1, 1, 0,0,0,0,0,0,0,0,0,1,0]) = .ok (.gtN 0 2, []) := by decide

/-- R109: 001 110 0 000000000011011. -/
theorem test_decode_ltB :
    decode (bits [0,0,1, 1,1,0, 0, 0,0,0,0,0,0,0,0,0,0,1,1,0,1,1]) = .ok (.ltB 1 27, []) := by decide

/-- R96: V = 5, T = 110, I = 1, N = 2. -/
theorem test_decode_ltN :
    decode (bits [1,0,1, 1,1,0, 1, 0,0,0,0,0,0,0,0,0,1,0]) = .ok (.ltN 5 2, []) := by decide

/-- R94: V = 4, T = 111, I = 0, L = 1. -/
theorem test_decode_eqB :
    decode (bits [1,0,0, 1,1,1, 0, 0,0,0,0,0,0,0,0,0,0,0,0,0,0,1]) = .ok (.eqB 4 1, []) := by decide

/-- R96: V = 4, T = 111, I = 1, N = 2, the head of 9C0141080250320F1802104A08. -/
theorem test_decode_eqN :
    decode (bits [1,0,0, 1,1,1, 1, 0,0,0,0,0,0,0,0,0,1,0]) = .ok (.eqN 4 2, []) := by decide

/-- R125: a group that continues at the end of the stream is no packet. -/
theorem test_decode_rejects_cut_literal :
    decode (bits [1,1,0, 1,0,0, 1,0,1,1,1]) = .error .endsInGroup := by decide

/-! ### States -/

/-- Character codes of a hex text. -/
def text (cs : String) : List Byte := cs.toList.map fun c => BitVec.ofNat 8 c.toNat

/-- A text in IBUF and its length in LEN, before START. -/
def loaded (cs : List Byte) : State := loadText cs State.reset

/-- A run over a text with every character validated, in a micro-state at a cursor position. -/
def running (cs : List Byte) (es : Micro) (pos : Word) : State :=
  { loaded cs with nbits := BitVec.ofNat 32 (4 * cs.length), scanI := BitVec.ofNat 32 cs.length, es := es, pos := pos }

/-- D2FE28, the source's literal (R108). -/
def litText : List Byte := [0x44, 0x32, 0x46, 0x45, 0x32, 0x38]

/-- 38006F45291200, the source's LessThan (R109). -/
def ltText : List Byte := [0x33, 0x38, 0x30, 0x30, 0x36, 0x46, 0x34, 0x35, 0x32, 0x39, 0x31, 0x32, 0x30, 0x30]

theorem test_texts : litText = text "D2FE28" ∧ ltText = text "38006F45291200" := by decide

/-- The frame that R109's packet opens. -/
def ltFrame (n : BitVec 16) (r : Value) : Frame := { op := .lt, lt := .l0, lim := 49, n := n, r := r }

/-- What a step answers, as far as a test looks at it. -/
def after {α : Type} (o : Out) (look : State → α) : Option α :=
  match o with
  | .next t => some (look t)
  | .fault _ => none
  | .refused _ => none

/-! ### START and SCAN -/

/-- R120: LEN = 6 and IBUF = "D2FE28" gives nbits = 24 and es = SCAN. -/
theorem test_start :
    after (hostEvent (.write 0 4 1) (loaded litText)) (fun t => (t.nbits, t.es, t.pos)) = some (24, .scan, 0) := by decide

/-- R121: LEN = 4097 at the default MAX_CHARS. -/
theorem test_start_len_range :
    after (hostEvent (.write 0 4 1) { State.reset with len := 4097 }) (fun t => (t.es, t.errCode, t.errDetail)) =
      some (.error, 5, 0) := by decide

/-- R122: IBUF = "D2FE2G" fails at scan_i = 5 with DETAIL 0x47. -/
theorem test_scan_invalid_hex :
    after (microStep { running (text "D2FE2G") .scan 0 with scanI := 5 })
      (fun t => (t.es, t.errCode, t.errDetail, t.errPosR, t.posR)) = some (.error, 3, 0x47, 5, 0) := by decide

/-- R122: a lower-case digit is accepted. -/
theorem test_scan_lower_case :
    after (microStep { running (text "d2fe28") .scan 0 with scanI := 0 }) (fun t => (t.es, t.scanI)) =
      some (.scan, 1) := by decide

/-! ### Header and literal -/

/-- R126: at pos 0 of "D2FE28" it reads 110, so ver = 6 and pos = 3. -/
theorem test_hdrV :
    after (microStep (running litText .hdrV 0)) (fun t => (t.ver, t.pos, t.vacc, t.es)) = some (6, 3, 6, .hdrT) := by
  decide

/-- R127: at pos 3 of "D2FE28" it reads 100, so typ = 4, acc = 0, es = LIT_G and pos = 6. -/
theorem test_hdrT :
    after (microStep (running litText .hdrT 3)) (fun t => (t.typ, t.acc, t.es, t.pos)) = some (4, 0, .litG, 6) := by
  decide

/-- R141: at pos 6 of "D2FE28" it reads 10111, so acc = 7 and es stays LIT_G. -/
theorem test_litG :
    after (microStep (running litText .litG 6)) (fun t => (t.acc, t.es)) = some (7, .litG) := by decide

/-- R140: D2FE28 gives LIT v6 2021, with 21 bits read. -/
theorem test_lit_2021 :
    after (step (running litText .hdrV 0)) (fun t => (t.ret, t.pos, t.vacc, t.es)) = some (2021, 21, 6, .ret) := by decide

/-- R142, R143: a seventeenth nonzero nibble at W = 64 sets `ovf` and keeps the value modulo 2^64. -/
theorem test_lit_overflow :
    litW 64 (2 ^ 64 - 1) 1 = (2 ^ 64 - 15, true) ∧ litW 64 (2 ^ 60 - 1) 15 = (2 ^ 64 - 1, false) := by decide

/-- R125: 4 bits at the end of the stream are no literal group. -/
theorem test_litG_out_of_bits :
    after (microStep (running litText .litG 20)) (fun t => (t.es, t.errCode, t.errDetail, t.errPosR, t.pos)) =
      some (.error, 1, 5, 20, 20) := by decide

/-! ### Operators -/

/-- R151, R152: 38006F45291200 reads I = 0 and L = 27, so lim = 22 + 27 = 49. -/
theorem test_ltB_opens_its_frame :
    after (step (running ltText .hdrV 0)) (fun t => (t.frames, t.pos, t.es)) = some ([ltFrame 0 0], 22, .next) := by decide

/-- R153: SUM.N v0 with two children, 0200 in hex with padding, reads N = 2 at pos 7. -/
theorem test_sumN_opens_its_frame :
    after (step (running (text "02008") .hdrV 0)) (fun t => (t.frames, t.pos)) =
      some ([{ op := .sum, lt := .l1, lim := 2, n := 0, r := 0 }], 18) := by decide

/-- R155: after both children of 38006F45291200, pos = 49 = lim. -/
theorem test_next_closes :
    after (microStep { running ltText .next 49 with frames := [ltFrame 2 1] }) (fun t => t.es) = some .close := by decide

/-- R156: CLOSE of LT.B v1 (10, 20) gives ret = 1 and sp = 0. -/
theorem test_close_lt :
    after (microStep { running ltText .close 49 with frames := [ltFrame 2 1] }) (fun t => (t.ret, t.frames, t.es)) =
      some (1, [], .ret) := by decide

/-- R214: MIN closed with no child. -/
theorem test_close_empty_min :
    after (microStep { running ltText .close 22 with frames := [{ ltFrame 0 0 with op := .min }] })
      (fun t => (t.es, t.errCode, t.errDetail, t.errPosR)) = some (.error, 2, 3, 22) := by decide

/-- R157: the first child of 38006F45291200 returns at pos 33 < 49, so f.r = 10 and f.n = 1. -/
theorem test_ret_first_child :
    after (microStep { running ltText .ret 33 with frames := [ltFrame 0 0], ret := 10 }) (fun t => (t.frames, t.es)) =
      some ([ltFrame 1 10], .next) := by decide

/-- R157: the second child, 20, makes the comparison 10 < 20 true. -/
theorem test_ret_second_child :
    after (microStep { running ltText .ret 49 with frames := [ltFrame 1 10], ret := 20 }) (fun t => t.frames) =
      some [ltFrame 2 1] := by decide

/-- R157: a child that ends past the window. -/
theorem test_ret_overshoot :
    after (microStep { running ltText .ret 50 with frames := [ltFrame 1 10] })
      (fun t => (t.es, t.errCode, t.errDetail, t.errPosR)) = some (.error, 2, 1, 50) := by decide

/-- R227: the product 2^63 * 4 * 0 at W = 64 overflows although it is 0. -/
theorem test_product_overflow : foldChildren 64 .prod [2 ^ 63, 4, 0] = (3, 0, true) := by decide

/-- R213: an empty sum is 0 and an empty product is 1. -/
theorem test_empty_folds :
    (foldChildren 64 .sum []).2.1 = 0 ∧ (foldChildren 64 .prod []).2.1 = 1 := by decide

/-- R203: 5 and 3 compared in order, and MIN and MAX of 2, 3 and 4. -/
theorem test_folds :
    (foldChildren 64 .gt [5, 3]).2.1 = 1 ∧ (foldChildren 64 .lt [5, 3]).2.1 = 0 ∧ (foldChildren 64 .eq [5, 3]).2.1 = 0 ∧
    (foldChildren 64 .min [4, 2, 3]).2.1 = 2 ∧ (foldChildren 64 .max [2, 4, 3]).2.1 = 4 := by decide

/-! ### Results and the host -/

/-- R224: POS 21, VSUM 6 and VALUE 2021 for D2FE28. -/
theorem test_finish :
    after (microStep { running litText .ret 21 with ret := 2021, vacc := 6 })
      (fun t => (t.es, t.posR, t.vsumR, t.valueR, t.valueValid)) = some (.done, 21, 6, 2021, true) := by decide

/-- R23: STATUS is DONE with VALUE_VALID. -/
theorem test_status_done :
    after (hostEvent (.read 4 4) { State.reset with es := .done, valueValid := true }) (fun t => t.reply) = some 6 := by
  decide

/-- R40: VALUE_1 is bits 63 to 32. -/
theorem test_value_1 :
    after (hostEvent (.read 0x24 4) { State.reset with valueR := 0x500000007 }) (fun t => t.reply) = some 5 := by decide

/-- R68: a byte access to a register, and a word access off its alignment, are refused. -/
theorem test_refused_accesses :
    hostEvent (.read 0x004 1) State.reset = .refused (.hostAccess 0x004 1) ∧
    hostEvent (.read 0x002 4) State.reset = .refused (.hostAccess 0x002 4) := ⟨rfl, rfl⟩

/-- R243, R244: IBUF stores a byte in IDLE and not in BUSY. -/
theorem test_ibuf_write :
    after (hostEvent (.write 0x1003 1 0x41) State.reset) (fun t => t.ibuf) = some [(3, 0x41)] ∧
    after (hostEvent (.write 0x1003 1 0x41) { State.reset with es := .scan }) (fun t => t.ibuf) = some [] := by decide

/-- R50: an IBUF entry that nothing has written reads its free draw. -/
theorem test_ibuf_unwritten : ibufByte State.reset 5 = Config.ibufFree 0 5 := rfl

/-- R222, R223, R226: the reference over R109's packet. -/
theorem test_reference :
    (match referenceDecode 1024 (bits [0,0,1,1,1,0,0, 0,0,0,0,0,0,0,0,0,0,1,1,0,1,1, 1,1,0,1,0,0,0,1,0,1,0,
        0,1,0,1,0,0,1,0,0,0,1,0,0,1,0,0, 0,0,0,0,0,0,0]) with
      | .ok (p, rest) => some (versionSum p, evaluate p, packetBits p, rest.length)
      | .error _ => none) = some (9, some 1, 49, 7) := by decide

/-! ### Fetching a placed instruction -/

/-- R101: H7 = 0x0C, LT.B with V = 0, placed and run as the first instruction. -/
theorem test_withFetchWord :
    fetch (State.reset.withFetchWord 7 0x0C) = some (.ltB 0 0) ∧ decodeTableWord 7 0x0C = some (.ltB 0 0) := by decide

theorem test_withFetchWord_lit :
    after (step (State.reset.withFetchWord 7 0x48)) (fun t => (t.ret, t.pos, t.ver)) = some (0, 11, 4) := by decide

/-! ### Witnesses: concrete operands that meet each statement's hypotheses, at the boundary of their ranges -/

/-- The bits of D2FE28 (R108) and of 38006F45291200 (R109). -/
def litBits : List Bool := bits [1,1,0,1,0,0,1,0,1,1,1,1,1,1,1,0,0,0,1,0,1,0,0,0]

/-- R109's packet as a tree. -/
def ltTree : Packet := .operator 1 .lt .l0 [.literal 6 [10], .literal 2 [1, 4]]

/-- A run with one frame open, and another state of the run otherwise. -/
def inFrame (es : Micro) (pos : Word) (f : Frame) : State := { running ltText es pos with frames := [f] }

/-- A machine whose frame stack holds one frame, and it is there. -/
def fullStack (cs : List Byte) : State :=
  { running cs .hdrV 0 with params := { Config.defaults with maxDepth := 1 }, frames := [ltFrame 0 0] }

theorem test_witness_SevenBitsMatchOneRow : 0 < 128 ∧ 127 < 128 := by decide

theorem test_witness_DecodeAfterEncodeIsTheInstruction :
    (Instr.lit 7 [15]).wellFormed = true ∧ (Instr.eqN 0 2047).wellFormed = true := by decide

theorem test_witness_EncodeAfterDecodeIsTheBits :
    decode litBits = .ok (.lit 6 [7, 14, 5], [false, false, false]) := by decide

theorem test_witness_OnlyStreamsThatEndAreRejected :
    decode [] = .error .endsInVersion ∧ decode (bits [0,0,0, 0,0,0]) = .error .endsInLengthTypeId ∧
    decode (bits [0,0,0, 0,0,0, 0, 0,0,0,0,0,0,0,0,0,0,0,0,0,0]) = .error .endsInTotalLength := by decide

theorem test_witness_EncodedPacketParsesBack :
    packetWf ltTree = true ∧ packetDepth ltTree + 0 ≤ 1 ∧ (packetEncode ltTree).length < 50 := by decide

theorem test_witness_StepRunsTheDecodedInstruction :
    (running litText .hdrV 0).schedule = [] ∧ (running litText .hdrV 0).es = .hdrV ∧
    bitsAhead (running litText .hdrV 0) = some litBits ∧
    decode litBits = .ok (.lit 6 [7, 14, 5], [false, false, false]) ∧ (Instr.lit 6 [7, 14, 5]).wellFormed = true := by
  decide

theorem test_witness_StepTakesOneEvent :
    { State.reset with schedule := [.engine] }.schedule = .engine :: [] ∧
    { State.reset with schedule := [.host (.read 4 4)] }.schedule = .host (.read 4 4) :: [] ∧
    { State.reset with schedule := [.reset, .engine] }.schedule = .reset :: [.engine] ∧
    State.reset.schedule = [] ∧ fetch State.reset = none := by decide

theorem test_witness_InstructionIsItsMicroSteps :
    (Instr.ltB 1 27).wellFormed = true ∧ (running ltText .hdrV 0).es = .hdrV ∧
    streamBits (running ltText .hdrV 0) 0 22 = some (encode (.ltB 1 27)) ∧
    streamBits (running ltText .hdrV 0) 0 (min 22 (56 - 0)) = some ((encode (.ltB 1 27)).take (56 - 0)) := by decide

/-- The stream ends inside the instruction: D2FE28 from bit 16 on holds MIN.B's first eight bits. -/
theorem test_witness_InstructionIsItsMicroSteps_cut :
    (Instr.minB 1 0).wellFormed = true ∧ (running litText .hdrV 16).nbits.toNat - (running litText .hdrV 16).pos.toNat = 8 ∧
    streamBits (running litText .hdrV 16) 16 (min (bitLength (.minB 1 0)) 8) = some ((encode (.minB 1 0)).take 8) ∧
    after (exec (.minB 1 0) (running litText .hdrV 16)) (fun t => (t.errCode, t.errDetail, t.errPosR)) = some (1, 15, 23) ∧
    after (engineRun 4 (running litText .hdrV 16)) (fun t => (t.errCode, t.errDetail, t.errPosR)) = some (1, 15, 23) := by
  decide

/-- The literal's last bit is the stream's last bit. -/
theorem test_witness_LitGivesItsValue :
    ([7, 14, 5] : List (BitVec 4)) ≠ [] ∧
    (running litText .hdrV 3).pos.toNat + (6 + 5 * 3) ≤ (running litText .hdrV 3).nbits.toNat ∧
    (running litText .hdrV 3).pos.toNat + (6 + 5 * 3) = (running litText .hdrV 3).nbits.toNat := by decide

/-- The operator's own bits end where the stream ends, and the stack has room for one frame. -/
def tightB : State := { running litText .hdrV 2 with params := { Config.defaults with maxDepth := 1 } }

/-- The same for a `.N` operator. -/
def tightN : State := { running litText .hdrV 6 with params := { Config.defaults with maxDepth := 1 } }

theorem test_witness_SumAndProductOpenFrames :
    (tightB.pos.toNat + 22 ≤ tightB.nbits.toNat ∧ tightB.frames.length < tightB.params.maxDepth) ∧
    (tightN.pos.toNat + 18 ≤ tightN.nbits.toNat ∧ tightN.frames.length < tightN.params.maxDepth) := by decide

theorem test_witness_MinimumAndMaximumOpenFrames :
    (tightB.pos.toNat + 22 ≤ tightB.nbits.toNat ∧ tightB.frames.length < tightB.params.maxDepth) ∧
    (tightN.pos.toNat + 18 ≤ tightN.nbits.toNat ∧ tightN.frames.length < tightN.params.maxDepth) := by decide

theorem test_witness_ComparisonsOpenFrames :
    (tightB.pos.toNat + 22 ≤ tightB.nbits.toNat ∧ tightB.frames.length < tightB.params.maxDepth) ∧
    (tightN.pos.toNat + 18 ≤ tightN.nbits.toNat ∧ tightN.frames.length < tightN.params.maxDepth) := by decide

theorem test_witness_FullStackRaisesDepthExceeded :
    (Instr.eqB 1 27 ∈ operatorsB 1 27 ∧ (fullStack litText).pos.toNat + 22 ≤ (fullStack litText).nbits.toNat ∧
      (fullStack litText).frames.length = (fullStack litText).params.maxDepth) ∧
    (Instr.sumN 1 2 ∈ operatorsN 1 2 ∧ (fullStack litText).pos.toNat + 18 ≤ (fullStack litText).nbits.toNat) := by decide

theorem test_witness_CutShortInstructionRaisesOutOfBits :
    (running litText .hdrV 22).pos.toNat ≤ (running litText .hdrV 22).nbits.toNat ∧ (Instr.lit 0 [1]).wellFormed = true ∧
    firstMissing (24 - 22) 0 (fieldWidths (.lit 0 [1])) = some (0, 3) ∧
    firstMissing (24 - 3) 0 (fieldWidths (.minB 0 0)) = some (7, 15) ∧
    firstMissing (24 - 18) 0 (fieldWidths (.lit 0 [1])) = some (6, 5) ∧
    firstMissing (24 - 18) 0 (fieldWidths (.gtN 0 2)) = some (6, 1) := by decide

theorem test_witness_LitLeavesTheRest :
    after (exec (.lit 6 [7, 14, 5]) (running litText .hdrV 0)) (fun t => t.es) = some .ret ∧
    after (exec (.lit 6 [7, 14, 5]) (running litText .hdrV 4)) (fun t => t.es) = some .error := by decide

theorem test_witness_OperatorsLeaveTheRest :
    Instr.maxN 1 2 ∈ operatorsB 1 27 ++ operatorsN 1 2 ∧
    after (exec (.maxN 1 2) (running litText .hdrV 6)) (fun t => t.es) = some .next ∧
    after (exec (.maxN 1 2) (running litText .hdrV 7)) (fun t => t.es) = some .error := by decide

/-! The returns: a child that ends exactly at the window's end, for each operator. -/

theorem test_witness_ReturnIntoSumAndProduct :
    (inFrame .ret 49 { ltFrame 1 9 with op := .sum }).es = .ret ∧
    (inFrame .ret 49 { ltFrame 1 9 with op := .sum }).frames = { ltFrame 1 9 with op := .sum } :: [] ∧
    (inFrame .ret 49 { ltFrame 1 9 with op := .sum }).pos.toNat ≤ (ltFrame 1 9).lim.toNat ∧
    ({ ltFrame 1 9 with op := .sum } : Frame).op = .sum ∧ ({ ltFrame 1 9 with op := .prod } : Frame).op = .prod := by
  decide

theorem test_witness_ReturnIntoMinimumAndMaximum :
    (inFrame .ret 49 { ltFrame 0 0 with op := .min }).es = .ret ∧
    (inFrame .ret 49 { ltFrame 0 0 with op := .min }).frames = { ltFrame 0 0 with op := .min } :: [] ∧
    (inFrame .ret 49 { ltFrame 0 0 with op := .min }).pos.toNat ≤ (ltFrame 0 0).lim.toNat ∧
    (ltFrame 0 0).n = 0 ∧ (ltFrame 1 0).n ≠ 0 ∧
    ({ ltFrame 0 0 with op := .min } : Frame).op = .min ∧ ({ ltFrame 0 0 with op := .max } : Frame).op = .max := by decide

theorem test_witness_ReturnIntoComparisons :
    (inFrame .ret 49 (ltFrame 1 9)).es = .ret ∧ (inFrame .ret 49 (ltFrame 1 9)).frames = ltFrame 1 9 :: [] ∧
    (inFrame .ret 49 (ltFrame 1 9)).pos.toNat ≤ (ltFrame 1 9).lim.toNat ∧ (ltFrame 1 9).op = .lt ∧
    (ltFrame 0 0).n = 0 ∧ (ltFrame 1 9).n = 1 ∧ (ltFrame 2 1).n ≠ 0 ∧ (ltFrame 2 1).n ≠ 1 := by decide

theorem test_witness_FoldIsTheOperatorsValue :
    0 < 64 ∧ arityOk .min [3].length = true ∧ arityOk .gt [5, 3].length = true ∧ arityOk .sum 0 = true ∧
    [5, 3].length < 2 ^ 16 ∧ opOverflows 64 .prod [2 ^ 32, 2 ^ 31] = false := by decide

theorem test_witness_OvershootIsMalformed :
    (inFrame .ret 50 (ltFrame 1 9)).es = .ret ∧ (inFrame .ret 50 (ltFrame 1 9)).frames = ltFrame 1 9 :: [] ∧
    (ltFrame 1 9).lt = .l0 ∧ (ltFrame 1 9).lim.toNat < (inFrame .ret 50 (ltFrame 1 9)).pos.toNat := by decide

theorem test_witness_WrongArityIsMalformed :
    (inFrame .close 22 (ltFrame 1 9)).es = .close ∧ (inFrame .close 22 (ltFrame 1 9)).frames = ltFrame 1 9 :: [] ∧
    ({ ltFrame 0 0 with op := .max } : Frame).op = .max ∧ (ltFrame 0 0).n = 0 ∧ (ltFrame 1 9).op = .lt ∧
    (ltFrame 1 9).n ≠ 2 ∧ (ltFrame 3 1).n ≠ 2 := by decide

theorem test_witness_CloseGivesTheRunningResult :
    (inFrame .close 49 (ltFrame 2 1)).es = .close ∧ (inFrame .close 49 (ltFrame 2 1)).frames = ltFrame 2 1 :: [] ∧
    (ltFrame 2 1).op = .lt ∧ (ltFrame 2 1).n = 2 ∧ ({ ltFrame 1 9 with op := .min } : Frame).n ≠ 0 := by decide

theorem test_witness_NextTestsBeforeEachChild_boundary :
    (inFrame .next 49 (ltFrame 2 1)).es = .next ∧ (inFrame .next 49 (ltFrame 2 1)).frames = ltFrame 2 1 :: [] ∧
    (ltFrame 2 1).lt = .l0 ∧ (inFrame .next 49 (ltFrame 2 1)).pos = (ltFrame 2 1).lim ∧
    (inFrame .next 48 (ltFrame 1 1)).pos ≠ (ltFrame 1 1).lim ∧
    ({ ltFrame 0 0 with lt := .l1, lim := 0 } : Frame).n.toNat = ({ ltFrame 0 0 with lt := .l1, lim := 0 } : Frame).lim.toNat := by
  decide

theorem test_witness_ScanValidatesOneCharacter :
    (running litText .scan 0).es = .scan ∧ (running litText .scan 0).scanI.toNat = (running litText .scan 0).nbits.toNat / 4 ∧
    (5 : Word).toNat ≠ (running litText .scan 0).nbits.toNat / 4 ∧ 5 < (running litText .scan 0).params.maxChars ∧
    ibufByte (running litText .scan 0) 5 = 0x38 ∧ isHexCode 0x38 ∧ ¬isHexCode 0x47 ∧ ¬isHexCode 0x2F ∧ ¬isHexCode 0x3A ∧
    isHexCode 0x66 ∧ ¬isHexCode 0x67 ∧ ¬isHexCode 0x40 ∧ ¬isHexCode 0x60 := by
  refine ⟨rfl, rfl, by decide, by decide, rfl, ?_⟩
  unfold isHexCode
  decide

theorem test_witness_HeaderReadsTheVersion :
    (running litText .hdrV 21).es = .hdrV ∧ (running litText .hdrV 21).pos.toNat + 3 ≤ (running litText .hdrV 21).nbits.toNat ∧
    streamBits (running litText .hdrV 21) 21 3 = some [false, false, false] ∧
    (running litText .hdrV 22).nbits.toNat < (running litText .hdrV 22).pos.toNat + 3 ∧
    after (microStep { running litText .scan 0 with scanI := 6 }) (fun t => t.es) = some .hdrV ∧
    after (microStep (inFrame .next 33 (ltFrame 1 10))) (fun t => t.es) = some .hdrV := by decide

theorem test_witness_HeaderDispatchesOnTheTypeId :
    (running litText .hdrT 3).es = .hdrT ∧ (running litText .hdrT 3).pos.toNat + 3 ≤ (running litText .hdrT 3).nbits.toNat ∧
    streamBits (running litText .hdrT 3) 3 3 = some [true, false, false] ∧
    streamBits (running ltText .hdrT 3) 3 3 = some [true, true, false] ∧
    (running litText .hdrT 22).nbits.toNat < (running litText .hdrT 22).pos.toNat + 3 := by decide

theorem test_witness_LiteralGroupAppendsFourBits :
    (running litText .litG 6).es = .litG ∧ (running litText .litG 6).pos.toNat + 5 ≤ (running litText .litG 6).nbits.toNat ∧
    streamBits (running litText .litG 6) 6 5 = some [true, false, true, true, true] ∧
    streamBits (running litText .litG 16) 16 5 = some [false, false, true, false, true] ∧
    (running litText .litG 20).nbits.toNat < (running litText .litG 20).pos.toNat + 5 := by decide

theorem test_witness_LengthTypeIdIsRead :
    (running ltText .opI 6).es = .opI ∧ (running ltText .opI 6).pos.toNat + 1 ≤ (running ltText .opI 6).nbits.toNat ∧
    streamBits (running ltText .opI 6) 6 1 = some [false] ∧
    (running ltText .opI 56).nbits.toNat < (running ltText .opI 56).pos.toNat + 1 := by decide

theorem test_witness_LengthFieldsOpenTheFrame :
    ((running ltText .opL0 7).es = .opL0 ∧ (running ltText .opL0 7).pos.toNat + 15 ≤ (running ltText .opL0 7).nbits.toNat ∧
      streamBits (running ltText .opL0 7) 7 15 = some (bits [0,0,0,0,0,0,0,0,0,0,1,1,0,1,1]) ∧
      { running ltText .opL0 7 with typ := 6 }.typ = Op.typeId .lt ∧
      (running ltText .opL0 7).frames.length < (running ltText .opL0 7).params.maxDepth ∧
      (fullStack ltText).frames.length = (fullStack ltText).params.maxDepth) ∧
    ((running litText .opL1 13).es = .opL1 ∧
      (running litText .opL1 13).pos.toNat + 11 ≤ (running litText .opL1 13).nbits.toNat ∧
      streamBits (running litText .opL1 13) 13 11 = some (bits [1,1,0,0,0,1,0,1,0,0,0])) ∧
    (running litText .opL0 10).nbits.toNat < (running litText .opL0 10).pos.toNat + 15 ∧
    (running litText .opL1 14).nbits.toNat < (running litText .opL1 14).pos.toNat + 11 := by decide

theorem test_witness_FailedReadConsumesNothing :
    ((running litText .opL1 14).es, 11) ∈ [(Micro.hdrV, 3), (Micro.hdrT, 3), (Micro.litG, 5), (Micro.opI, 1),
      (Micro.opL0, 15), (Micro.opL1, 11)] ∧
    (running litText .opL1 14).nbits.toNat < (running litText .opL1 14).pos.toNat + 11 ∧
    (running litText .opI 24).nbits.toNat < (running litText .opI 24).pos.toNat + 1 := by decide

theorem test_witness_CursorOnlyAdvances :
    (running litText .litG 19).pos.toNat ≤ (running litText .litG 19).nbits.toNat ∧
    after (microStep (running litText .litG 19)) (fun t => t.pos.toNat) = some 24 := by decide

theorem test_witness_StartBeginsARun :
    (loaded litText).es.busy = false ∧ (1#32).getLsbD 0 = true ∧
    { State.reset with len := 4096 }.len.toNat ≤ { State.reset with len := 4096 }.params.maxChars := by decide

theorem test_witness_StartRejectsLongInput :
    { State.reset with len := 4097 }.es.busy = false ∧ (1#32).getLsbD 0 = true ∧
    { State.reset with len := 4097 }.params.maxChars < { State.reset with len := 4097 }.len.toNat := by decide

theorem test_witness_FinishLatchesTheResults :
    (running litText .ret 21).es = .ret ∧ (running litText .ret 21).frames = [] ∧ (running litText .ret 21).ovf = false ∧
    { running litText .ret 21 with ovf := true }.ovf = true := by decide

theorem test_witness_RaiseWritesOnlyTheErrorRegisters :
    (running litText .litG 20).es ≠ .error ∧
    after (microStep (running litText .litG 20)) (fun t => t.es) = some .error := by decide

theorem test_witness_QuiescentStatesKeepEverything :
    State.reset.es.busy = false ∧ (running litText .hdrV 0).es.busy = true := by decide

theorem test_witness_OverflowFlagIsSticky :
    { running litText .litG 6 with ovf := true }.ovf = true ∧
    after (microStep { running litText .litG 6 with ovf := true }) (fun t => t.es) = some .litG ∧
    after (exec (.ltB 1 27) { running ltText .hdrV 0 with ovf := true }) (fun t => t.es) = some .next := by decide

theorem test_witness_EngineNeverWritesItsInput :
    after (microStep (running litText .litG 6)) (fun t => t.es) = some .litG ∧
    after (exec (.ltB 1 27) (running ltText .hdrV 0)) (fun t => t.es) = some .next := by decide

theorem test_witness_IgnoredHostWrites :
    (running litText .hdrV 0).es.busy = true ∧ 4095 < (running litText .hdrV 0).params.maxChars ∧
    after (hostEvent (.write 0x1000 1 0x41) (running litText .hdrV 0)) (fun t => t.es) = some .hdrV ∧
    (0x018 : Nat) ∈ [0x004, 0x008, 0x00C, 0x014, 0x018] ∧ 1 < State.reset.params.width / 32 ∧
    (0xFFFFFFFE#32).getLsbD 0 = false ∧ State.reset.params.legal = true ∧ 0x01C ≤ 0x01C ∧ 0x01C % 4 = 0 := by decide

theorem test_witness_HostReadsHaveNoSideEffect :
    after (hostEvent (.read 0x010 4) (loaded litText)) (fun t => t.reply) = some 6 := by decide

theorem test_witness_RegisterReads : 1 < State.reset.params.width / 32 := by decide

theorem test_witness_UnmappedOffsetsReadZero :
    State.reset.params.legal = true ∧ (0x01C ≤ 0x01F ∧ 0x01F < 0x020) ∧
    (0x020 + 4 * (State.reset.params.width / 32) ≤ 0x028 ∧ 0x028 < 0x1000 ∧ 0x028 % 4 = 0) ∧
    0x1000 + State.reset.params.maxChars ≤ 0x2000 := by decide

theorem test_witness_OtherAccessesAreRefused :
    State.reset.params.legal = true ∧ refusedAccess State.reset.params 0x01C 2 ∧
    refusedAccess State.reset.params 0x01D 4 ∧ refusedAccess State.reset.params 0x01B 1 ∧
    refusedAccess State.reset.params 0x027 1 ∧ ¬refusedAccess State.reset.params 0x028 1 ∧
    refusedAccess State.reset.params 0x1FFC 4 ∧ ¬refusedAccess State.reset.params 0x2000 4 :=
  ⟨by decide, by decide, by decide, by decide, by decide, by decide, by decide, by decide⟩

theorem test_witness_LenWriteStores :
    State.reset.es.busy = false ∧ (running litText .hdrV 0).es.busy = true := by decide

theorem test_witness_IbufWriteReadsBack :
    State.reset.es.busy = false ∧ 4095 < State.reset.params.maxChars ∧ Memory.wf (loaded litText).ibuf = true ∧
    (4094 : Nat) ≠ 4095 := by decide

theorem test_witness_HardResetFromAnyState :
    { running litText .litG 6 with schedule := [.reset, .engine] }.schedule = .reset :: [.engine] := by decide

/-! Consistent states: D2FE28 with its literal's first group read, the same before START, and 38006F45291200 after its
second child. -/

/-- The run of D2FE28 at its second group. -/
def midRun : State := { running litText .litG 11 with typ := 4, ver := 6, vacc := 6, acc := 7 }

theorem test_witness_hexUpTo : hexUpTo midRun 6 := by
  intro i hi
  match i, hi with
  | 0, _ => exact ⟨13, rfl⟩
  | 1, _ => exact ⟨2, rfl⟩
  | 2, _ => exact ⟨15, rfl⟩
  | 3, _ => exact ⟨14, rfl⟩
  | 4, _ => exact ⟨2, rfl⟩
  | 5, _ => exact ⟨8, rfl⟩

theorem test_witness_midRun_consistent : Consistent midRun where
  legal := by decide
  memory := ⟨by decide, by decide⟩
  values := ⟨by decide, by decide, by decide, nofun⟩
  results := ⟨⟨rfl, rfl, rfl⟩, ⟨rfl, rfl, rfl, rfl⟩, rfl⟩
  run _ :=
    { lenFits := by decide, nbitsIs := by decide, posFits := by decide, scanFits := nofun
      hexFits := fun _ => test_witness_hexUpTo, depthFits := by decide, framesFit := by decide
      versionsFit := by decide, typeFit := rfl, topFit := trivial }

/-- The same machine before START, its input loaded. -/
theorem test_witness_loaded_consistent : Consistent (loaded litText) where
  legal := by decide
  memory := ⟨by decide, by decide⟩
  values := ⟨by decide, by decide, by decide, nofun⟩
  results := ⟨⟨rfl, rfl, rfl⟩, ⟨rfl, rfl, rfl, rfl⟩, rfl⟩
  run := nofun

/-- The run of 38006F45291200 after both children. -/
def ltRun : State := { inFrame .next 49 (ltFrame 2 1) with typ := 4, vacc := 9 }

theorem test_witness_ltRun_consistent : Consistent ltRun where
  legal := by decide
  memory := ⟨by decide, by decide⟩
  values := ⟨by decide, by decide, by decide, by decide⟩
  results := ⟨⟨rfl, rfl, rfl⟩, ⟨rfl, rfl, rfl, rfl⟩, rfl⟩
  run _ :=
    { lenFits := by decide, nbitsIs := by decide, posFits := by decide, scanFits := nofun
      hexFits := fun _ i hi => (Laws.hexval_of_streamBits (s := ltRun) (a := 0) (n := 56) (bs := packetEncode ltTree ++
        List.replicate 7 false) (by decide) (k := 4 * i) (by omega) (by
          have : i < 14 := hi
          omega)).2.imp fun d h => by rwa [show 4 * i / 4 = i by omega] at h
      depthFits := by decide, framesFit := by decide, versionsFit := by decide, typeFit := trivial
      topFit := fun _ => by decide }

theorem test_witness_NextTestsBeforeEachChild :
    ltRun.es = .next ∧ ltRun.frames = ltFrame 2 1 :: [] ∧ Consistent ltRun ∧ (ltFrame 2 1).lt = .l0 :=
  ⟨rfl, rfl, test_witness_ltRun_consistent, rfl⟩

theorem test_witness_StepKeepsConsistency :
    Consistent midRun ∧ after (step midRun) (fun t => (t.es, t.pos)) = some (.litG, 16) :=
  ⟨test_witness_midRun_consistent, by decide⟩

theorem test_witness_ConsistentMachineNeverFaults : Consistent midRun ∧ Consistent (loaded litText) :=
  ⟨test_witness_midRun_consistent, test_witness_loaded_consistent⟩

/-- The same machine with a byte access to ERR due (R68), and with a read of STATUS due. -/
theorem test_witness_ConsistentMachineNeverFaults_access :
    accessDue { midRun with schedule := [.host (.read 0x008 1)] } 0x008 1 ∧ refusedAccess midRun.params 0x008 1 ∧
    step { midRun with schedule := [.host (.read 0x008 1)] } = .refused (.hostAccess 0x008 1) ∧
    accessDue { midRun with schedule := [.host (.write 0x000 4 1)] } 0x000 4 ∧ ¬refusedAccess midRun.params 0x000 4 :=
  ⟨⟨[], .inl rfl⟩, .inr (.inr (.inl ⟨rfl, .inl (by decide)⟩)), rfl, ⟨[], .inr ⟨1, rfl⟩⟩, by decide⟩

theorem test_witness_ResultsReadZeroWhileBusy :
    Consistent midRun ∧ busy midRun ∧ (0x018 : Nat) ∈ [0x008, 0x00C, 0x014, 0x018] ∧ 1 < midRun.params.width / 32 :=
  ⟨test_witness_midRun_consistent, rfl, by decide, by decide⟩

theorem test_witness_DepthErrorNeedsDeepStream :
    Consistent midRun ∧ busy midRun ∧ midRun.nbits.toNat / 18 ≤ midRun.params.maxDepth ∧
    after (microStep midRun) (fun t => t.errCode) = some 0 :=
  ⟨test_witness_midRun_consistent, rfl, by decide, by decide⟩

theorem test_witness_ValuesNeverSteerTheEngine :
    sameButValues midRun { midRun with params := { midRun.params with width := 96 }, acc := 2 ^ 90, ovf := true } ∧
    after (microStep midRun) (fun t => t.es) = some .litG := by
  refine ⟨?_, by decide⟩
  unfold sameButValues
  decide

theorem test_witness_EveryRunEnds :
    Consistent (loaded litText) ∧ ¬busy (loaded litText) ∧ (loaded litText).len.toNat ≤ (loaded litText).params.maxChars :=
  ⟨test_witness_loaded_consistent, nofun, by decide⟩

/-- An input that decodes, D2FE28, and one that does not, D2 (R228). -/
theorem test_witness_EngineMatchesReference :
    (loaded litText).params.legal = true ∧ ¬busy (loaded litText) ∧
    (loaded litText).len.toNat ≤ (loaded litText).params.maxChars ∧
    streamBits (loaded litText) 0 (4 * (loaded litText).len.toNat) = some litBits ∧
    (match referenceDecode 1024 litBits with
      | .ok (p, _) => some (packetBits p)
      | .error _ => none) = some 21 ∧
    streamBits (loaded (text "D2")) 0 8 = some (bits [1,1,0,1,0,0,1,0]) ∧
    (match referenceDecode 1024 (bits [1,1,0,1,0,0,1,0]) with
      | .ok _ => none
      | .error e => parseCode e) = some 1 :=
  ⟨by decide, nofun, by decide, by decide, by decide, by decide, by decide⟩

end Sys2Proof.Tests
end

section
/-! How `step` chooses what to run: the next fixed event, the packet at the cursor, or one micro-step. -/

namespace Sys2Proof.Proofs

open Sys2Proof Sys2Proof.Machine

/-! ### The step and the schedule -/

theorem step_eq_runEvent {s : State} {e : Event} {es : List Event} (hs : s.schedule = e :: es) :
    step s = runEvent e { s with schedule := es } := by
  simp only [step, hs]

theorem step_eq_exec {s : State} {i : Instr} (hs : s.schedule = []) (hf : fetch s = some i) : step s = exec i s := by
  simp only [step, hs, hf]

theorem step_eq_microStep {s : State} (hs : s.schedule = []) (hf : fetch s = none) : step s = microStep s := by
  simp only [step, hs, hf]

/-! ### The packet at the cursor -/

/-- R128: a packet is fetched exactly where one is due and the bits ahead decode to a well-formed instruction. -/
theorem fetch_eq_some_iff {s : State} {i : Instr} :
    fetch s = some i ↔
      s.es = .hdrV ∧ ∃ bits rest, bitsAhead s = some bits ∧ decode bits = .ok (i, rest) ∧ i.wellFormed = true := by
  constructor
  · intro hf
    unfold fetch at hf
    split at hf
    case isTrue hes =>
      split at hf
      case h_1 => cases hf
      case h_2 bits hb =>
        split at hf
        case h_1 j rest hd =>
          obtain ⟨hwf, rfl⟩ : j.wellFormed = true ∧ j = i := by simpa using hf
          exact ⟨hes, bits, rest, hb, hd, hwf⟩
        case h_2 => cases hf
    case isFalse => cases hf
  · rintro ⟨hes, bits, rest, hb, hd, hwf⟩
    simp only [fetch, hes, hb, hd, hwf, if_true]

/-! ### The obligations -/

/-- Settles O7: the packet at the cursor is what `fetch` answers, and the step is its `exec`. -/
theorem stepRunsTheDecodedInstruction : Obligations.StepRunsTheDecodedInstruction := by
  intro s i bits rest hs hes hb hd hwf
  exact step_eq_exec hs (fetch_eq_some_iff.mpr ⟨hes, bits, rest, hb, hd, hwf⟩)

/-- Settles O8: one equation of `step` per kind of event, and the one for the empty schedule. -/
theorem stepTakesOneEvent : Obligations.StepTakesOneEvent := by
  refine ⟨?engine, ?host, ?reset, ?unscheduled⟩
  case engine => exact fun _ _ hs => step_eq_runEvent hs
  case host => exact fun _ _ _ hs => step_eq_runEvent hs
  case reset => exact fun _ _ hs => step_eq_runEvent hs
  case unscheduled => exact fun _ hs hf => step_eq_microStep hs hf

end Sys2Proof.Proofs
end

section
/-! What one micro-state's action does to the state, wherever its field's bits come from: the stream (`microStep`) or a
decoded instruction (`exec`). An invariant checked once over these moves is kept by both. -/

namespace Sys2Proof.Proofs

open Sys2Proof Sys2Proof.Machine Sys2Proof.Laws

/-- The micro-states that open a frame, with the width of their length field (R152, R153). -/
def openers : List (Micro × Nat) := [(.opL0, 15), (.opL1, 11)]

/-- The errors the engine raises, with DETAIL and the position they are detected at (R261 to R263). -/
inductive Raises (s : State) : ErrKind → Byte → Word → Prop
  | short (n : Nat) : (s.es, n) ∈ readers → Raises s .outOfBits (BitVec.ofNat 8 n) s.pos
  | malformed (d : Byte) : d ∈ [1, 2, 3] → Raises s .malformedPacket d s.pos
  | badHex (c : Byte) : s.es = .scan → hexval c = none → Raises s .invalidHex c s.pos
  | full (p : Word) : Raises s .depthExceeded 0 p

/-- A frame as OP_L0 and OP_L1 open it with the cursor at `p` (R152, R153). -/
def fresh (f : Frame) (p : Word) : Prop :=
  f.r = initVal f.op ∧ (f.lt = .l0 → ∃ len : BitVec 15, f.lim = p + len.setWidth 32)

/-- One micro-state's action: `Laws.EngineMove` without the stream that a field's bits are read from. -/
inductive Move (s : State) : State → Prop
  | quiet : s.es.busy = false → Move s s
  | raise {e : ErrKind} {d : Byte} {p : Word} : s.es.busy = true → Raises s e d p → Move s (raiseError e d p s)
  | scanDone : s.es = .scan → s.scanI.toNat = s.nbits.toNat / 4 → Move s { s with es := .hdrV }
  | scanOk (c : Byte) (d : BitVec 4) : s.es = .scan → s.scanI.toNat ≠ s.nbits.toNat / 4 →
      ibufAt s s.scanI.toNat = some c → hexval c = some d → Move s { s with scanI := s.scanI + 1 }
  | hdrV (v : BitVec 3) : s.es = .hdrV → s.pos.toNat + 3 ≤ s.nbits.toNat → Move s (Machine.hdrV v s)
  | hdrLit : s.es = .hdrT → s.pos.toNat + 3 ≤ s.nbits.toNat → Move s (Machine.hdrT 4#3 s)
  | hdrOp (t : BitVec 3) : s.es = .hdrT → s.pos.toNat + 3 ≤ s.nbits.toNat → t ≠ 4#3 →
      Move s { s with pos := s.pos + 3, typ := t, es := .opI }
  | litMore (d : BitVec 4) : s.es = .litG → s.pos.toNat + 5 ≤ s.nbits.toNat → Move s (Machine.litMore d s)
  | litLast (d : BitVec 4) : s.es = .litG → s.pos.toNat + 5 ≤ s.nbits.toNat → Move s (Machine.litLast d s)
  | opIB : s.es = .opI → s.pos.toNat + 1 ≤ s.nbits.toNat → Move s (Machine.opI 0#1 s)
  | opIN : s.es = .opI → s.pos.toNat + 1 ≤ s.nbits.toNat → Move s (Machine.opI 1#1 s)
  | push (n : Nat) (f : Frame) : (s.es, n) ∈ openers → s.pos.toNat + n ≤ s.nbits.toNat →
      s.frames.length < s.params.maxDepth → fresh f (s.pos + BitVec.ofNat 32 n) →
      Move s { s with pos := s.pos + BitVec.ofNat 32 n, frames := f :: s.frames, es := .next }
  | nextChild (f : Frame) (fs : List Frame) : s.es = .next → s.frames = f :: fs → frameFull f s = false →
      Move s { s with es := .hdrV }
  | nextClose (f : Frame) (fs : List Frame) : s.es = .next → s.frames = f :: fs → frameFull f s = true →
      Move s { s with es := .close }
  | close (f : Frame) (fs : List Frame) : s.es = .close → s.frames = f :: fs → Move s (popFrame f fs s)
  | finish : s.es = .ret → s.frames = [] → Move s (finishRun s)
  | combine (f : Frame) (fs : List Frame) : s.es = .ret → s.frames = f :: fs →
      (f.lt = .l0 → s.pos.toNat ≤ f.lim.toNat) → Move s (combineTop f fs s)

theorem busy_of_mem_readers {m : Micro} {n : Nat} (h : (m, n) ∈ readers) : m.busy = true :=
  (by decide : ∀ x ∈ readers, x.1.busy = true) _ h

theorem mem_readers_of_mem_openers {m : Micro} {n : Nat} (h : (m, n) ∈ openers) : (m, n) ∈ readers :=
  (by decide : ∀ x ∈ openers, x ∈ readers) _ h

theorem fresh_l0 (op : Op) (p : Word) (len : BitVec 15) :
    fresh { op := op, lt := .l0, lim := p + len.setWidth 32, n := 0, r := initVal op } p :=
  ⟨rfl, fun _ => ⟨len, rfl⟩⟩

theorem fresh_l1 (op : Op) (p lim : Word) : fresh { op := op, lt := .l1, lim := lim, n := 0, r := initVal op } p :=
  ⟨rfl, nofun⟩

theorem Move.short {s : State} {n : Nat} (hr : (s.es, n) ∈ readers) : Move s (raiseShort n s) :=
  .raise (busy_of_mem_readers hr) (.short n hr)

theorem Move.hdrT {s : State} (t : BitVec 3) (he : s.es = .hdrT) (h : s.pos.toNat + 3 ≤ s.nbits.toNat) :
    Move s (Machine.hdrT t s) := by
  by_cases ht : t = 4#3
  · exact ht ▸ .hdrLit he h
  · exact hdrT_op ht s ▸ .hdrOp t he h ht

theorem Move.opI {s : State} (i : BitVec 1) (he : s.es = .opI) (h : s.pos.toNat + 1 ≤ s.nbits.toNat) :
    Move s (Machine.opI i s) := by
  rcases BitVec.eq_zero_or_eq_one i with rfl | rfl
  · exact .opIB he h
  · exact .opIN he h

theorem Move.next {s : State} {f : Frame} {fs : List Frame} (he : s.es = .next) (hf : s.frames = f :: fs) :
    Move s { s with es := if frameFull f s then .close else .hdrV } := by
  cases hc : frameFull f s with
  | false => exact .nextChild f fs he hf hc
  | true => exact .nextClose f fs he hf hc

theorem Move.litG {s : State} (g : BitVec 5) (he : s.es = .litG) (h : s.pos.toNat + 5 ≤ s.nbits.toNat) :
    Move s (Machine.litG g s) := by
  unfold Machine.litG
  split
  · exact .litMore _ he h
  · exact .litLast _ he h

/-- A push is a move whether or not the stack has room (R154). -/
theorem Move.pushFrame {s : State} {n : Nat} {f : Frame} (hr : (s.es, n) ∈ openers)
    (h : s.pos.toNat + n ≤ s.nbits.toNat) (hf : fresh f (s.pos + BitVec.ofNat 32 n)) :
    Move s (pushFrame f (s.pos + BitVec.ofNat 32 n) s) := by
  rcases pushFrame_cases f (s.pos + BitVec.ofNat 32 n) s with ⟨_, e⟩ | ⟨hd, e⟩ <;> rw [e]
  · exact .raise (busy_of_mem_readers (mem_readers_of_mem_openers hr)) (.full _)
  · exact .push n f hr h hd hf

/-! ### Micro-steps -/

theorem Move.of_engineMove {s t : State} (h : EngineMove s (.next t)) : Move s t := by
  cases h with
  | quiet hb => exact .quiet hb
  | scanDone he hi => exact .scanDone he hi
  | scanOk c d he hi hc hd => exact .scanOk c d he hi hc hd
  | scanBad c he _ _ hd => exact .raise (by rw [he]; rfl) (.badHex c he hd)
  | short n hr _ => exact .short hr
  | hdrV v he hv => exact .hdrV v he hv.1
  | hdrT t he hv => exact .hdrT t he hv.1
  | litG g he hv => exact .litG g he hv.1
  | opI i he hv => exact .opI i he hv.1
  | opL0 op len he hv _ hd => exact .push 15 _ (by simp [he, openers]) hv.1 hd (fresh_l0 op _ len)
  | opL1 op cnt he hv _ hd => exact .push 11 _ (by simp [he, openers]) hv.1 hd (fresh_l1 op _ _)
  | full n hr _ _ _ => exact .raise (busy_of_mem_readers (mem_readers_of_mem_openers hr)) (.full _)
  | next f fs he hf => exact .next he hf
  | noChild f fs he _ _ _ => exact .raise (by rw [he]; rfl) (.malformed 3 (by decide))
  | notTwo f fs he _ _ _ => exact .raise (by rw [he]; rfl) (.malformed 2 (by decide))
  | close f fs he hf _ _ => exact .close f fs he hf
  | finish he hf => exact .finish he hf
  | overshoot f fs he _ _ _ => exact .raise (by rw [he]; rfl) (.malformed 1 (by decide))
  | combine f fs he hf hl => exact .combine f fs he hf hl

theorem move_of_microStep {s t : State} (h : microStep s = .next t) : Move s t :=
  .of_engineMove (h ▸ microStep_move s)

/-! ### Instructions -/

/-- The outcome is a next state that moves lead to. -/
def Arrives (s : State) (o : Out) : Prop := ∃ t, o = .next t ∧ Relation.ReflTransGen Move s t

theorem Arrives.last {s t : State} (h : Move s t) : Arrives s (.next t) := ⟨t, rfl, .single h⟩

theorem Arrives.step {s u : State} {o : Out} (h : Move s u) : Arrives u o → Arrives s o
  | ⟨t, ho, hp⟩ => ⟨t, ho, .head h hp⟩

/-- A field of a decoded packet ends the instruction short of bits, or leaves the rest to its use. -/
theorem arrives_field {s : State} {n : Nat} {k : Out} (hr : (s.es, n) ∈ readers)
    (hk : s.pos.toNat + n ≤ s.nbits.toNat → Arrives s k) : Arrives s (field n s k) := by
  rcases field_cases n s k with ⟨_, e⟩ | ⟨hn, e⟩ <;> rw [e]
  · exact .last (.short hr)
  · exact hk hn

theorem arrives_header {v t : BitVec 3} {s : State} {body : State → Out} (he : s.es = .hdrV)
    (hb : Arrives (hdrT t (hdrV v s)) (body (hdrT t (hdrV v s)))) : Arrives s (header v t s body) :=
  arrives_field (by simp [readers, he]) fun h => .step (.hdrV v he h) <|
    arrives_field (by simp [readers]) fun h => .step (.hdrT t rfl h) hb

theorem arrives_litGroups {ds : List (BitVec 4)} {s : State} (hd : ds ≠ []) (he : s.es = .litG) :
    Arrives s (litGroups ds s) := by
  induction ds generalizing s with
  | nil => exact absurd rfl hd
  | cons d ds ih =>
    cases ds with
    | nil => exact arrives_field (by simp [readers, he]) fun h => .last (.litLast d he h)
    | cons e es =>
      exact arrives_field (by simp [readers, he]) fun h => .step (.litMore d he h) (ih (by simp) rfl)

theorem arrives_literal {v : BitVec 3} {ds : List (BitVec 4)} {s : State} (hd : ds ≠ []) (he : s.es = .hdrV) :
    Arrives s (literal v ds s) := by
  rw [literal, if_neg (by simpa using hd)]
  exact arrives_header he (arrives_litGroups hd rfl)

theorem hdrT_typeId_es (op : Op) (s : State) : (hdrT op.typeId s).es = .opI := by
  rw [hdrT_op (typeId_ne_lit op)]

theorem arrives_operatorB {op : Op} {v : BitVec 3} {len : BitVec 15} {s : State} (he : s.es = .hdrV) :
    Arrives s (operatorB op v len s) := by
  refine arrives_header he ?_
  have ho := hdrT_typeId_es op (hdrV v s)
  exact arrives_field (by simp [readers, ho]) fun h => .step (.opIB ho h) <|
    arrives_field (by simp [readers]) fun h => .last (.pushFrame (by simp [openers]) h (fresh_l0 op _ len))

theorem arrives_operatorN {op : Op} {v : BitVec 3} {cnt : BitVec 11} {s : State} (he : s.es = .hdrV) :
    Arrives s (operatorN op v cnt s) := by
  refine arrives_header he ?_
  have ho := hdrT_typeId_es op (hdrV v s)
  exact arrives_field (by simp [readers, ho]) fun h => .step (.opIN ho h) <|
    arrives_field (by simp [readers]) fun h => .last (.pushFrame (by simp [openers]) h (fresh_l1 op _ _))

/-- Where a packet is due, an instruction runs to its end by moves. -/
theorem arrives_exec {i : Instr} {s : State} (hw : i.wellFormed = true) (he : s.es = .hdrV) : Arrives s (exec i s) := by
  rcases exec_eq i s with ⟨v, ds, rfl, e⟩ | ⟨op, v, len, _, _, _, e⟩ | ⟨op, v, cnt, _, _, _, e⟩ <;> rw [e]
  · exact arrives_literal (by simpa [Instr.wellFormed] using hw) he
  · exact arrives_operatorB he
  · exact arrives_operatorN he

/-- A term that is no packet is a literal with no group, and is refused (R93). -/
theorem exec_not_wellFormed {i : Instr} (hw : i.wellFormed = false) (s : State) : exec i s = .refused .noGroup := by
  cases i with
  | lit v ds =>
    obtain rfl : ds = [] := by simpa [Instr.wellFormed] using hw
    rfl
  | _ => cases hw

/-- An instruction writes the micro-state before any rule reads it. -/
theorem exec_withEs (i : Instr) (s : State) (m : Micro) : exec i { s with es := m } = exec i s := by
  cases i <;> rfl

theorem path_of_exec {i : Instr} {s t : State} (h : exec i s = .next t) :
    Relation.ReflTransGen Move { s with es := .hdrV } t := by
  cases hw : i.wellFormed with
  | false => rw [exec_not_wellFormed hw] at h; cases h
  | true =>
    obtain ⟨u, hu, hp⟩ := arrives_exec (s := { s with es := .hdrV }) hw rfl
    rw [exec_withEs, h] at hu
    cases hu
    exact hp

end Sys2Proof.Proofs
end

section
/-! The registers that an engine step only moves one way: the bit cursor (R31) and the sticky flag (R36). -/

namespace Sys2Proof.Proofs

open Sys2Proof Sys2Proof.Machine Sys2Proof.Laws

theorem Move.nbits {s t : State} (h : Move s t) : t.nbits = s.nbits := by
  cases h <;> rfl

/-- R31: the cursor stays, or goes past a field that lies before the stream's end. -/
theorem Move.pos {s t : State} (h : Move s t) :
    t.pos = s.pos ∨ ∃ n, s.pos.toNat + n ≤ s.nbits.toNat ∧ t.pos = s.pos + BitVec.ofNat 32 n := by
  cases h with
  | hdrV v _ h => exact .inr ⟨3, h, rfl⟩
  | hdrLit _ h => exact .inr ⟨3, h, rfl⟩
  | hdrOp t _ h => exact .inr ⟨3, h, rfl⟩
  | litMore d _ h => exact .inr ⟨5, h, rfl⟩
  | litLast d _ h => exact .inr ⟨5, h, rfl⟩
  | opIB _ h | opIN _ h => exact .inr ⟨1, h, rfl⟩
  | push n f _ h => exact .inr ⟨n, h, rfl⟩
  | _ => exact .inl rfl

/-- R31: no move takes the cursor past the stream's end. -/
theorem Move.posFits {s t : State} (h : Move s t) (hp : s.pos.toNat ≤ s.nbits.toNat) :
    t.pos.toNat ≤ t.nbits.toNat := by
  rw [h.nbits]
  rcases h.pos with e | ⟨n, hn, e⟩ <;> rw [e]
  · exact hp
  · rwa [toNat_pos_add hn]

/-- R36: no move clears the sticky flag. -/
theorem Move.ovf {s t : State} (h : Move s t) (ho : s.ovf = true) : t.ovf = true := by
  cases h with
  | litMore d _ _ => simp [ho]
  | litLast d _ _ => simp [ho]
  | combine f fs _ _ _ => simp [ho]
  | _ => exact ho

theorem ovf_of_path {s t : State} (h : Relation.ReflTransGen Move s t) (ho : s.ovf = true) : t.ovf = true := by
  induction h with
  | refl => exact ho
  | tail _ h ih => exact h.ovf ih

/-- Settles O33: a micro-step is one move, which leaves the cursor or takes it past a field that fits. -/
theorem cursorOnlyAdvances : Obligations.CursorOnlyAdvances := by
  intro s t hp h
  have hm := move_of_microStep h
  refine ⟨?_, hm.posFits hp, hm.nbits⟩
  rcases hm.pos with e | ⟨n, hn, e⟩ <;> rw [e]
  rw [toNat_pos_add hn]
  exact Nat.le_add_right _ _

/-- Settles O39: a micro-step is one move and an instruction a path of them. -/
theorem overflowFlagIsSticky : Obligations.OverflowFlagIsSticky :=
  ⟨fun _ _ ho h => (move_of_microStep h).ovf ho, fun _ _ _ ho h => ovf_of_path (path_of_exec h) ho⟩

end Sys2Proof.Proofs
end

section
/-! Each clause of the invariant `Safety.Consistent` over the moves of the engine. -/

namespace Sys2Proof.Proofs

open Sys2Proof Sys2Proof.Machine Sys2Proof.Laws Sys2Proof.Safety

/-! ### The input and the results -/

theorem Move.input {s t : State} (h : Move s t) : sameInput s t := by
  cases h <;> exact ⟨rfl, rfl, rfl, rfl, rfl, rfl, fun _ => rfl⟩

/-- Only an error and the end of the run write the result registers (R224, R270). -/
theorem Move.results {s t : State} (h : Move s t) (hb : busy t) : sameResults s t := by
  cases h with
  | raise _ _ | finish _ _ => cases hb
  | _ => exact ⟨rfl, rfl, rfl, rfl, rfl, rfl, rfl, rfl⟩

theorem hexUpTo_of_sameInput {s t : State} {n : Nat} (hi : sameInput s t) (h : hexUpTo s n) : hexUpTo t n := by
  obtain ⟨-, -, hm, -, -, hd, -⟩ := hi
  intro i hn
  rw [ibufByte_congr hm hd]
  exact h i hn

theorem memoryFits_of_sameInput {s t : State} (hi : sameInput s t) (h : memoryFits s) : memoryFits t := by
  obtain ⟨hp, -, hm, -⟩ := hi
  rwa [memoryFits, hp, hm]

/-! ### Values -/

/-- R8's constraints on the parameters. -/
theorem legal_iff {p : Config.Params} :
    p.legal = true ↔ 64 ≤ p.width ∧ p.width ≤ 256 ∧ p.width % 32 = 0 ∧ 1 ≤ p.maxChars ∧ p.maxChars ≤ 2 ^ 24 ∧
      1 ≤ p.maxDepth := by
  simp [Config.Params.legal, and_assoc]

theorem width_pos {p : Config.Params} (h : p.legal = true) : 0 < p.width :=
  Nat.lt_of_lt_of_le (by decide) (legal_iff.1 h).1

theorem maxChars_le {p : Config.Params} (h : p.legal = true) : p.maxChars ≤ 2 ^ 24 := by
  obtain ⟨-, -, -, -, hc, -⟩ := legal_iff.1 h
  exact hc

theorem litW_fst_lt (w a : Nat) (d : BitVec 4) : (litW w a d).1 < 2 ^ w := Nat.mod_lt _ (Nat.two_pow_pos w)

/-- Every value a move writes is narrowed to W bits, or comes from another value register (R10, R211). -/
theorem Move.valuesFit {s t : State} (h : Move s t) (hw : 0 < s.params.width) (hv : valuesFit s) : valuesFit t := by
  obtain ⟨ha, hr, hR, hf⟩ := hv
  have h0 : 0 < 2 ^ s.params.width := Nat.two_pow_pos _
  cases h with
  | raise _ _ => exact ⟨ha, hr, h0, hf⟩
  | hdrLit _ _ => exact ⟨h0, hr, hR, hf⟩
  | litMore d _ _ => exact ⟨litW_fst_lt _ _ d, hr, hR, hf⟩
  | litLast d _ _ => exact ⟨litW_fst_lt _ _ d, litW_fst_lt _ _ d, hR, hf⟩
  | push n f _ _ _ hfr =>
    exact ⟨ha, hr, hR, List.forall_mem_cons.2 ⟨hfr.1 ▸ initVal_lt hw f.op, hf⟩⟩
  | close f fs _ hs =>
    rw [hs] at hf
    obtain ⟨htop, hrest⟩ := List.forall_mem_cons.1 hf
    exact ⟨ha, htop, hR, hrest⟩
  | finish _ _ =>
    refine ⟨ha, hr, ?_, hf⟩
    simp only [finishRun_valueR]
    split
    · exact h0
    · exact hr
  | combine f fs _ hs _ =>
    rw [hs] at hf
    obtain ⟨htop, hrest⟩ := List.forall_mem_cons.1 hf
    exact ⟨ha, hr, hR, List.forall_mem_cons.2 ⟨combine_lt hw f.op f.n htop hr, hrest⟩⟩
  | _ => exact ⟨ha, hr, hR, hf⟩

/-! ### The frame stack -/

/-- R33: a push is made only where the stack has room. -/
theorem Move.depthFits {s t : State} (h : Move s t) (hd : s.frames.length ≤ s.params.maxDepth) :
    t.frames.length ≤ t.params.maxDepth := by
  cases h with
  | push n f _ _ hr _ => exact hr
  | close f fs _ hs =>
    rw [hs] at hd
    exact Nat.le_of_succ_le hd
  | combine f fs _ hs _ =>
    rw [hs] at hd
    exact hd
  | _ => exact hd

/-- Reading a field pays for the head bits its micro-state has read more. -/
theorem framesFit_advance {s t : State} {n : Nat} (hn : s.pos.toNat + n ≤ s.nbits.toNat)
    (hp : t.pos = s.pos + BitVec.ofNat 32 n) (hfs : t.frames = s.frames) (hk : headBits t.es ≤ headBits s.es + n)
    (hf : 18 * s.frames.length + headBits s.es ≤ s.pos.toNat) :
    18 * t.frames.length + headBits t.es ≤ t.pos.toNat := by
  rw [hp, toNat_pos_add hn, hfs]
  omega

/-- Every open frame stands for 18 bits read or more, the shortest operator head (R96). -/
theorem Move.framesFit {s t : State} (h : Move s t) (hf : 18 * s.frames.length + headBits s.es ≤ s.pos.toNat) :
    18 * t.frames.length + headBits t.es ≤ t.pos.toNat := by
  cases h with
  | quiet _ => exact hf
  | raise _ _ | finish _ _ => exact Nat.le_trans (Nat.add_le_add_left (Nat.zero_le _) _) hf
  | scanDone he _ | scanOk _ _ he _ _ _ | nextChild _ _ he _ _ | nextClose _ _ he _ _ =>
    simpa [he, headBits] using hf
  | hdrV _ he h | hdrLit he h | hdrOp _ he h _ | litMore _ he h | litLast _ he h | opIB he h | opIN he h =>
    exact framesFit_advance h rfl rfl (by simp [he, headBits]) hf
  | push n f hr h _ _ =>
    have hop : 18 ≤ headBits s.es + n := (by decide : ∀ x ∈ openers, 18 ≤ headBits x.1 + x.2) _ hr
    have hnext : headBits .next = 0 := rfl
    simp only [toNat_pos_add h, List.length_cons, hnext]
    omega
  | close f fs he hs =>
    rw [he, hs, List.length_cons] at hf
    exact Nat.le_trans (Nat.mul_le_mul_left 18 (Nat.le_succ _)) hf
  | combine f fs he hs _ => simpa [he, hs, headBits] using hf

/-! ### The version sum -/

/-- Reading a field pays for the bits its micro-state owes less. -/
theorem versionsFit_advance {s t : State} {n : Nat} (hn : s.pos.toNat + n ≤ s.nbits.toNat)
    (hp : t.pos = s.pos + BitVec.ofNat 32 n) (hs : t.vacc = s.vacc) (hk : owedBits s.es ≤ owedBits t.es + n)
    (hv : s.vacc.toNat ≤ 7 * ((s.pos.toNat + owedBits s.es) / 11)) :
    t.vacc.toNat ≤ 7 * ((t.pos.toNat + owedBits t.es) / 11) := by
  rw [hp, toNat_pos_add hn, hs]
  omega

/-- R221: a version of at most 7 is summed for every 11 bits of packets begun. -/
theorem Move.versionsFit {s t : State} (h : Move s t) (hb : busy t)
    (hv : s.vacc.toNat ≤ 7 * ((s.pos.toNat + owedBits s.es) / 11)) :
    t.vacc.toNat ≤ 7 * ((t.pos.toNat + owedBits t.es) / 11) := by
  cases h with
  | quiet _ => exact hv
  | raise _ _ | finish _ _ => cases hb
  | scanDone he _ | scanOk _ _ he _ _ _ | nextChild _ _ he _ _ | nextClose _ _ he _ _ | close _ _ he _
  | combine _ _ he _ _ => simpa [he, owedBits] using hv
  | hdrV v he h =>
    have hp : (s.pos + 3).toNat = s.pos.toNat + 3 := toNat_pos_add h
    have hn := s.nbits.isLt
    have h7 := v.isLt
    rw [he, owedBits] at hv
    rw [hdrV_vacc, hdrV_pos, hdrV_es, hp, owedBits, BitVec.toNat_add, BitVec.toNat_setWidth]
    omega
  | hdrLit he h | hdrOp _ he h _ | litMore _ he h | litLast _ he h | opIB he h | opIN he h =>
    exact versionsFit_advance h rfl rfl (by simp [he, owedBits]) hv
  | push n f hr h _ _ =>
    have hop : owedBits s.es ≤ 0 + n := (by decide : ∀ x ∈ openers, owedBits x.1 ≤ 0 + x.2) _ hr
    exact versionsFit_advance h rfl rfl hop hv

/-! ### The packet and the frame at hand -/

/-- R127: type-id 4 leads to LIT_G, every other to the operator's micro-states. -/
theorem Move.typeFit {s t : State} (h : Move s t) (ht : typeFits s) : typeFits t := by
  cases h with
  | quiet _ => exact ht
  | hdrLit _ _ => rfl
  | hdrOp _ _ _ h4 => exact h4
  | litMore _ he _ | opIB he _ | opIN he _ =>
    rw [typeFits, he] at ht
    exact ht
  | scanOk _ _ he _ _ _ => simp [typeFits, he]
  | _ => trivial

/-- A window of at most 2^15 - 1 bits that begins inside a legal stream does not wrap (R152). -/
theorem le_window_end {p : Word} (len : BitVec 15) (hp : p.toNat ≤ 2 ^ 26) :
    p.toNat ≤ (p + len.setWidth 32).toNat := by
  have := len.isLt
  rw [BitVec.toNat_add, BitVec.toNat_setWidth]
  omega

/-- R155, R157: NEXT is entered with a frame whose window is not overshot, CLOSE with a full one. -/
theorem Move.topFit {s t : State} (h : Move s t) (hn : s.nbits.toNat ≤ 2 ^ 26) (ht : topFits s) : topFits t := by
  cases h with
  | quiet _ => exact ht
  | push n f _ h _ hf =>
    intro hl
    obtain ⟨len, hlim⟩ := hf.2 hl
    simp only [hlim]
    exact le_window_end len (toNat_pos_add h ▸ h.trans hn)
  | nextClose f fs _ hs hc => simpa [topFits, hs, frameFull] using hc
  | combine f fs _ _ hl => exact hl
  | scanOk _ _ he _ _ _ => simp [topFits, he]
  | _ => simp [topFits]

/-! ### SCAN -/

theorem scanEnd_of_runFits {s : State} (hr : RunFits s) : s.nbits.toNat / 4 = s.len.toNat := by
  rw [hr.nbitsIs, Nat.mul_div_cancel_left _ (by decide)]

/-- R122: SCAN has validated every character before `scan_i`. -/
theorem Move.scanFits {s t : State} (h : Move s t) (hr : RunFits s) (he' : t.es = .scan) :
    t.scanI.toNat ≤ t.len.toNat ∧ t.pos = 0 ∧ t.frames = [] ∧ hexUpTo t t.scanI.toNat := by
  have hi := h.input
  cases h with
  | quiet _ => exact hr.scanFits he'
  | scanOk c d he hne hc hd =>
    obtain ⟨hle, hp, hf, hx⟩ := hr.scanFits he
    rw [scanEnd_of_runFits hr] at hne
    have hs : (s.scanI + 1).toNat = s.scanI.toNat + 1 := by
      have := s.len.isLt
      rw [BitVec.toNat_add, show (1 : Word).toNat = 1 from rfl]
      omega
    refine ⟨by simp only [hs]; omega, hp, hf, hexUpTo_of_sameInput hi ?_⟩
    simp only [hs]
    intro i hlt
    rcases Nat.lt_succ_iff_lt_or_eq.1 hlt with h | rfl
    · exact hx i h
    · simp only [ibufAt, Option.ite_none_right_eq_some, Option.some.injEq] at hc
      exact ⟨d, hc.2 ▸ hd⟩
  | _ => cases he'

/-- R61: past SCAN every character of the input is a hex digit. -/
theorem Move.hexFits {s t : State} (h : Move s t) (hr : RunFits s) (hb : busy t) (he' : t.es ≠ .scan) :
    hexUpTo t t.len.toNat := by
  have hi := h.input
  rw [hi.2.1]
  refine hexUpTo_of_sameInput hi ?_
  cases h with
  | quiet _ => exact hr.hexFits he'
  | raise _ _ => cases hb
  | scanDone he hn =>
    obtain ⟨-, -, -, hx⟩ := hr.scanFits he
    rwa [hn, scanEnd_of_runFits hr] at hx
  | scanOk _ _ he _ _ _ => exact absurd he he'
  | push _ _ hm _ _ _ => exact hr.hexFits fun he => by simp [openers, he] at hm
  | _ => exact hr.hexFits (by simp [*])

/-! ### The invariant -/

theorem nbits_le_of_runFits {s : State} (hr : RunFits s) (hl : s.params.legal = true) : s.nbits.toNat ≤ 2 ^ 26 := by
  have := maxChars_le hl
  have := hr.lenFits
  rw [hr.nbitsIs]
  omega

theorem Move.runFits {s t : State} (h : Move s t) (hl : s.params.legal = true) (hr : RunFits s) (hb : busy t) :
    RunFits t := by
  obtain ⟨hp, hlen, -⟩ := h.input
  exact
    { lenFits := by rw [hp, hlen]; exact hr.lenFits
      nbitsIs := by rw [h.nbits, hlen]; exact hr.nbitsIs
      posFits := h.posFits hr.posFits
      scanFits := h.scanFits hr
      hexFits := h.hexFits hr hb
      depthFits := h.depthFits hr.depthFits
      framesFit := h.framesFit hr.framesFit
      versionsFit := h.versionsFit hb hr.versionsFit
      typeFit := h.typeFit hr.typeFit
      topFit := h.topFit (nbits_le_of_runFits hr hl) hr.topFit }

/-- While no result is due the result registers are clear (R242). -/
theorem resultsFit_iff_clear {s : State} (h : s.es = .idle ∨ busy s) :
    resultsFit s ↔ errorClear s ∧ valueClear s ∧ s.posR = 0 := by
  rcases h with h | h
  · rw [resultsFit, h]; rfl
  · rw [resultsFit, of_decide_eq_true h]; rfl

/-- An error of the engine leaves its record (R262, R263, R270). -/
theorem Raises.recorded {s : State} {e : ErrKind} {d : Byte} {p : Word} (h : Raises s e d p) (hr : RunFits s) :
    errorRecorded (raiseError e d p s) := by
  cases h with
  | short n hm => exact .inl ⟨rfl, (by decide : ∀ x ∈ readers, BitVec.ofNat 8 x.2 ∈ [1, 3, 5, 11, 15]) _ hm, rfl⟩
  | malformed d hd => exact .inr (.inl ⟨rfl, hd, rfl⟩)
  | badHex c he hc =>
    obtain ⟨-, hp, -⟩ := hr.scanFits he
    exact .inr (.inr (.inl ⟨rfl, hc, hp⟩))
  | full p => exact .inr (.inr (.inr (.inl ⟨rfl, rfl, rfl⟩)))

theorem resultsFit_of_error {s : State} (he : s.es = .error) (hr : errorRecorded s) (hv : valueClear s) :
    resultsFit s := by
  rw [resultsFit, he]
  exact ⟨hr, hv⟩

/-- R224, R270: the result registers change with STATE. -/
theorem Move.resultsFit {s t : State} (h : Move s t) (hb : busy s) (hr : RunFits s) (hs : resultsFit s) :
    resultsFit t := by
  have hclear := (resultsFit_iff_clear (.inr hb)).1 hs
  by_cases ht : busy t
  · obtain ⟨h1, h2, h3, h4, h5, h6, h7, h8⟩ := h.results ht
    rw [resultsFit_iff_clear (.inr ht), errorClear, valueClear, h1, h2, h3, h4, h5, h6, h7, h8]
    exact hclear
  · cases h with
    | quiet _ => exact hs
    | raise _ hd => exact resultsFit_of_error rfl (hd.recorded hr) ⟨rfl, rfl, rfl, rfl⟩
    | finish he _ =>
      have hv := hr.versionsFit
      rw [he] at hv
      exact ⟨hclear.1, by simp, by simp +contextual, hv⟩
    | scanOk _ _ he _ _ _ => exact absurd (by rw [busy, he]; rfl) ht
    | _ => exact absurd rfl ht

theorem Move.eq_of_not_busy {s t : State} (h : Move s t) (hb : ¬busy s) : t = s := by
  cases h with
  | quiet _ => rfl
  | raise h _ => exact absurd h hb
  | push _ _ hm _ _ _ => exact absurd (busy_of_mem_readers (mem_readers_of_mem_openers hm)) hb
  | _ => simp [busy, Micro.busy, Micro.stateCode, *] at hb

/-- A move keeps the invariant, clause by clause. -/
theorem Move.consistent {s t : State} (h : Move s t) (hc : Consistent s) : Consistent t := by
  by_cases hb : busy s
  · exact
      { legal := by rw [h.input.1]; exact hc.legal
        memory := memoryFits_of_sameInput h.input hc.memory
        values := h.valuesFit (width_pos hc.legal) hc.values
        results := h.resultsFit hb (hc.run hb) hc.results
        run := h.runFits hc.legal (hc.run hb) }
  · rwa [h.eq_of_not_busy hb]

theorem consistent_of_path {s t : State} (h : Relation.ReflTransGen Move s t) (hc : Consistent s) : Consistent t := by
  induction h with
  | refl => exact hc
  | tail _ h ih => exact h.consistent ih

end Sys2Proof.Proofs
end

section
/-! The invariant over the other events, the host's and the reset's, and over the whole step. -/

namespace Sys2Proof.Proofs

open Sys2Proof Sys2Proof.Machine Sys2Proof.Laws Sys2Proof.Safety

/-! ### Host accesses and resets -/

/-- No clause of the invariant reads `schedule` or `reply`. -/
theorem consistent_withPort {s : State} (h : Consistent s) (es : List Event) (v : Word) :
    Consistent { s with schedule := es, reply := v } where
  legal := h.legal
  memory := h.memory
  values := h.values
  results := h.results
  run hb :=
    have hr := h.run hb
    { lenFits := hr.lenFits, nbitsIs := hr.nbitsIs, posFits := hr.posFits, scanFits := hr.scanFits
      hexFits := hr.hexFits, depthFits := hr.depthFits, framesFit := hr.framesFit, versionsFit := hr.versionsFit
      typeFit := hr.typeFit, topFit := hr.topFit }

theorem memoryFits_write {s : State} {i : Nat} (b : Byte) (hm : memoryFits s) (hi : i < s.params.maxChars) :
    memoryFits { s with ibuf := Memory.write s.ibuf i b } := by
  refine ⟨wf_write i b hm.1, fun c hc => ?_⟩
  rcases mem_write hc with rfl | hc
  · exact hi
  · exact hm.2 c hc

theorem valuesFit_clearRun {s : State} (hv : valuesFit s) : valuesFit (clearRun s) := by
  obtain ⟨ha, hr, -, -⟩ := hv
  exact ⟨ha, hr, Nat.two_pow_pos _, nofun⟩

/-- R120: the length latched by START does not wrap. -/
theorem runFits_start {s : State} (hl : s.params.legal = true) (hlen : s.len.toNat ≤ s.params.maxChars) :
    RunFits (enterScan (clearRun s)) where
  lenFits := hlen
  nbitsIs := by
    have := maxChars_le hl
    simp only [enterScan_nbits, enterScan_len, clearRun_len, BitVec.toNat_mul, BitVec.toNat_ofNat]
    omega
  posFits := Nat.zero_le _
  scanFits _ := ⟨Nat.zero_le _, rfl, rfl, nofun⟩
  hexFits h := absurd rfl h
  depthFits := Nat.zero_le _
  framesFit := Nat.zero_le _
  versionsFit := Nat.zero_le _
  typeFit := trivial
  topFit := trivial

theorem consistent_startRun {s : State} (h : Consistent s) : Consistent (startRun s) := by
  have hv := valuesFit_clearRun h.values
  rcases startRun_cases s with ⟨_, e⟩ | ⟨hlen, e⟩ <;> rw [e]
  · exact
      { legal := h.legal
        memory := h.memory
        values := hv
        results := resultsFit_of_error rfl (.inr (.inr (.inr (.inr ⟨rfl, rfl, rfl, rfl⟩)))) ⟨rfl, rfl, rfl, rfl⟩
        run := nofun }
  · exact
      { legal := h.legal
        memory := h.memory
        values := hv
        results := ⟨⟨rfl, rfl, rfl⟩, ⟨rfl, rfl, rfl, rfl⟩, rfl⟩
        run := fun _ => runFits_start h.legal hlen }

theorem consistent_of_writeMove {s t : State} (h : Consistent s) (hw : WriteMove s t) : Consistent t := by
  have idle (hb : s.es.busy = false) : busy s → RunFits t := fun hb' => absurd (hb.symm.trans hb') nofun
  cases hw with
  | ignored => exact h
  | start _ => exact consistent_startRun h
  | len v hb => exact ⟨h.legal, h.memory, h.values, h.results, idle hb⟩
  | ibuf i b hb hi => exact ⟨h.legal, memoryFits_write b h.memory hi, h.values, h.results, idle hb⟩

theorem consistent_hostEvent {s t : State} {a : HostAccess} (h : Consistent s) (ht : hostEvent a s = .next t) :
    Consistent t := by
  cases a with
  | read off size =>
    rcases hostRead_move off size s with ⟨v, e⟩ | e <;> cases e.symm.trans ht
    exact consistent_withPort h s.schedule v
  | write off size v =>
    rcases hostWrite_move off size v s with ⟨u, e, hw⟩ | e <;> cases e.symm.trans ht
    exact consistent_of_writeMove h hw

/-- R50: the values of reset are consistent with any legal parameters, and the draw of the unwritten bytes is free. -/
theorem consistent_reset {p : Config.Params} (hl : p.legal = true) (es : List Event) (v : Word) (draw : Nat) :
    Consistent { State.reset with params := p, schedule := es, reply := v, draw := draw } where
  legal := hl
  memory := ⟨rfl, nofun⟩
  values := ⟨Nat.two_pow_pos _, Nat.two_pow_pos _, Nat.two_pow_pos _, nofun⟩
  results := ⟨⟨rfl, rfl, rfl⟩, ⟨rfl, rfl, rfl, rfl⟩, rfl⟩
  run := nofun

/-! ### The whole step -/

theorem consistent_runEvent {s t : State} {e : Event} (h : Consistent s) (ht : runEvent e s = .next t) :
    Consistent t := by
  cases e with
  | engine => exact (move_of_microStep ht).consistent h
  | host a => exact consistent_hostEvent h ht
  | reset =>
    cases ht
    exact consistent_reset h.legal _ _ _

/-- A fetched instruction runs to its end, by moves (R128). -/
theorem arrives_of_fetch {s : State} {i : Instr} (hf : fetch s = some i) : Arrives s (exec i s) := by
  obtain ⟨he, _, _, _, _, hw⟩ := fetch_eq_some_iff.1 hf
  exact arrives_exec hw he

/-- Settles O51: an event of the schedule, an instruction's moves, or one move. -/
theorem stepKeepsConsistency : Obligations.StepKeepsConsistency := by
  intro s t h ht
  cases hs : s.schedule with
  | cons e es =>
    rw [step_eq_runEvent hs] at ht
    exact consistent_runEvent (consistent_withPort h es s.reply) ht
  | nil =>
    cases hf : fetch s with
    | some i =>
      obtain ⟨u, hu, hp⟩ := arrives_of_fetch hf
      rw [step_eq_exec hs hf, hu] at ht
      cases ht
      exact consistent_of_path hp h
    | none =>
      rw [step_eq_microStep hs hf] at ht
      exact (move_of_microStep ht).consistent h

/-- Settles O50: reset with R8's default parameters, which are legal. -/
theorem resetIsConsistent : Obligations.ResetIsConsistent :=
  consistent_reset (p := Config.defaults) (by decide) [] 0 0

/-- Settles O48: each register of `State.reset` is the literal that R50 and R8 name. -/
theorem resetState : Obligations.ResetState :=
  ⟨rfl, rfl, rfl, rfl, rfl, rfl, rfl, rfl, rfl, rfl, rfl, rfl, rfl, rfl, by decide⟩

end Sys2Proof.Proofs
end

section
/-! No consistent state faults, and the host accesses that the machine refuses are those of R68 and R240. -/

namespace Sys2Proof.Proofs

open Sys2Proof Sys2Proof.Machine Sys2Proof.Laws Sys2Proof.Safety

/-! ### The engine does not fault -/

/-- R61: inside a run the bits of every field before the stream's end are defined. -/
theorem streamBits_of_runFits {s : State} {n : Nat} (hr : RunFits s) (he : s.es ≠ .scan)
    (h : s.pos.toNat + n ≤ s.nbits.toNat) : ∃ bs, streamBits s s.pos.toNat n = some bs := by
  have hn := hr.nbitsIs
  exact streamBits_defined fun i hi => ⟨by have := hr.lenFits; omega, hr.hexFits he i (by omega)⟩

theorem not_engineMove_fault {s : State} {f : Fault} (h : EngineMove s (.fault f)) (hb : busy s → RunFits s) : False := by
  cases h with
  | scanPast he hne hc =>
    have hr := hb (by rw [busy, he]; rfl)
    have hle := (hr.scanFits he).1
    have hlen := hr.lenFits
    rw [scanEnd_of_runFits hr] at hne
    rw [ibufAt, if_pos (by omega)] at hc
    cases hc
  | undefined n hm hn hs =>
    have hr := hb (busy_of_mem_readers hm)
    obtain ⟨bs, hbs⟩ := streamBits_of_runFits hr (fun he => by simp [readers, he] at hm) hn
    cases hs.symm.trans hbs
  | noOperator he ht =>
    have hr := (hb (by rcases he with he | he <;> rw [busy, he] <;> rfl)).typeFit
    rcases he with he | he <;> rw [typeFits, he] at hr <;> exact hr ht
  | noFrame he hf =>
    have hr := (hb (by rcases he with he | he <;> rw [busy, he] <;> rfl)).topFit
    rcases he with he | he <;> rw [topFits, he, hf] at hr <;> exact hr

/-- No engine step of a consistent state faults, and none is refused. -/
theorem microStep_next {s : State} (h : Consistent s) : ∃ t, microStep s = .next t := by
  have hm := microStep_move s
  cases ho : microStep s with
  | next t => exact ⟨t, rfl⟩
  | fault f => exact (not_engineMove_fault (ho ▸ hm) h.run).elim
  | refused r => rw [ho] at hm; cases hm

/-! ### The accesses that are refused -/

/-- The offsets at which a register stands (R21, R40). -/
theorem regAt_eq_none_iff {p : Config.Params} {off : Nat} :
    regAt p off = none ↔ off % 4 = 0 → 0x01C ≤ off ∧ (off < 0x020 ∨ 0x020 + 4 * (p.width / 32) ≤ off) := by
  unfold regAt
  split_ifs <;> simp only [false_iff, true_iff] <;> omega

theorem ibufIndex_eq_none_iff {p : Config.Params} {off : Nat} :
    ibufIndex p off = none ↔ ¬(0x1000 ≤ off ∧ off < 0x1000 + p.maxChars) := by
  unfold ibufIndex
  split_ifs with h <;> simp [h]

theorem unmapped_eq_true_iff {p : Config.Params} {off : Nat} :
    unmapped p off = true ↔ regAt p (off - off % 4) = none ∧ ibufIndex p off = none := by
  simp [unmapped]

/-- R240's dispatch of a word access: neither a register nor an aligned unmapped word. -/
theorem word_refused_iff {p : Config.Params} {off : Nat} (hl : p.legal = true) :
    regAt p off = none ∧ ¬(unmapped p off = true ∧ off % 4 = 0) ↔ refusedAccess p off 4 := by
  have := legal_iff.1 hl
  rw [unmapped_eq_true_iff, regAt_eq_none_iff, regAt_eq_none_iff, ibufIndex_eq_none_iff, refusedAccess]
  omega

/-- R240's dispatch of a byte access: neither an IBUF entry nor a byte of an unmapped word. -/
theorem byte_refused_iff {p : Config.Params} {off : Nat} (hl : p.legal = true) :
    ibufIndex p off = none ∧ ¬unmapped p off = true ↔ refusedAccess p off 1 := by
  have := legal_iff.1 hl
  rw [unmapped_eq_true_iff, regAt_eq_none_iff, ibufIndex_eq_none_iff, refusedAccess]
  omega

/-- R240's dispatch of an access by its size and offset, which reads and writes share. -/
def dispatch (p : Config.Params) (off size : Nat) (reg : HostReg → State) (entry : Nat → State) (free : State) : Out :=
  if size = 4 then
    match regAt p off with
    | some r => .next (reg r)
    | none => if unmapped p off && decide (off % 4 = 0) then .next free else .refused (.hostAccess off size)
  else if size = 1 then
    match ibufIndex p off with
    | some i => .next (entry i)
    | none => if unmapped p off then .next free else .refused (.hostAccess off size)
  else .refused (.hostAccess off size)

theorem hostRead_eq_dispatch (off size : Nat) (s : State) :
    hostRead off size s = dispatch s.params off size (fun r => answer (regRead s r) s)
      (fun i => answer ((ibufByte s i).setWidth 32) s) (answer 0 s) := rfl

theorem hostWrite_eq_dispatch (off size : Nat) (v : Word) (s : State) :
    hostWrite off size v s = dispatch s.params off size (regWrite v s) (fun i => ibufWrite i (v.setWidth 8) s) s := rfl

/-- An access on the list of R68 and R240 is refused, and every other one is answered. -/
theorem dispatch_cases {p : Config.Params} (hl : p.legal = true) (off size : Nat) (reg : HostReg → State)
    (entry : Nat → State) (free : State) :
    (refusedAccess p off size ∧ dispatch p off size reg entry free = .refused (.hostAccess off size)) ∨
    (¬refusedAccess p off size ∧ ∃ t, dispatch p off size reg entry free = .next t) := by
  by_cases h4 : size = 4
  · subst h4
    rw [← word_refused_iff hl, dispatch, if_pos rfl]
    cases hr : regAt p off with
    | some r => simp
    | none => by_cases hu : unmapped p off = true ∧ off % 4 = 0 <;> simp [hu]
  · by_cases h1 : size = 1
    · subst h1
      rw [← byte_refused_iff hl, dispatch, if_neg h4, if_pos rfl]
      cases hi : ibufIndex p off with
      | some i => simp
      | none => by_cases hu : unmapped p off = true <;> simp [hu]
    · exact .inl ⟨.inl ⟨h4, h1⟩, by rw [dispatch, if_neg h4, if_neg h1]⟩

/-! ### The whole step -/

/-- A host access that is due is the only one due, and is refused exactly where it is on the list. -/
theorem step_host_cases {s : State} {a : HostAccess} {es : List Event} (hl : s.params.legal = true)
    (hs : s.schedule = .host a :: es) :
    ∃ off size, (∀ o z, accessDue s o z ↔ off = o ∧ size = z) ∧
      ((refusedAccess s.params off size ∧ step s = .refused (.hostAccess off size)) ∨
        (¬refusedAccess s.params off size ∧ ∃ t, step s = .next t)) := by
  rw [step_eq_runEvent hs, runEvent]
  cases a with
  | read off size =>
    refine ⟨off, size, fun o z => by simp [accessDue, hs], ?_⟩
    rw [hostEvent, hostRead_eq_dispatch]
    exact dispatch_cases hl off size _ _ _
  | write off size v =>
    refine ⟨off, size, fun o z => by simp [accessDue, hs], ?_⟩
    rw [hostEvent, hostWrite_eq_dispatch]
    exact dispatch_cases hl off size _ _ _

theorem not_accessDue {s : State} (hs : ∀ a es, s.schedule ≠ .host a :: es) (off size : Nat) :
    ¬accessDue s off size := by
  rintro ⟨es, h | ⟨v, h⟩⟩ <;> exact hs _ _ h

/-- Where no host access is due the machine goes on. -/
theorem step_next {s : State} (h : Consistent s) (hs : ∀ a es, s.schedule ≠ .host a :: es) : ∃ t, step s = .next t := by
  cases hsch : s.schedule with
  | cons e es =>
    rw [step_eq_runEvent hsch]
    cases e with
    | engine => exact microStep_next (consistent_withPort h es s.reply)
    | host a => exact absurd hsch (hs a es)
    | reset => exact ⟨_, rfl⟩
  | nil =>
    cases hf : fetch s with
    | some i =>
      obtain ⟨t, ht, -⟩ := arrives_of_fetch hf
      exact ⟨t, (step_eq_exec hsch hf).trans ht⟩
    | none =>
      rw [step_eq_microStep hsch hf]
      exact microStep_next h

/-- Settles O52: the engine never faults, and a host access is refused exactly where R68 or R240 refuses it. -/
theorem consistentMachineNeverFaults : Obligations.ConsistentMachineNeverFaults := by
  intro s h
  by_cases hs : ∃ a es, s.schedule = .host a :: es
  · obtain ⟨a, es, hs⟩ := hs
    obtain ⟨off, size, hdue, ⟨hr, hstep⟩ | ⟨hr, hstep⟩⟩ := step_host_cases h.legal hs
    · exact .inr ⟨off, size, (hdue off size).2 ⟨rfl, rfl⟩, hr, hstep⟩
    · refine .inl ⟨hstep, fun o z ho => ?_⟩
      obtain ⟨rfl, rfl⟩ := (hdue o z).1 ho
      exact hr
  · have hs' : ∀ a es, s.schedule ≠ .host a :: es := fun a es he => hs ⟨a, es, he⟩
    exact .inl ⟨step_next h hs', fun o z ho => absurd ho (not_accessDue hs' o z)⟩

end Sys2Proof.Proofs
end

section
/-! The input buffer and the host window: what the engine never writes, and how host accesses of each class end. -/

namespace Sys2Proof.Proofs

open Sys2Proof Sys2Proof.Machine Sys2Proof.Laws Sys2Proof.Safety

/-! ### The engine's input -/

theorem sameInput_trans {s t u : State} (hst : sameInput s t) (htu : sameInput t u) : sameInput s u := by
  obtain ⟨hp, hl, hm, hs, hr, hd, ha⟩ := hst
  obtain ⟨hp', hl', hm', hs', hr', hd', ha'⟩ := htu
  exact ⟨hp'.trans hp, hl'.trans hl, hm'.trans hm, hs'.trans hs, hr'.trans hr, hd'.trans hd,
    fun a => (ha' a).trans (ha a)⟩

/-- No clause of `sameInput` reads the micro-state. -/
theorem sameInput_withEs (s : State) (m : Micro) : sameInput s { s with es := m } :=
  ⟨rfl, rfl, rfl, rfl, rfl, rfl, fun _ => rfl⟩

theorem sameInput_of_path {s t : State} (h : Relation.ReflTransGen Move s t) : sameInput s t := by
  induction h with
  | refl => exact sameInput_withEs s s.es
  | tail _ h ih => exact sameInput_trans ih h.input

/-- Settles O40: a micro-step is one move and an instruction a path of them, and no move writes the input. -/
theorem engineNeverWritesItsInput : Obligations.EngineNeverWritesItsInput :=
  ⟨fun _ _ h => (move_of_microStep h).input,
    fun _ s _ h => sameInput_trans (sameInput_withEs s .hdrV) (sameInput_of_path (path_of_exec h))⟩

/-! ### Accesses to unmapped offsets -/

/-- R67: what the register map leaves unmapped, byte by byte, for legal parameters (log entry 14). -/
theorem unmapped_iff_offsets {p : Config.Params} {off : Nat} (hl : p.legal = true) :
    unmapped p off = true ↔
      (0x01C ≤ off ∧ off < 0x020) ∨ (0x020 + 4 * (p.width / 32) ≤ off ∧ off < 0x1000) ∨ 0x1000 + p.maxChars ≤ off := by
  have := legal_iff.1 hl
  rw [unmapped_eq_true_iff, regAt_eq_none_iff, ibufIndex_eq_none_iff]
  omega

/-- R67, R240: at an unmapped offset an access aligned to its size reaches no register and no IBUF entry. -/
theorem dispatch_unmapped {p : Config.Params} {off size : Nat} (hu : unmapped p off = true)
    (ha : size = 1 ∨ (size = 4 ∧ off % 4 = 0)) (reg : HostReg → State) (entry : Nat → State) (free : State) :
    dispatch p off size reg entry free = .next free := by
  obtain ⟨hreg, hbuf⟩ := unmapped_eq_true_iff.1 hu
  rcases ha with rfl | ⟨rfl, h4⟩
  · simp [dispatch, hbuf, hu]
  · rw [h4, Nat.sub_zero] at hreg
    simp [dispatch, hreg, hu, h4]

/-- Settles O44: reads and writes share the dispatch, and at an unmapped offset it answers 0 or keeps the state. -/
theorem unmappedOffsetsReadZero : Obligations.UnmappedOffsetsReadZero := by
  intro s off size v hl ho ha
  have hu := (unmapped_iff_offsets hl).2 ho
  rw [hostEvent, hostEvent, hostRead_eq_dispatch, hostWrite_eq_dispatch]
  exact ⟨dispatch_unmapped hu ha _ _ _, dispatch_unmapped hu ha _ _ _⟩

/-! ### Refused accesses and reads -/

theorem dispatch_refused {p : Config.Params} {off size : Nat} (hl : p.legal = true) (hr : refusedAccess p off size)
    (reg : HostReg → State) (entry : Nat → State) (free : State) :
    dispatch p off size reg entry free = .refused (.hostAccess off size) := by
  rcases dispatch_cases hl off size reg entry free with ⟨_, e⟩ | ⟨hn, _⟩
  · exact e
  · exact absurd hr hn

/-- Settles O45: reads and writes share the dispatch, which refuses every access on the list. -/
theorem otherAccessesAreRefused : Obligations.OtherAccessesAreRefused := by
  intro s off size v hl hr
  rw [hostEvent, hostEvent, hostRead_eq_dispatch, hostWrite_eq_dispatch]
  exact ⟨dispatch_refused hl hr _ _ _, dispatch_refused hl hr _ _ _⟩

/-- Settles O42: a read that is not refused writes only `reply`. -/
theorem hostReadsHaveNoSideEffect : Obligations.HostReadsHaveNoSideEffect := by
  intro s t off size h
  rcases hostRead_move off size s with ⟨v, e⟩ | e <;> cases e.symm.trans h
  rfl

end Sys2Proof.Proofs
end

section
/-! The decoder against the encoder: `decode` answers an instruction exactly where its bits stand at the head, and
every bit string is the beginning of one that decodes. -/

namespace Sys2Proof.Proofs

open Sys2Proof Sys2Proof.Machine Sys2Proof.Laws

/-! ### The header -/

/-- After six header bits the type-id alone chooses the body (R97). -/
theorem decode_encodeHeader (v t : BitVec 3) (body : List Bool) :
    decode (encodeHeader v t ++ body) = if t = 4#3 then decodeLit v body else decodeOperator v t body := by
  simp [decode, encodeHeader]

theorem exists_header {bits : List Bool} (h : 6 ≤ bits.length) : ∃ v t body, bits = encodeHeader v t ++ body := by
  refine ⟨.ofNat 3 (bitsVal (bits.take 3)), .ofNat 3 (bitsVal ((bits.drop 3).take 3)), bits.drop 6, ?_⟩
  rw [encodeHeader, bitsOf_ofNat_bitsVal (by simp; omega), bitsOf_ofNat_bitsVal (by simp; omega), List.append_assoc,
    show bits.drop 6 = (bits.drop 3).drop 3 by rw [List.drop_drop], List.take_append_drop, List.take_append_drop]

theorem decode_of_length_lt_six {bits : List Bool} (h : bits.length < 6) :
    decode bits = .error .endsInVersion ∨ decode bits = .error .endsInTypeId := by
  unfold decode
  split
  case h_1 => exact .inl rfl
  case h_2 v rest hv =>
    have hrest : takeField 3 rest = none := by
      rw [takeField_eq_some] at hv
      simp [hv] at h
      exact takeField_eq_none.2 (by omega)
    simp [hrest]

/-! ### Operator heads and type-ids -/

theorem exists_op {t : BitVec 3} (h : t ≠ 4#3) : ∃ op : Op, t = op.typeId := by
  cases ho : Op.ofTypeId t with
  | none => exact absurd (ofTypeId_eq_none.1 ho) h
  | some op => exact ⟨op, ofTypeId_eq_some.1 ho⟩

/-- Every type-id but 4 has a `.B` instruction, made of the fields it was asked for (R94, R97). -/
theorem instrB_typeId (op : Op) (v : BitVec 3) (len : BitVec 15) :
    ∃ i, instrB op.typeId v len = some i ∧ encode i = encodeB op.typeId v len ∧ i.wellFormed = true ∧
      bitLength i = 22 := by
  cases op <;> exact ⟨_, rfl, rfl, rfl, rfl⟩

/-- Every type-id but 4 has a `.N` instruction, made of the fields it was asked for (R96, R97). -/
theorem instrN_typeId (op : Op) (v : BitVec 3) (cnt : BitVec 11) :
    ∃ i, instrN op.typeId v cnt = some i ∧ encode i = encodeN op.typeId v cnt ∧ i.wellFormed = true ∧
      bitLength i = 18 := by
  cases op <;> exact ⟨_, rfl, rfl, rfl, rfl⟩

/-- R93, R100: a packet is a literal with a group, or an operator with one of its two length fields. -/
theorem wellFormed_cases {i : Instr} (hw : i.wellFormed = true) :
    (∃ v ds, i = .lit v ds ∧ ds ≠ []) ∨ (∃ op v len, instrB (Op.typeId op) v len = some i) ∨
      ∃ op v cnt, instrN (Op.typeId op) v cnt = some i := by
  cases i with
  | lit v ds => exact .inl ⟨v, ds, rfl, by simpa [Instr.wellFormed] using hw⟩
  | sumB v len => exact .inr (.inl ⟨.sum, v, len, rfl⟩)
  | prodB v len => exact .inr (.inl ⟨.prod, v, len, rfl⟩)
  | minB v len => exact .inr (.inl ⟨.min, v, len, rfl⟩)
  | maxB v len => exact .inr (.inl ⟨.max, v, len, rfl⟩)
  | gtB v len => exact .inr (.inl ⟨.gt, v, len, rfl⟩)
  | ltB v len => exact .inr (.inl ⟨.lt, v, len, rfl⟩)
  | eqB v len => exact .inr (.inl ⟨.eq, v, len, rfl⟩)
  | sumN v cnt => exact .inr (.inr ⟨.sum, v, cnt, rfl⟩)
  | prodN v cnt => exact .inr (.inr ⟨.prod, v, cnt, rfl⟩)
  | minN v cnt => exact .inr (.inr ⟨.min, v, cnt, rfl⟩)
  | maxN v cnt => exact .inr (.inr ⟨.max, v, cnt, rfl⟩)
  | gtN v cnt => exact .inr (.inr ⟨.gt, v, cnt, rfl⟩)
  | ltN v cnt => exact .inr (.inr ⟨.lt, v, cnt, rfl⟩)
  | eqN v cnt => exact .inr (.inr ⟨.eq, v, cnt, rfl⟩)

theorem instrB_eq_some {op : Op} {v : BitVec 3} {len : BitVec 15} {i : Instr} (h : instrB op.typeId v len = some i) :
    encode i = encodeB op.typeId v len ∧ i.wellFormed = true ∧ bitLength i = 22 := by
  obtain ⟨j, hj, he⟩ := instrB_typeId op v len
  cases h.symm.trans hj
  exact he

theorem instrN_eq_some {op : Op} {v : BitVec 3} {cnt : BitVec 11} {i : Instr} (h : instrN op.typeId v cnt = some i) :
    encode i = encodeN op.typeId v cnt ∧ i.wellFormed = true ∧ bitLength i = 18 := by
  obtain ⟨j, hj, he⟩ := instrN_typeId op v cnt
  cases h.symm.trans hj
  exact he

/-! ### The body after a header -/

theorem decodeLit_eq_ok_iff {v : BitVec 3} {body rest : List Bool} {i : Instr} :
    decodeLit v body = .ok (i, rest) ↔ ∃ ds, i = .lit v ds ∧ ds ≠ [] ∧ body = encodeGroups ds ++ rest := by
  constructor
  · intro h
    unfold decodeLit at h
    split at h
    case h_1 ds _ hg =>
      cases h
      exact ⟨ds, rfl, decodeGroups_ok hg⟩
    case h_2 => cases h
  · rintro ⟨ds, rfl, hne, rfl⟩
    rw [decodeLit, decodeGroups_encodeGroups ds rest hne]

theorem decodeGroups_error {bits : List Bool} {e : DecodeError} (h : decodeGroups bits = .error e) :
    e = .endsInGroup := by
  fun_induction decodeGroups bits with
  | case1 => cases h
  | case2 _ _ _ _ _ _ hrest ih => cases h; exact ih hrest
  | case3 => cases h
  | case4 => cases h; rfl

theorem decodeLit_error {v : BitVec 3} {body : List Bool} {e : DecodeError} (h : decodeLit v body = .error e) :
    e = .endsInGroup := by
  unfold decodeLit at h
  split at h
  case h_1 => cases h
  case h_2 hg =>
    cases h
    exact decodeGroups_error hg

/-- After an operator's header: fewer than 16 bits and one of the fields missing, or I = 0 and L, or I = 1 and N (R94,
R96). -/
theorem decodeOperator_cases (op : Op) (v : BitVec 3) (body : List Bool) :
    (body.length < 16 ∧ ∃ e, e ≠ .notAnOperator ∧ decodeOperator v op.typeId body = .error e) ∨
    (∃ len i rest, instrB op.typeId v len = some i ∧ body = false :: (bitsOf len ++ rest) ∧
      decodeOperator v op.typeId body = .ok (i, rest)) ∨
    (∃ cnt i rest, instrN op.typeId v cnt = some i ∧ body = true :: (bitsOf cnt ++ rest) ∧
      decodeOperator v op.typeId body = .ok (i, rest)) := by
  match body with
  | [] => exact .inl ⟨by decide, .endsInLengthTypeId, nofun, rfl⟩
  | false :: body =>
    cases hf : takeField 15 body with
    | none =>
      have := takeField_eq_none.1 hf
      exact .inl ⟨by simp; omega, .endsInTotalLength, nofun, by simp [decodeOperator, hf]⟩
    | some r =>
      obtain ⟨i, hi, -⟩ := instrB_typeId op v r.1
      exact .inr (.inl ⟨r.1, i, r.2, hi, by rw [takeField_eq_some.1 hf], by simp [decodeOperator, hf, hi]⟩)
  | true :: body =>
    cases hf : takeField 11 body with
    | none =>
      have := takeField_eq_none.1 hf
      exact .inl ⟨by simp; omega, .endsInChildCount, nofun, by simp [decodeOperator, hf]⟩
    | some r =>
      obtain ⟨i, hi, -⟩ := instrN_typeId op v r.1
      exact .inr (.inr ⟨r.1, i, r.2, hi, by rw [takeField_eq_some.1 hf], by simp [decodeOperator, hf, hi]⟩)

/-! ### Decoding and encoding -/

/-- R91 to R104: `decode` answers an instruction exactly where it is well-formed and its bits stand at the head. -/
theorem decode_eq_ok_iff {bits rest : List Bool} {i : Instr} :
    decode bits = .ok (i, rest) ↔ i.wellFormed = true ∧ bits = encode i ++ rest := by
  constructor
  · intro h
    have h6 : 6 ≤ bits.length := by
      by_contra hs
      rcases decode_of_length_lt_six (Nat.lt_of_not_le hs) with e | e <;> cases e.symm.trans h
    obtain ⟨v, t, body, rfl⟩ := exists_header h6
    rw [decode_encodeHeader] at h
    split at h
    case isTrue ht =>
      obtain ⟨ds, rfl, hne, rfl⟩ := decodeLit_eq_ok_iff.1 h
      exact ⟨by simpa [Instr.wellFormed] using hne, by simp [encode, ht]⟩
    case isFalse ht =>
      obtain ⟨op, rfl⟩ := exists_op ht
      rcases decodeOperator_cases op v body with
        ⟨-, _, -, hd⟩ | ⟨len, _, _, hj, rfl, hd⟩ | ⟨cnt, _, _, hj, rfl, hd⟩ <;> cases hd.symm.trans h
      · obtain ⟨he, hw, -⟩ := instrB_eq_some hj
        exact ⟨hw, by simp [he, encodeB]⟩
      · obtain ⟨he, hw, -⟩ := instrN_eq_some hj
        exact ⟨hw, by simp [he, encodeN]⟩
  · rintro ⟨hw, rfl⟩
    rcases wellFormed_cases hw with ⟨v, ds, rfl, hne⟩ | ⟨op, v, len, hi⟩ | ⟨op, v, cnt, hi⟩
    · rw [encode, List.append_assoc, decode_encodeHeader, if_pos rfl]
      exact decodeLit_eq_ok_iff.2 ⟨ds, rfl, hne, rfl⟩
    · rw [(instrB_eq_some hi).1, encodeB, List.append_assoc, decode_encodeHeader, if_neg (typeId_ne_lit op)]
      simp [decodeOperator, hi]
    · rw [(instrN_eq_some hi).1, encodeN, List.append_assoc, decode_encodeHeader, if_neg (typeId_ne_lit op)]
      simp [decodeOperator, hi]

theorem encode_length {i : Instr} (hw : i.wellFormed = true) : (encode i).length = bitLength i := by
  rcases wellFormed_cases hw with ⟨v, ds, rfl, -⟩ | ⟨op, v, len, hi⟩ | ⟨op, v, cnt, hi⟩
  · simp [encode, bitLength, encodeGroups_length]
  · obtain ⟨he, -, hl⟩ := instrB_eq_some hi
    rw [he, hl, encodeB_length]
  · obtain ⟨he, -, hl⟩ := instrN_eq_some hi
    rw [he, hl, encodeN_length]

/-- Settles O3: an instruction's own bits, then what follows them, are what `decode` takes apart. -/
theorem decodeAfterEncodeIsTheInstruction : Obligations.DecodeAfterEncodeIsTheInstruction :=
  fun _ _ hw => decode_eq_ok_iff.2 ⟨hw, rfl⟩

/-- Settles O4: what `decode` answers is well-formed and stands at the head, and its bits have their stated length. -/
theorem encodeAfterDecodeIsTheBits : Obligations.EncodeAfterDecodeIsTheBits := by
  intro bits rest i h
  obtain ⟨hw, hb⟩ := decode_eq_ok_iff.1 h
  exact ⟨hw, hb, encode_length hw⟩

/-- Settles O1: the bits written out are those of the instruction, then what is left over. -/
theorem workedEncodingsDecode : Obligations.WorkedEncodingsDecode :=
  ⟨decode_eq_ok_iff.2 (by decide), decode_eq_ok_iff.2 (by decide), decode_eq_ok_iff.2 (by decide),
    decode_eq_ok_iff.2 (by decide)⟩

/-! ### Continuations: every bit string is the beginning of one that decodes -/

/-- Nine zeros complete the group they begin in, and hold one more, which ends the literal (R93). -/
theorem decodeGroups_zeros :
    ∀ bits : List Bool, ∃ ds rest, decodeGroups (bits ++ List.replicate 9 false) = .ok (ds, rest)
  | [] => ⟨_, _, rfl⟩
  | [c] => by cases c <;> exact ⟨_, _, rfl⟩
  | [c, _] => by cases c <;> exact ⟨_, _, rfl⟩
  | [c, _, _] => by cases c <;> exact ⟨_, _, rfl⟩
  | [c, _, _, _] => by cases c <;> exact ⟨_, _, rfl⟩
  | c :: _ :: _ :: _ :: _ :: bits => by
    obtain ⟨ds, rest, hg⟩ := decodeGroups_zeros bits
    cases c with
    | false => exact ⟨_, _, rfl⟩
    | true => exact ⟨_, _, by simp only [List.cons_append, decodeGroups, hg, if_true]; rfl⟩

/-- R104: a whole header decodes once enough zeros are put after it and what follows it. -/
theorem decode_zeros {bits : List Bool} (h : 6 ≤ bits.length) :
    ∃ i rest, decode (bits ++ List.replicate 16 false) = .ok (i, rest) := by
  obtain ⟨v, t, body, rfl⟩ := exists_header h
  rw [List.append_assoc, decode_encodeHeader]
  split
  case isTrue =>
    obtain ⟨ds, rest, hg⟩ := decodeGroups_zeros (body ++ List.replicate 7 false)
    rw [List.append_assoc, List.replicate_append_replicate] at hg
    exact ⟨.lit v ds, rest, by rw [decodeLit, hg]⟩
  case isFalse ht =>
    obtain ⟨op, rfl⟩ := exists_op ht
    rcases decodeOperator_cases op v (body ++ List.replicate 16 false) with
      ⟨hs, -⟩ | ⟨_, i, rest, -, -, hd⟩ | ⟨_, i, rest, -, -, hd⟩
    · simp at hs
    · exact ⟨i, rest, hd⟩
    · exact ⟨i, rest, hd⟩

theorem decode_ne_notAnOperator (bits : List Bool) : decode bits ≠ .error .notAnOperator := by
  intro h
  by_cases h6 : 6 ≤ bits.length
  · obtain ⟨v, t, body, rfl⟩ := exists_header h6
    rw [decode_encodeHeader] at h
    split at h
    case isTrue => cases decodeLit_error h
    case isFalse ht =>
      obtain ⟨op, rfl⟩ := exists_op ht
      rcases decodeOperator_cases op v body with
        ⟨-, e, he, hd⟩ | ⟨_, _, _, -, -, hd⟩ | ⟨_, _, _, -, -, hd⟩ <;> cases hd.symm.trans h
      exact he rfl
  · rcases decode_of_length_lt_six (Nat.lt_of_not_le h6) with e | e <;> cases e.symm.trans h

/-- Settles O5: six zeros complete any header, and sixteen more any body. -/
theorem onlyStreamsThatEndAreRejected : Obligations.OnlyStreamsThatEndAreRejected := by
  intro bits e h
  refine ⟨fun he => decode_ne_notAnOperator bits (he ▸ h), List.replicate 6 false ++ List.replicate 16 false, ?_⟩
  rw [← List.append_assoc]
  exact decode_zeros (by simp)

/-! ### The opcode table: no mask reaches a version bit, so each row is found by the four bits after it -/

theorem matchingRows_lit (v : BitVec 3) (c : Bool) :
    (matchingRows (bitsVal (encodeHeader v 4#3 ++ [c]))).map OpcodeRow.mnemonic = ["LIT"] := by
  revert v c; decide

theorem matchingRows_instrB {op : Op} {v : BitVec 3} {len : BitVec 15} {i : Instr}
    (hi : instrB op.typeId v len = some i) :
    (matchingRows (bitsVal (encodeHeader v op.typeId ++ [false]))).map OpcodeRow.mnemonic = [mnemonicOf i] := by
  cases op <;> cases hi <;> simp only [mnemonicOf] <;> revert v <;> decide

theorem matchingRows_instrN {op : Op} {v : BitVec 3} {cnt : BitVec 11} {i : Instr}
    (hi : instrN op.typeId v cnt = some i) :
    (matchingRows (bitsVal (encodeHeader v op.typeId ++ [true]))).map OpcodeRow.mnemonic = [mnemonicOf i] := by
  cases op <;> cases hi <;> simp only [mnemonicOf] <;> revert v <;> decide

theorem encodeGroups_ne_nil : ∀ {ds : List (BitVec 4)}, ds ≠ [] → encodeGroups ds ≠ []
  | [], h => absurd rfl h
  | [_], _ => nofun
  | _ :: _ :: _, _ => nofun

/-- R101: the seven bits H7 that a packet begins with match one row of the opcode table, its own. -/
theorem exists_h7 {i : Instr} (hw : i.wellFormed = true) :
    ∃ h7 body, h7.length = 7 ∧ encode i = h7 ++ body ∧
      (matchingRows (bitsVal h7)).map OpcodeRow.mnemonic = [mnemonicOf i] := by
  rcases wellFormed_cases hw with ⟨v, ds, rfl, hne⟩ | ⟨op, v, len, hi⟩ | ⟨op, v, cnt, hi⟩
  · obtain ⟨c, body, hg⟩ := List.exists_cons_of_ne_nil (encodeGroups_ne_nil hne)
    exact ⟨encodeHeader v 4#3 ++ [c], body, by simp, by simp [encode, hg], matchingRows_lit v c⟩
  · refine ⟨encodeHeader v op.typeId ++ [false], bitsOf len, by simp, ?_, matchingRows_instrB hi⟩
    simp [(instrB_eq_some hi).1, encodeB]
  · refine ⟨encodeHeader v op.typeId ++ [true], bitsOf cnt, by simp, ?_, matchingRows_instrN hi⟩
    simp [(instrN_eq_some hi).1, encodeN]

/-- Settles O2: every table word decodes, and H7 is what its instruction's bits begin with. -/
theorem sevenBitsMatchOneRow : Obligations.SevenBitsMatchOneRow := by
  constructor
  · intro w hw
    obtain ⟨i, rest, hd⟩ := decode_zeros (bits := bitsOf (BitVec.ofNat 7 w) ++ List.replicate 1 false) (by simp)
    rw [List.append_assoc, List.replicate_append_replicate] at hd
    obtain ⟨hwf, hb⟩ := decode_eq_ok_iff.1 hd
    obtain ⟨h7, body, hl, he, hrow⟩ := exists_h7 hwf
    rw [he, List.append_assoc] at hb
    obtain ⟨rfl, -⟩ := List.append_inj hb (by simp [hl])
    rw [bitsVal_bitsOf, BitVec.toNat_ofNat, Nat.mod_eq_of_lt hw] at hrow
    obtain ⟨r, hr, hm⟩ := List.map_eq_singleton_iff.1 hrow
    exact ⟨r, i, hr, by simp only [decodeTableWord, tableBits, hd], hm.symm, by rw [he, List.take_left' hl]⟩
  · intro v
    simpa [decodeLit, decodeGroups] using decode_encodeHeader v 4#3 []

end Sys2Proof.Proofs
end

section
/-! The reference parse against the packet's bits: each packet form is parsed from its own fields, then its children. -/

namespace Sys2Proof.Proofs

open Sys2Proof Sys2Proof.Machine Sys2Proof.Laws

/-! ### Lengths -/

mutual
theorem packetEncode_length : ∀ p : Packet, (packetEncode p).length = packetBits p
  | .literal v ds => by simp [packetEncode, packetBits, encodeGroups_length]
  | .operator _ _ .l0 cs => by simp [packetEncode, packetBits, packetsEncode_length cs]
  | .operator _ _ .l1 cs => by simp [packetEncode, packetBits, packetsEncode_length cs]
theorem packetsEncode_length : ∀ cs : List Packet, (packetsEncode cs).length = packetsBits cs
  | [] => rfl
  | c :: cs => by simp [packetsEncode, packetsBits, packetEncode_length c, packetsEncode_length cs]
end

/-- R103: no packet is empty. -/
theorem packetBits_pos (p : Packet) : 0 < packetBits p := by
  match p with
  | .literal _ _ => simp [packetBits]
  | .operator _ _ .l0 _ => simp [packetBits]
  | .operator _ _ .l1 _ => simp [packetBits]

/-! ### One packet's own fields -/

theorem parsePacket_literal (maxDepth fuel depth : Nat) (v : BitVec 3) {ds : List (BitVec 4)} (rest : List Bool)
    (h : ds ≠ []) :
    parsePacket maxDepth (fuel + 1) depth (encodeHeader v 4#3 ++ encodeGroups ds ++ rest) =
      .ok (.literal v ds, rest) := by
  simp [parsePacket, encodeHeader, ofTypeId_eq_none.2 rfl, decodeGroups_encodeGroups ds rest h]

theorem parsePacket_encodeB {maxDepth depth : Nat} (fuel : Nat) (op : Op) (v : BitVec 3) (len : BitVec 15)
    (body : List Bool) (h : depth < maxDepth) :
    parsePacket maxDepth (fuel + 1) depth (encodeB op.typeId v len ++ body) =
      closeOperator v op .l0 (parseWindow maxDepth fuel (depth + 1) len.toNat body) := by
  simp [parsePacket, encodeB, encodeHeader, h]

theorem parsePacket_encodeN {maxDepth depth : Nat} (fuel : Nat) (op : Op) (v : BitVec 3) (cnt : BitVec 11)
    (body : List Bool) (h : depth < maxDepth) :
    parsePacket maxDepth (fuel + 1) depth (encodeN op.typeId v cnt ++ body) =
      closeOperator v op .l1 (parseCount maxDepth fuel (depth + 1) cnt.toNat body) := by
  simp [parsePacket, encodeN, encodeHeader, h]

/-! ### Children -/

/-- Among `depth` open operators the packet's bits are parsed back to it, whatever follows them (R226). -/
def ParsesBack (maxDepth depth : Nat) (p : Packet) : Prop :=
  ∀ (fuel : Nat) (rest : List Bool), packetBits p < fuel →
    parsePacket maxDepth fuel depth (packetEncode p ++ rest) = .ok (p, rest)

/-- A window of the children's own bits is used up exactly by them (R226). -/
theorem parseWindow_packetsEncode {maxDepth depth : Nat} {cs : List Packet}
    (hcs : ∀ c ∈ cs, ParsesBack maxDepth depth c) {fuel : Nat} (rest : List Bool) (hf : packetsBits cs + 1 < fuel) :
    parseWindow maxDepth fuel depth (packetsBits cs) (packetsEncode cs ++ rest) = .ok (cs, rest) := by
  induction cs generalizing fuel with
  | nil =>
    cases fuel with
    | zero => omega
    | succ fuel => simp [parseWindow, packetsBits, packetsEncode]
  | cons c cs ih =>
    obtain ⟨hc, hcs⟩ := List.forall_mem_cons.1 hcs
    have hpos := packetBits_pos c
    rw [packetsBits] at hf
    cases fuel with
    | zero => omega
    | succ fuel =>
      have hhead := hc fuel (packetsEncode cs ++ rest) (by omega)
      have htail := ih hcs (fuel := fuel) (by omega)
      simp [parseWindow, packetsBits, packetsEncode, packetEncode_length, Nat.ne_of_gt hpos, hhead, htail]

/-- A count of the children is used up exactly by them (R226). -/
theorem parseCount_packetsEncode {maxDepth depth : Nat} {cs : List Packet}
    (hcs : ∀ c ∈ cs, ParsesBack maxDepth depth c) {fuel : Nat} (rest : List Bool) (hf : packetsBits cs + 1 < fuel) :
    parseCount maxDepth fuel depth cs.length (packetsEncode cs ++ rest) = .ok (cs, rest) := by
  induction cs generalizing fuel with
  | nil =>
    cases fuel with
    | zero => omega
    | succ fuel => simp [parseCount, packetsEncode]
  | cons c cs ih =>
    obtain ⟨hc, hcs⟩ := List.forall_mem_cons.1 hcs
    have hpos := packetBits_pos c
    rw [packetsBits] at hf
    cases fuel with
    | zero => omega
    | succ fuel =>
      have hhead := hc fuel (packetsEncode cs ++ rest) (by omega)
      have htail := ih hcs (fuel := fuel) (by omega)
      simp [parseCount, packetsEncode, hhead, htail]

/-! ### The tree -/

theorem parsesBack_literal (maxDepth depth : Nat) (v : BitVec 3) {ds : List (BitVec 4)} (h : ds ≠ []) :
    ParsesBack maxDepth depth (.literal v ds) := by
  intro fuel rest hf
  cases fuel with
  | zero => omega
  | succ fuel => exact parsePacket_literal maxDepth fuel depth v rest h

/-- An operator is parsed back where its children are: its length field holds their bits or their count (R107). -/
theorem parsesBack_operator {maxDepth depth : Nat} {v : BitVec 3} {op : Op} {lt : LenType} {cs : List Packet}
    (hw : packetWf (.operator v op lt cs) = true) (hd : depth < maxDepth)
    (hcs : ∀ c ∈ cs, ParsesBack maxDepth (depth + 1) c) : ParsesBack maxDepth depth (.operator v op lt cs) := by
  intro fuel rest hf
  cases fuel with
  | zero => omega
  | succ fuel =>
    cases lt with
    | l0 =>
      simp only [packetWf, Bool.and_eq_true, decide_eq_true_eq] at hw
      obtain ⟨⟨-, ha⟩, hl⟩ := hw
      rw [packetBits] at hf
      rw [packetEncode, List.append_assoc, parsePacket_encodeB fuel op v _ _ hd, BitVec.toNat_ofNat,
        Nat.mod_eq_of_lt hl, parseWindow_packetsEncode hcs rest (by omega), closeOperator, if_pos ha]
    | l1 =>
      simp only [packetWf, Bool.and_eq_true, decide_eq_true_eq] at hw
      obtain ⟨⟨-, ha⟩, hl⟩ := hw
      rw [packetBits] at hf
      rw [packetEncode, List.append_assoc, parsePacket_encodeN fuel op v _ _ hd, BitVec.toNat_ofNat,
        Nat.mod_eq_of_lt hl, parseCount_packetsEncode hcs rest (by omega), closeOperator, if_pos ha]

/-- R105 (f): an operator's children are well-formed. -/
theorem packetsWf_children {v : BitVec 3} {op : Op} {lt : LenType} {cs : List Packet}
    (hw : packetWf (.operator v op lt cs) = true) : packetsWf cs = true := by
  cases lt <;> simp only [packetWf, Bool.and_eq_true] at hw <;> exact hw.1.1

mutual
theorem parsesBack {maxDepth depth : Nat} :
    ∀ p : Packet, packetWf p = true → packetDepth p + depth ≤ maxDepth → ParsesBack maxDepth depth p
  | .literal v ds, hw, _ => parsesBack_literal maxDepth depth v (by simpa [packetWf] using hw)
  | .operator v op lt cs, hw, hd => by
    rw [packetDepth] at hd
    exact parsesBack_operator hw (by omega) (parsesBack_all cs (packetsWf_children hw) (by omega))
theorem parsesBack_all {maxDepth depth : Nat} :
    ∀ cs : List Packet, packetsWf cs = true → packetsDepth cs + depth ≤ maxDepth → ∀ c ∈ cs, ParsesBack maxDepth depth c
  | [], _, _ => nofun
  | c :: cs, hw, hd => by
    simp only [packetsWf, Bool.and_eq_true] at hw
    rw [packetsDepth] at hd
    exact List.forall_mem_cons.2 ⟨parsesBack c hw.1 (by omega), parsesBack_all cs hw.2 (by omega)⟩
end

/-- Settles O6, by induction on the packet tree; every packet and every list of children costs one unit of fuel. -/
theorem encodedPacketParsesBack : Obligations.EncodedPacketParsesBack := by
  intro p maxDepth fuel depth rest hw hd hf
  rw [packetEncode_length] at hf
  exact parsesBack p hw hd fuel rest hf

end Sys2Proof.Proofs
end

section
/-! The literal's groups: the accumulator follows the exact value, narrowed at every group. -/

namespace Sys2Proof.Proofs

open Sys2Proof Sys2Proof.Machine Sys2Proof.Laws

/-- The exact value of groups read after others whose exact value is `a` (R98). -/
def litValueFrom (a : Nat) (ds : List (BitVec 4)) : Nat := ds.foldl (fun value d => value * 16 + d.toNat) a

theorem litValueFrom_zero (ds : List (BitVec 4)) : litValueFrom 0 ds = litValue ds := rfl

theorem litValueFrom_cons (a : Nat) (d : BitVec 4) (ds : List (BitVec 4)) :
    litValueFrom a (d :: ds) = litValueFrom (a * 16 + d.toNat) ds := rfl

/-- R141, R142: groups that fit in the stream go on from the exact value `a` of those before them: where `acc` is `a` in
W bits and `ovf` tells whether `a` needs more, so do they at the end. -/
theorem litGroups_fits {ds : List (BitVec 4)} {s : State} {a : Nat} {o : Bool} (hd : ds ≠ [])
    (hn : s.pos.toNat + 5 * ds.length ≤ s.nbits.toNat) (hacc : s.acc = a % 2 ^ s.params.width)
    (hovf : s.ovf = (o || decide (2 ^ s.params.width ≤ a))) :
    litGroups ds s = .next { s with
      pos := s.pos + BitVec.ofNat 32 (5 * ds.length)
      acc := litValueFrom a ds % 2 ^ s.params.width, ret := litValueFrom a ds % 2 ^ s.params.width
      ovf := o || decide (2 ^ s.params.width ≤ litValueFrom a ds), es := .ret } := by
  induction ds generalizing s a with
  | nil => exact absurd rfl hd
  | cons d ds ih =>
    obtain ⟨hv, ho⟩ := litW_step s.params.width a d o
    rw [← hacc, ← hovf] at ho
    rw [← hacc] at hv
    rw [List.length_cons] at hn
    cases ds with
    | nil =>
      rw [litGroups, field_fits (by omega), litLast, hv, ho]
      rfl
    | cons e es =>
      have hp : (litMore d s).pos.toNat = s.pos.toNat + 5 := toNat_pos_add (n := 5) (by omega)
      have hfit : (litMore d s).pos.toNat + 5 * (e :: es).length ≤ (litMore d s).nbits.toNat := by
        rw [hp, litMore_nbits]
        omega
      have hpos : s.pos + 5 + BitVec.ofNat 32 (5 * (e :: es).length) =
          s.pos + BitVec.ofNat 32 (5 * (d :: e :: es).length) := by
        rw [List.length_cons (a := d), Nat.mul_succ, BitVec.ofNat_add, BitVec.add_assoc, BitVec.add_comm 5]
        rfl
      rw [litGroups, field_fits (by omega), ih (by simp) hfit hv ho, litMore_pos, hpos, litValueFrom_cons a]
      · rfl
      · exact nofun

/-- Settles O10: the header's six bits fit and begin the groups with `acc` 0, which no `ovf` is due for. -/
theorem litGivesItsValue : Obligations.LitGivesItsValue := by
  intro v ds s hd hn
  have hpos : (hdrV v s).pos.toNat = s.pos.toNat + 3 := toNat_pos_add (n := 3) (by omega)
  have hfit : (hdrT 4#3 (hdrV v s)).pos.toNat = s.pos.toNat + 6 := by
    rw [hdrT_pos]
    exact (toNat_pos_add (s := hdrV v s) (n := 3) (by rw [hpos, hdrV_nbits]; omega)).trans (by rw [hpos])
  have hsum : s.pos + 3 + 3 + BitVec.ofNat 32 (5 * ds.length) = s.pos + BitVec.ofNat 32 (6 + 5 * ds.length) := by
    rw [BitVec.ofNat_add, BitVec.add_assoc s.pos, BitVec.add_assoc]
    rfl
  have hg := litGroups_fits (s := hdrT 4#3 (hdrV v s)) (a := 0) (o := s.ovf) hd
    (by rw [hfit, hdrT_nbits, hdrV_nbits]; omega) (Nat.zero_mod _).symm (by simp [hdrT])
  rw [show exec (.lit v ds) s = literal v ds s from rfl, literal, if_neg (by simpa using hd), header,
    field_fits (by omega), field_fits (by rw [hpos, hdrV_nbits]; omega), hg, hdrT_pos, hdrV_pos, hsum,
    litValueFrom_zero]
  rfl

end Sys2Proof.Proofs
end

section
/-! The bit cursor where the stream ends or a run begins: the reads that fail, the header's fields, SCAN and START. -/

namespace Sys2Proof.Proofs

open Sys2Proof Sys2Proof.Machine Sys2Proof.Laws Sys2Proof.Safety

/-! ### Instructions cut short -/

/-- R124, R125, R270: a failed read of n bits ends in ERROR at the cursor it found. -/
theorem errorState_raiseShort (n : Nat) (s : State) : errorState (raiseShort n s) 1 (BitVec.ofNat 8 n) s.pos :=
  ⟨rfl, rfl, rfl, rfl, rfl, rfl, rfl, rfl, rfl⟩

@[simp] theorem hdrT_frames (t : BitVec 3) (s : State) : (hdrT t s).frames = s.frames := by
  rcases hdrT_cases t s with ⟨_, h⟩ | ⟨_, h⟩ <;> rw [h]

/-- `u` is reached from `s` by reading `a` bits of one packet's own fields. -/
structure Ahead (s : State) (a : Nat) (u : State) : Prop where
  fits : s.pos.toNat + a ≤ s.nbits.toNat
  pos : u.pos = s.pos + BitVec.ofNat 32 a
  nbits : u.nbits = s.nbits
  frames : u.frames = s.frames

theorem Ahead.toNat_pos {s u : State} {a : Nat} (h : Ahead s a u) : u.pos.toNat = s.pos.toNat + a := by
  rw [h.pos, toNat_pos_add h.fits]

theorem Ahead.refl {s : State} (h : s.pos.toNat ≤ s.nbits.toNat) : Ahead s 0 s :=
  ⟨h, (BitVec.add_zero _).symm, rfl, rfl⟩

/-- The use of a field of n bits that fits goes n bits further. -/
theorem Ahead.advance {s u v : State} {a n : Nat} (h : Ahead s a u) (hn : u.pos.toNat + n ≤ u.nbits.toNat)
    (hpos : v.pos = u.pos + BitVec.ofNat 32 n) (hnbits : v.nbits = u.nbits) (hframes : v.frames = u.frames) :
    Ahead s (a + n) v where
  fits := by
    rw [h.toNat_pos, h.nbits] at hn
    omega
  pos := by rw [hpos, h.pos, BitVec.ofNat_add, BitVec.add_assoc]
  nbits := hnbits.trans h.nbits
  frames := hframes.trans h.frames

/-- Where the fields `ws`, the first of them `a` bits after `s`'s cursor, do not all fit in `s`'s stream, the outcome is
OUT_OF_BITS at the first that does not. -/
def CutShort (s : State) (a : Nat) (ws : List Nat) (o : Out) : Prop :=
  ∀ off w, firstMissing (s.nbits.toNat - s.pos.toNat) a ws = some (off, w) →
    ∃ t, o = .next t ∧ errorState t 1 (BitVec.ofNat 8 w) (s.pos + BitVec.ofNat 32 off) ∧ t.frames = s.frames

theorem cutShort_nil (s : State) (a : Nat) (o : Out) : CutShort s a [] o := nofun

/-- One field of a decoded packet against one step of `firstMissing`: both stop at it, or both go on past it. -/
theorem cutShort_field {s u : State} {a n : Nat} {ws : List Nat} {k : Out} (hu : Ahead s a u)
    (hk : u.pos.toNat + n ≤ u.nbits.toNat → CutShort s (a + n) ws k) : CutShort s a (n :: ws) (field n u k) := by
  intro off w hm
  have hfits := hu.fits
  have hpos := hu.toNat_pos
  have hnbits := congrArg BitVec.toNat hu.nbits
  rw [firstMissing] at hm
  rcases field_cases n u k with ⟨hn, e⟩ | ⟨hn, e⟩
  · rw [if_pos (by omega)] at hm
    cases hm
    exact ⟨raiseShort n u, e, hu.pos ▸ errorState_raiseShort n u, hu.frames⟩
  · rw [if_neg (by omega)] at hm
    rw [e]
    exact hk hn off w hm

theorem cutShort_header {v t : BitVec 3} {s : State} {ws : List Nat} {body : State → Out}
    (h : s.pos.toNat ≤ s.nbits.toNat) (hb : ∀ u, Ahead s 6 u → CutShort s 6 ws (body u)) :
    CutShort s 0 (3 :: 3 :: ws) (header v t s body) := by
  refine cutShort_field (.refl h) fun hV => ?_
  have hu : Ahead s 3 (hdrV v s) := (Ahead.refl h).advance hV rfl rfl rfl
  exact cutShort_field hu fun hT => hb _ (hu.advance hT (hdrT_pos t _) (hdrT_nbits t _) (hdrT_frames t _))

theorem cutShort_litGroups {s u : State} {a : Nat} (ds : List (BitVec 4)) (hu : Ahead s a u) :
    CutShort s a (ds.map fun _ => 5) (litGroups ds u) := by
  induction ds generalizing a u with
  | nil => exact cutShort_nil s a _
  | cons d ds ih =>
    cases ds with
    | nil => exact cutShort_field hu fun _ => cutShort_nil s _ _
    | cons e es => exact cutShort_field hu fun hn => ih (hu.advance hn rfl rfl rfl)

/-- The fields of an operator after its header: the length-type-id, then a length of n bits (R94, R96). -/
theorem cutShort_lengthField {s u : State} {a n : Nat} {i : BitVec 1} {k : Out} (hu : Ahead s a u) :
    CutShort s a [1, n] (field 1 u (field n (opI i u) k)) :=
  cutShort_field hu fun hn => cutShort_field (hu.advance hn rfl rfl rfl) fun _ => cutShort_nil s _ _

theorem cutShort_exec {i : Instr} {s : State} (hw : i.wellFormed = true) (h : s.pos.toNat ≤ s.nbits.toNat) :
    CutShort s 0 (fieldWidths i) (exec i s) := by
  rcases exec_eq i s with ⟨v, ds, rfl, e⟩ | ⟨op, v, len, _, _, hf, e⟩ | ⟨op, v, cnt, _, _, hf, e⟩
  · rw [e, literal, if_neg (by simpa [Instr.wellFormed] using hw)]
    exact cutShort_header h fun _ => cutShort_litGroups ds
  · rw [e, hf]
    exact cutShort_header h fun _ => cutShort_lengthField
  · rw [e, hf]
    exact cutShort_header h fun _ => cutShort_lengthField

/-- Settles O15: the instruction's fields are checked one by one, as `firstMissing` looks for the first missing one. -/
theorem cutShortInstructionRaisesOutOfBits : Obligations.CutShortInstructionRaisesOutOfBits :=
  fun _ _ off w hw h => cutShort_exec hw h off w

/-! ### Failed reads -/

/-- R124: in a reading micro-state too few bits for the field are a failed read, whatever the field's use. -/
theorem microStep_short {s : State} {n : Nat} (hr : (s.es, n) ∈ readers) (h : s.nbits.toNat < s.pos.toNat + n) :
    microStep s = .next (raiseShort n s) := by
  simp only [readers, List.mem_cons, Prod.mk.injEq, List.not_mem_nil, or_false] at hr
  rcases hr with ⟨he, rfl⟩ | ⟨he, rfl⟩ | ⟨he, rfl⟩ | ⟨he, rfl⟩ | ⟨he, rfl⟩ | ⟨he, rfl⟩ <;>
    · rw [microStep, he]
      exact readField_short h

/-- Settles O32: a failed read raises at the cursor, which no raise writes. -/
theorem failedReadConsumesNothing : Obligations.FailedReadConsumesNothing :=
  fun s n hr h => ⟨raiseShort n s, microStep_short hr h, errorState_raiseShort n s, rfl⟩

/-! ### The header -/

/-- R11: three stream bits are the 3-bit field they spell, most significant first. -/
theorem exists_reads_three {s : State} {a b c : Bool} (h : s.pos.toNat + 3 ≤ s.nbits.toNat)
    (hb : streamBits s s.pos.toNat 3 = some [a, b, c]) :
    ∃ v : BitVec 3, reads s v ∧ v.toNat = 4 * a.toNat + 2 * b.toNat + c.toNat := by
  refine ⟨BitVec.ofNat 3 (bitsVal [a, b, c]), ⟨h, ?_⟩, ?_⟩
  · rw [hb, bitsOf_ofNat_bitsVal (by rfl)]
  · refine (Nat.mod_eq_of_lt (bitsVal_lt [a, b, c])).trans ?_
    simp [bitsVal_cons]
    omega

theorem microStep_hdrV {s : State} {v : BitVec 3} (he : s.es = .hdrV) (hv : reads s v) :
    microStep s = .next (hdrV v s) := by
  rw [microStep, he]
  exact readField_fits hv.1 hv.2

theorem microStep_hdrT {s : State} {t : BitVec 3} (he : s.es = .hdrT) (ht : reads s t) :
    microStep s = .next (hdrT t s) := by
  rw [microStep, he]
  exact readField_fits ht.1 ht.2

/-- R126: the header of a packet is due after SCAN and after NEXT only. -/
theorem Move.source_of_hdrV {s t : State} (h : Move s t) (ht : t.es = .hdrV) : s.es = .scan ∨ s.es = .next := by
  cases h with
  | quiet hb =>
    rw [ht] at hb
    cases hb
  | scanDone he _ => exact .inl he
  | scanOk _ _ he _ _ _ => exact .inl he
  | nextChild _ _ he _ _ => exact .inr he
  | _ => cases ht

/-- Settles O27: the field read is what its three bits spell, and only two moves lead to HDR_V. -/
theorem headerReadsTheVersion : Obligations.HeaderReadsTheVersion := by
  refine ⟨?reads, ?short, ?source⟩
  case reads =>
    intro s a b c he h hb
    obtain ⟨v, hv, hval⟩ := exists_reads_three h hb
    exact ⟨hdrV v s, microStep_hdrV he hv, hval, rfl, rfl⟩
  case short =>
    exact fun s he h => ⟨_, microStep_short (by simp [readers, he]) h, errorState_raiseShort 3 s⟩
  case source => exact fun _ _ h => (move_of_microStep h).source_of_hdrV

/-- Settles O28: the field read is what its three bits spell, and HDR_T goes two ways on it. -/
theorem headerDispatchesOnTheTypeId : Obligations.HeaderDispatchesOnTheTypeId := by
  refine ⟨?reads, ?short⟩
  case reads =>
    intro s a b c he h hb
    obtain ⟨t, ht, hval⟩ := exists_reads_three h hb
    refine ⟨hdrT t s, microStep_hdrT he ht, ?_⟩
    rcases hdrT_cases t s with ⟨rfl, e⟩ | ⟨hne, e⟩ <;> rw [e]
    · exact ⟨hval, fun _ => rfl, fun h4 => absurd rfl h4⟩
    · exact ⟨hval, fun h4 => absurd (BitVec.eq_of_toNat_eq h4) hne, fun _ => rfl⟩
  case short =>
    exact fun s he h => ⟨_, microStep_short (by simp [readers, he]) h, errorState_raiseShort 3 s⟩

/-! ### SCAN -/

/-- R62: `hexval` has a value at the codes of the hex digits, and nowhere else. -/
theorem hexval_eq_none_iff {c : Byte} : hexval c = none ↔ ¬isHexCode c := by
  unfold hexval isHexCode
  split_ifs <;> simp <;> omega

theorem ibufAt_eq_ibufByte {s : State} {i : Nat} (h : i < s.params.maxChars) : ibufAt s i = some (ibufByte s i) :=
  if_pos h

theorem microStep_scan {s : State} (he : s.es = .scan) : microStep s = scanStep s := by
  rw [microStep, he]

/-- Settles O26: one equation of `scanStep` per case of the character at `scan_i`. -/
theorem scanValidatesOneCharacter : Obligations.ScanValidatesOneCharacter := by
  intro s he
  rw [microStep_scan he]
  refine ⟨fun hi => if_pos hi, fun hi hm hc => ?_, fun hi hm hc => ?_⟩ <;>
    rw [scanStep, if_neg hi, ibufAt_eq_ibufByte hm]
  · obtain ⟨d, hd⟩ := Option.ne_none_iff_exists'.1 (mt hexval_eq_none_iff.1 (not_not_intro hc))
    simp only [hd]
  · simp only [hexval_eq_none_iff.2 hc]
    exact ⟨_, rfl, rfl, rfl, rfl, rfl, rfl, rfl, rfl, rfl, rfl⟩

/-! ### START -/

/-- R241: a CTRL write with bit 0 set is START unless a run is BUSY. -/
theorem hostEvent_start {s : State} {v : Word} (hb : ¬busy s) (hv : v.getLsbD 0 = true) :
    hostEvent (.write 0 4 v) s = .next (startRun s) := by
  have hc : ctrlWrite v s = startRun s := if_pos (by simpa [hv, busy] using hb)
  exact congrArg Host.Outcome.next hc

/-- Settles O34: with a LEN that fits, START's clears are followed by entering SCAN. -/
theorem startBeginsARun : Obligations.StartBeginsARun := by
  intro s v hb hv hl
  rw [hostEvent_start hb hv, startRun, if_neg (by omega)]
  rfl

/-- Settles O35: with a LEN that is too long, START's clears are followed by the raise, whatever the buffer holds. -/
theorem startRejectsLongInput : Obligations.StartRejectsLongInput := by
  intro s v hb hv hl
  have h : ∀ m, hostEvent (.write 0 4 v) { s with ibuf := m } =
      .next (raiseError .lenRange 0 0 (clearRun { s with ibuf := m })) := fun m => by
    rw [hostEvent_start (s := { s with ibuf := m }) hb hv, startRun, if_pos hl]
  exact ⟨_, h s.ibuf, ⟨rfl, rfl, rfl, rfl, rfl, rfl, rfl, rfl, rfl⟩, h⟩

end Sys2Proof.Proofs
end

section
/-! The literal: what LIT leaves unchanged, and what one LIT_G does with the five bits it reads. -/

namespace Sys2Proof.Proofs

open Sys2Proof Sys2Proof.Machine Sys2Proof.Laws Sys2Proof.Safety

/-! ### The frame of LIT -/

theorem sameResults_trans {s t u : State} (hst : sameResults s t) (htu : sameResults t u) : sameResults s u := by
  obtain ⟨h1, h2, h3, h4, h5, h6, h7, h8⟩ := hst
  obtain ⟨k1, k2, k3, k4, k5, k6, k7, k8⟩ := htu
  exact ⟨k1.trans h1, k2.trans h2, k3.trans h3, k4.trans h4, k5.trans h5, k6.trans h6, k7.trans h7, k8.trans h8⟩

/-- What a packet's fields leave unchanged until a frame is pushed; an error writes only the result registers (R269). -/
structure Leaves (s t : State) : Prop where
  input : sameInput s t
  frames : t.frames = s.frames
  scanI : t.scanI = s.scanI
  nbits : t.nbits = s.nbits
  results : t.es ≠ .error → sameResults s t

theorem Leaves.trans {s u t : State} (hu : Leaves s u) (he : u.es ≠ .error) (ht : Leaves u t) : Leaves s t where
  input := sameInput_trans hu.input ht.input
  frames := ht.frames.trans hu.frames
  scanI := ht.scanI.trans hu.scanI
  nbits := ht.nbits.trans hu.nbits
  results h := sameResults_trans (hu.results he) (ht.results h)

theorem leaves_raiseShort (n : Nat) (s : State) : Leaves s (raiseShort n s) :=
  ⟨⟨rfl, rfl, rfl, rfl, rfl, rfl, fun _ => rfl⟩, rfl, rfl, rfl, fun h => absurd rfl h⟩

/-- The registers that a field's use writes (R126, R127, R141). -/
theorem leaves_write (s : State) (pos : Word) (ver typ : BitVec 3) (acc ret : Value) (vacc : Word) (ovf : Bool)
    (es : Micro) : Leaves s { s with
      pos := pos, ver := ver, typ := typ, acc := acc, ret := ret, vacc := vacc, ovf := ovf, es := es } :=
  ⟨⟨rfl, rfl, rfl, rfl, rfl, rfl, fun _ => rfl⟩, rfl, rfl, rfl, fun _ => ⟨rfl, rfl, rfl, rfl, rfl, rfl, rfl, rfl⟩⟩

theorem leaves_hdrV (v : BitVec 3) (s : State) : Leaves s (hdrV v s) := leaves_write ..

theorem leaves_hdrT_lit (s : State) : Leaves s (hdrT 4#3 s) := leaves_write ..

theorem leaves_litMore (d : BitVec 4) (s : State) : Leaves s (litMore d s) := leaves_write ..

theorem leaves_litLast (d : BitVec 4) (s : State) : Leaves s (litLast d s) := leaves_write ..

/-- A field of a decoded packet ends the instruction short of bits, or leaves the rest to its use. -/
theorem leaves_field {n : Nat} {s t : State} {k : Out} (ht : field n s k = .next t) (hk : k = .next t → Leaves s t) :
    Leaves s t := by
  rcases field_cases n s k with ⟨_, e⟩ | ⟨_, e⟩
  · cases e.symm.trans ht
    exact leaves_raiseShort n s
  · exact hk (e.symm.trans ht)

theorem leaves_litGroups {ds : List (BitVec 4)} {s t : State} (ht : litGroups ds s = .next t) : Leaves s t := by
  induction ds generalizing s with
  | nil => cases ht
  | cons d ds ih =>
    cases ds with
    | nil =>
      refine leaves_field ht fun h => ?_
      cases h
      exact leaves_litLast d s
    | cons e es => exact leaves_field ht fun h => (leaves_litMore d s).trans nofun (ih h)

theorem leaves_literal {v : BitVec 3} {ds : List (BitVec 4)} {s t : State} (ht : literal v ds s = .next t) :
    Leaves s t := by
  unfold literal at ht
  split at ht
  case isTrue => cases ht
  case isFalse =>
    exact leaves_field ht fun h => (leaves_hdrV v s).trans nofun <|
      leaves_field h fun h => (leaves_hdrT_lit (hdrV v s)).trans nofun (leaves_litGroups h)

/-- Settles O16: each field of a literal raises, or goes on having written none of these registers. -/
theorem litLeavesTheRest : Obligations.LitLeavesTheRest := by
  intro v ds s t ht
  obtain ⟨hi, hf, hs, hn, hr⟩ := leaves_literal (v := v) (ds := ds) ht
  exact ⟨hi, hf, hs, hn, hr⟩

/-! ### One group -/

/-- R11: a field's first bit is its most significant. -/
theorem bitsOf_cons {n : Nat} (c : Bool) (d : BitVec n) : bitsOf (BitVec.cons c d) = c :: bitsOf d := by
  refine bitsVal_inj (by simp) ?_
  rw [bitsVal_cons, bitsVal_bitsOf, bitsVal_bitsOf, bitsOf_length, BitVec.toNat_cons', Nat.shiftLeft_eq]

/-- R93, R141: C_j chooses whether the literal goes on, and D_j is appended either way. -/
theorem litG_cons (c : Bool) (d : BitVec 4) (s : State) :
    litG (BitVec.cons c d) s = if c then litMore d s else litLast d s := by
  rw [litG, BitVec.getLsbD_cons, if_pos rfl, BitVec.setWidth_cons]

theorem microStep_litG {s : State} {g : BitVec 5} (he : s.es = .litG) (hg : reads s g) :
    microStep s = .next (litG g s) := by
  rw [microStep, he]
  exact readField_fits hg.1 hg.2

/-- R93: five stream bits are a group, C_j and then the bits of D_j. -/
theorem exists_reads_group {s : State} {c a3 a2 a1 a0 : Bool} (h : s.pos.toNat + 5 ≤ s.nbits.toNat)
    (hb : streamBits s s.pos.toNat 5 = some [c, a3, a2, a1, a0]) :
    ∃ d : BitVec 4, reads s (BitVec.cons c d) ∧
      d.toNat = 8 * a3.toNat + 4 * a2.toNat + 2 * a1.toNat + a0.toNat := by
  refine ⟨BitVec.ofNat 4 (bitsVal [a3, a2, a1, a0]), ⟨h, ?_⟩, ?_⟩
  · rw [hb, bitsOf_cons, bitsOf_ofNat_bitsVal (by rfl)]
  · refine (Nat.mod_eq_of_lt (bitsVal_lt [a3, a2, a1, a0])).trans ?_
    simp [bitsVal_cons]
    omega

/-- Settles O29: the group read is what its five bits spell, and C_j chooses between LIT_G's two outcomes. -/
theorem literalGroupAppendsFourBits : Obligations.LiteralGroupAppendsFourBits := by
  refine ⟨?reads, ?short⟩
  case reads =>
    intro s c a3 a2 a1 a0 exact he h hb hexact
    obtain ⟨d, hg, hd⟩ := exists_reads_group h hb
    rw [← hd] at hexact
    rw [microStep_litG he hg, litG_cons, hexact]
    refine ⟨?more, ?last⟩
    case more =>
      rintro rfl
      rw [if_pos rfl, litMore, ← he]
      rfl
    case last =>
      rintro rfl
      rfl
  case short =>
    exact fun s he h => ⟨_, microStep_short (by simp [readers, he]) h, errorState_raiseShort 5 s⟩

end Sys2Proof.Proofs
end

section
/-! Refinement: an instruction run at once, against the micro-steps that read its fields from the stream. Both take one
field at a time, and both raise OUT_OF_BITS at the first that the stream does not hold. -/

namespace Sys2Proof.Proofs

open Sys2Proof Sys2Proof.Machine Sys2Proof.Laws Sys2Proof.Safety

/-! ### The stream at the cursor -/

/-- From bit address `a` on the stream holds `bits`, or as many of them as it has left. -/
def HoldsAt (s : State) (a : Nat) (bits : List Bool) : Prop :=
  streamBits s a (min bits.length (s.nbits.toNat - a)) = some (bits.take (s.nbits.toNat - a))

/-- A field before the stream's end is read whole, and the bits after it stand after it. -/
theorem HoldsAt.field {s : State} {a n : Nat} {v : BitVec n} {bits : List Bool} (h : HoldsAt s a (bitsOf v ++ bits))
    (hn : a + n ≤ s.nbits.toNat) : streamBits s a n = some (bitsOf v) ∧ HoldsAt s (a + n) bits := by
  have hlen : min (bitsOf v ++ bits).length (s.nbits.toNat - a) = n + min bits.length (s.nbits.toNat - (a + n)) := by
    simp only [List.length_append, bitsOf_length]
    omega
  have htake : (bitsOf v ++ bits).take (s.nbits.toNat - a) = bitsOf v ++ bits.take (s.nbits.toNat - (a + n)) := by
    rw [List.take_append, List.take_of_length_le (by rw [bitsOf_length]; omega), bitsOf_length, Nat.sub_sub]
  rw [HoldsAt, hlen, htake, streamBits_add] at h
  obtain ⟨as, bs, has, hbs, e⟩ := h
  obtain ⟨rfl, rfl⟩ := List.append_inj e (by rw [bitsOf_length, streamBits_length has])
  exact ⟨has, hbs⟩

/-- A move writes neither the input nor the stream's length. -/
theorem HoldsAt.move {s t : State} {a : Nat} {bits : List Bool} (h : HoldsAt s a bits) (ht : Move s t) :
    HoldsAt t a bits := by
  obtain ⟨hp, -, hm, -, -, hd, -⟩ := ht.input
  rwa [HoldsAt, streamBits_congr hp hm hd, ht.nbits]

/-! ### One field -/

/-- One micro-step per field: where the rest of the fields is run from the field's use, so is the whole. -/
theorem engineRun_field {s t : State} {n k : Nat} {v : BitVec n} {bits : List Bool} {o : Out}
    (hr : (s.es, n) ∈ readers) (hs : HoldsAt s s.pos.toNat (bitsOf v ++ bits))
    (hm : reads s v → microStep s = .next t) (hp : t.pos = s.pos + BitVec.ofNat 32 n)
    (ho : HoldsAt t t.pos.toNat bits → engineRun k t = o) : engineRun (k + 1) s = field n s o := by
  rcases field_cases n s o with ⟨hn, e⟩ | ⟨hn, e⟩ <;> rw [e]
  · rw [engineRun_succ (microStep_short hr hn)]
    exact engineRun_quiet rfl k
  · obtain ⟨hv, hrest⟩ := hs.field hn
    have ht := hm ⟨hn, hv⟩
    rw [engineRun_succ ht]
    refine ho ?_
    rw [hp, toNat_pos_add hn]
    exact hrest.move (move_of_microStep ht)

theorem engineRun_one (s : State) : engineRun 1 s = microStep s := by
  rw [engineRun]
  cases microStep s <;> rfl

/-- The last field of an instruction; its use may raise, and leave the cursor (R154). -/
theorem engineRun_lastField {s t : State} {n : Nat} {v : BitVec n} (hr : (s.es, n) ∈ readers)
    (hs : HoldsAt s s.pos.toNat (bitsOf v)) (hm : reads s v → microStep s = .next t) :
    engineRun 1 s = field n s (.next t) := by
  rw [← List.append_nil (bitsOf v)] at hs
  rw [engineRun_one]
  rcases field_cases n s (.next t) with ⟨hn, e⟩ | ⟨hn, e⟩ <;> rw [e]
  · exact microStep_short hr hn
  · exact hm ⟨hn, (hs.field hn).1⟩

/-! ### The header and the two bodies -/

/-- R126, R127: two micro-steps read the header, and the rest run the body. -/
theorem engineRun_header {s : State} {v t : BitVec 3} {k : Nat} {bits : List Bool} {body : State → Out}
    (he : s.es = .hdrV) (hs : HoldsAt s s.pos.toNat (encodeHeader v t ++ bits))
    (hb : ∀ u, u = hdrT t (hdrV v s) → HoldsAt u u.pos.toNat bits → engineRun k u = body u) :
    engineRun (k + 2) s = header v t s body := by
  rw [encodeHeader, List.append_assoc] at hs
  exact engineRun_field (by simp [readers, he]) hs (microStep_hdrV he) rfl fun hs =>
    engineRun_field (by simp [readers]) hs (microStep_hdrT rfl) (hdrT_pos t _) (hb _ rfl)

/-- R141: one micro-step per group. -/
theorem engineRun_litGroups {ds : List (BitVec 4)} {s : State} (hd : ds ≠ []) (he : s.es = .litG)
    (hs : HoldsAt s s.pos.toNat (encodeGroups ds)) : engineRun ds.length s = litGroups ds s := by
  have hr : (s.es, 5) ∈ readers := by simp [readers, he]
  induction ds generalizing s with
  | nil => exact absurd rfl hd
  | cons d ds ih =>
    cases ds with
    | nil =>
      rw [encodeGroups, ← bitsOf_cons] at hs
      refine engineRun_lastField hr hs fun hg => ?_
      rw [microStep_litG he hg, litG_cons, if_neg nofun]
    | cons e es =>
      rw [encodeGroups, ← bitsOf_cons] at hs
      · refine engineRun_field hr hs (fun hg => ?_) rfl fun hs => ih (by simp) rfl hs (by simp [readers])
        rw [microStep_litG he hg, litG_cons, if_pos rfl]
      · exact nofun

theorem microStep_opI {s : State} {i : BitVec 1} (he : s.es = .opI) (hi : reads s i) :
    microStep s = .next (opI i s) := by
  rw [microStep, he]
  exact readField_fits hi.1 hi.2

theorem microStep_opL0 {s : State} {op : Op} {len : BitVec 15} (he : s.es = .opL0) (ht : s.typ = op.typeId)
    (hl : reads s len) : microStep s = .next (opL0 op len s) := by
  rw [microStep, he]
  refine (readField_fits hl.1 hl.2).trans ?_
  rw [withOperator, ht, ofTypeId_typeId]

theorem microStep_opL1 {s : State} {op : Op} {cnt : BitVec 11} (he : s.es = .opL1) (ht : s.typ = op.typeId)
    (hc : reads s cnt) : microStep s = .next (opL1 op cnt s) := by
  rw [microStep, he]
  refine (readField_fits hc.1 hc.2).trans ?_
  rw [withOperator, ht, ofTypeId_typeId]

/-- R151 to R153: one micro-step reads the length-type-id, and one the length field, whose use ends the instruction. -/
theorem engineRun_lengthField {s t : State} {i : BitVec 1} {n : Nat} {x : BitVec n} (he : s.es = .opI)
    (hr : ((opI i s).es, n) ∈ readers) (hs : HoldsAt s s.pos.toNat (bitsOf i ++ bitsOf x))
    (hm : reads (opI i s) x → microStep (opI i s) = .next t) :
    engineRun 2 s = field 1 s (field n (opI i s) (.next t)) :=
  engineRun_field (by simp [readers, he]) hs (microStep_opI he) rfl fun hs => engineRun_lastField hr hs hm

/-! ### Instructions -/

theorem engineRun_literal {v : BitVec 3} {ds : List (BitVec 4)} {s : State} (hd : ds ≠ []) (he : s.es = .hdrV)
    (hs : HoldsAt s s.pos.toNat (encodeHeader v 4#3 ++ encodeGroups ds)) :
    engineRun (ds.length + 2) s = literal v ds s := by
  rw [literal, if_neg (by simpa using hd)]
  refine engineRun_header he hs fun u hu hs => engineRun_litGroups hd ?_ hs
  rw [hu, hdrT_lit_es]

theorem hdrT_typeId_typ (op : Op) (s : State) : (hdrT op.typeId s).typ = op.typeId := by
  rw [hdrT_op (typeId_ne_lit op)]

theorem engineRun_operatorB {op : Op} {v : BitVec 3} {len : BitVec 15} {s : State} (he : s.es = .hdrV)
    (hs : HoldsAt s s.pos.toNat (encodeB op.typeId v len)) : engineRun 4 s = operatorB op v len s := by
  refine engineRun_header he hs fun u hu hs => ?_
  exact engineRun_lengthField (i := 0#1) (hu ▸ hdrT_typeId_es op _) (by simp [readers]) hs
    (microStep_opL0 rfl (hu ▸ hdrT_typeId_typ op _))

theorem engineRun_operatorN {op : Op} {v : BitVec 3} {cnt : BitVec 11} {s : State} (he : s.es = .hdrV)
    (hs : HoldsAt s s.pos.toNat (encodeN op.typeId v cnt)) : engineRun 4 s = operatorN op v cnt s := by
  refine engineRun_header he hs fun u hu hs => ?_
  exact engineRun_lengthField (i := 1#1) (hu ▸ hdrT_typeId_es op _) (by simp [readers]) hs
    (microStep_opL1 rfl (hu ▸ hdrT_typeId_typ op _))

/-- R92: an instruction's micro-steps are as many as its fields. -/
theorem microSteps_eq_length_fieldWidths (i : Instr) : microSteps i = (fieldWidths i).length := by
  cases i with
  | lit v ds => simp [microSteps, fieldWidths, Nat.add_comm 2]
  | _ => rfl

/-- Settles O9: field by field, a literal's groups by induction; each micro-step is one field of the instruction. -/
theorem instructionIsItsMicroSteps : Obligations.InstructionIsItsMicroSteps := by
  intro i s hw he hs
  rw [← encode_length hw] at hs
  rw [microSteps_eq_length_fieldWidths]
  rcases exec_eq i s with ⟨v, ds, rfl, e⟩ | ⟨op, v, len, _, hb, hf, e⟩ | ⟨op, v, cnt, _, hb, hf, e⟩ <;> rw [e]
  · rw [fieldWidths, List.length_cons, List.length_cons, List.length_map]
    exact engineRun_literal (by simpa [Instr.wellFormed] using hw) he hs
  · rw [hb] at hs
    rw [hf]
    exact engineRun_operatorB he hs
  · rw [hb] at hs
    rw [hf]
    exact engineRun_operatorN he hs

end Sys2Proof.Proofs
end

section
/-! The operator head: its four fields open a frame, or end in an error, and nothing else changes (R150 to R154). -/

namespace Sys2Proof.Proofs

open Sys2Proof Sys2Proof.Machine Sys2Proof.Laws Sys2Proof.Safety

/-! ### The push -/

/-- R200: the running result a frame opens with. -/
theorem initVal_eq (op : Op) : initVal op = if op = .prod then 1 else 0 := by
  cases op <;> rfl

/-- R270: an error detected at `p`, for the errors that record the cursor position. -/
theorem errorState_raiseError {e : ErrKind} {d : Byte} {p : Word} {s : State} (h : (raiseError e d p s).errPosR = p) :
    errorState (raiseError e d p s) e.code d p :=
  ⟨rfl, rfl, rfl, h, rfl, rfl, rfl, rfl, rfl⟩

/-- R154: a push on a full stack raises DEPTH_EXCEEDED at its position and opens nothing. -/
theorem errorState_pushFrame {f : Frame} {p : Word} {s : State} (h : s.frames.length = s.params.maxDepth) :
    errorState (pushFrame f p s) 4 0 p ∧ (pushFrame f p s).frames = s.frames := by
  rw [pushFrame_full h.ge]
  exact ⟨errorState_raiseError rfl, rfl⟩

/-! ### The fields before the length field -/

/-- The state once an operator's version, type-id and length-type-id are read (R126, R127, R151). -/
def operatorHead (i : BitVec 1) (op : Op) (v : BitVec 3) (s : State) : State := opI i (hdrT op.typeId (hdrV v s))

theorem operatorHead_eq (i : BitVec 1) (op : Op) (v : BitVec 3) (s : State) :
    operatorHead i op v s = { s with
      pos := s.pos + 7, ver := v, typ := op.typeId, vacc := s.vacc + v.setWidth 32
      es := if i = 0#1 then .opL0 else .opL1 } := by
  have hpos : s.pos + 3 + 3 + 1 = s.pos + 7 := by rw [BitVec.add_assoc, BitVec.add_assoc]; rfl
  rw [operatorHead, hdrT_op (typeId_ne_lit op), opI, ← hpos]
  rfl

/-- R124: the fields up to `a` bits read, a field of n bits more fits in what is left. -/
theorem Ahead.room {s u : State} {a n : Nat} (h : Ahead s a u) (hn : s.pos.toNat + (a + n) ≤ s.nbits.toNat) :
    u.pos.toNat + n ≤ u.nbits.toNat := by
  rw [h.toNat_pos, h.nbits]
  omega

/-- R92, R124: where the head and its length field of n bits are in the stream, every field is read. -/
theorem operator_fits {i : BitVec 1} {op : Op} {v : BitVec 3} {n : Nat} {s : State} {k : State → Out}
    (h : s.pos.toNat + (7 + n) ≤ s.nbits.toNat) :
    (header v op.typeId s fun u => field 1 u (field n (opI i u) (k (opI i u)))) = k (operatorHead i op v s) := by
  have h0 : Ahead s 0 s := .refl (by omega)
  have hV := h0.room (n := 3) (by omega)
  have h3 : Ahead s 3 (hdrV v s) := h0.advance hV rfl rfl rfl
  have hT := h3.room (n := 3) (by omega)
  have h6 : Ahead s 6 (hdrT op.typeId (hdrV v s)) := h3.advance hT (hdrT_pos _ _) (hdrT_nbits _ _) (hdrT_frames _ _)
  have hI := h6.room (n := 1) (by omega)
  have h7 : Ahead s 7 (operatorHead i op v s) := h6.advance hI rfl rfl rfl
  rw [header, field_fits hV, field_fits hT, field_fits hI, ← operatorHead, field_fits (h7.room h)]

theorem operatorB_fits {op : Op} {v : BitVec 3} {len : BitVec 15} {s : State} (h : s.pos.toNat + 22 ≤ s.nbits.toNat) :
    operatorB op v len s = .next (pushFrame
      { op := op, lt := .l0, lim := s.pos + 22 + len.setWidth 32, n := 0, r := initVal op } (s.pos + 22)
      (operatorHead 0#1 op v s)) := by
  have hpos : (operatorHead 0#1 op v s).pos + 15 = s.pos + 22 := by rw [operatorHead_eq, BitVec.add_assoc]; rfl
  rw [← hpos]
  exact operator_fits (n := 15) (k := fun u => .next (opL0 op len u)) h

theorem operatorN_fits {op : Op} {v : BitVec 3} {cnt : BitVec 11} {s : State} (h : s.pos.toNat + 18 ≤ s.nbits.toNat) :
    operatorN op v cnt s = .next (pushFrame
      { op := op, lt := .l1, lim := cnt.setWidth 32, n := 0, r := initVal op } (s.pos + 18)
      (operatorHead 1#1 op v s)) := by
  have hpos : (operatorHead 1#1 op v s).pos + 11 = s.pos + 18 := by rw [operatorHead_eq, BitVec.add_assoc]; rfl
  rw [← hpos]
  exact operator_fits (n := 11) (k := fun u => .next (opL1 op cnt u)) h

/-! ### With room on the stack -/

/-- R150, R152: every `.B` operator opens its frame alike. -/
theorem operatorB_opens (op : Op) (v : BitVec 3) (len : BitVec 15) {s : State} (h : s.pos.toNat + 22 ≤ s.nbits.toNat)
    (hd : s.frames.length < s.params.maxDepth) :
    operatorB op v len s = .next (openedB op.typeId op (initVal op) v len s) := by
  rw [operatorB_fits h, operatorHead_eq]
  exact congrArg Host.Outcome.next (pushFrame_room hd)

/-- R150, R153: every `.N` operator opens its frame alike. -/
theorem operatorN_opens (op : Op) (v : BitVec 3) (cnt : BitVec 11) {s : State} (h : s.pos.toNat + 18 ≤ s.nbits.toNat)
    (hd : s.frames.length < s.params.maxDepth) :
    operatorN op v cnt s = .next (openedN op.typeId op (initVal op) v cnt s) := by
  rw [operatorN_fits h, operatorHead_eq]
  exact congrArg Host.Outcome.next (pushFrame_room hd)

/-- Settles O11: SUM and PROD are two of the operators, whose initial results are 0 and 1. -/
theorem sumAndProductOpenFrames : Obligations.SumAndProductOpenFrames :=
  ⟨fun v len _ h hd => ⟨operatorB_opens .sum v len h hd, operatorB_opens .prod v len h hd⟩,
    fun v cnt _ h hd => ⟨operatorN_opens .sum v cnt h hd, operatorN_opens .prod v cnt h hd⟩⟩

/-- Settles O12: MIN and MAX are two of the operators, whose initial result is 0. -/
theorem minimumAndMaximumOpenFrames : Obligations.MinimumAndMaximumOpenFrames :=
  ⟨fun v len _ h hd => ⟨operatorB_opens .min v len h hd, operatorB_opens .max v len h hd⟩,
    fun v cnt _ h hd => ⟨operatorN_opens .min v cnt h hd, operatorN_opens .max v cnt h hd⟩⟩

/-- Settles O13: GT, LT and EQ are three of the operators, whose initial result is 0. -/
theorem comparisonsOpenFrames : Obligations.ComparisonsOpenFrames :=
  ⟨fun v len _ h hd =>
      ⟨operatorB_opens .gt v len h hd, operatorB_opens .lt v len h hd, operatorB_opens .eq v len h hd⟩,
    fun v cnt _ h hd =>
      ⟨operatorN_opens .gt v cnt h hd, operatorN_opens .lt v cnt h hd, operatorN_opens .eq v cnt h hd⟩⟩

/-! ### With a full stack -/

/-- R94: the instructions of format OPB are the `.B` forms of the operators. -/
theorem exec_of_mem_operatorsB {v : BitVec 3} {len : BitVec 15} {i : Instr} (h : i ∈ operatorsB v len) :
    ∃ op, ∀ s, exec i s = operatorB op v len s := by
  simp only [operatorsB, List.mem_cons, List.not_mem_nil, or_false] at h
  rcases h with rfl | rfl | rfl | rfl | rfl | rfl | rfl
  exacts [⟨.sum, fun _ => rfl⟩, ⟨.prod, fun _ => rfl⟩, ⟨.min, fun _ => rfl⟩, ⟨.max, fun _ => rfl⟩,
    ⟨.gt, fun _ => rfl⟩, ⟨.lt, fun _ => rfl⟩, ⟨.eq, fun _ => rfl⟩]

/-- R96: the instructions of format OPN are the `.N` forms of the operators. -/
theorem exec_of_mem_operatorsN {v : BitVec 3} {cnt : BitVec 11} {i : Instr} (h : i ∈ operatorsN v cnt) :
    ∃ op, ∀ s, exec i s = operatorN op v cnt s := by
  simp only [operatorsN, List.mem_cons, List.not_mem_nil, or_false] at h
  rcases h with rfl | rfl | rfl | rfl | rfl | rfl | rfl
  exacts [⟨.sum, fun _ => rfl⟩, ⟨.prod, fun _ => rfl⟩, ⟨.min, fun _ => rfl⟩, ⟨.max, fun _ => rfl⟩,
    ⟨.gt, fun _ => rfl⟩, ⟨.lt, fun _ => rfl⟩, ⟨.eq, fun _ => rfl⟩]

/-- Reading the head opens nothing, so a full stack is as full at the push. -/
theorem errorState_push_operatorHead {i : BitVec 1} {op : Op} {v : BitVec 3} {f : Frame} {p : Word} {s : State}
    (h : s.frames.length = s.params.maxDepth) :
    errorState (pushFrame f p (operatorHead i op v s)) 4 0 p ∧
      (pushFrame f p (operatorHead i op v s)).frames = s.frames := by
  rw [operatorHead_eq]
  exact errorState_pushFrame h

/-- Settles O14: the fields are read, and the push at the position after them raises. -/
theorem fullStackRaisesDepthExceeded : Obligations.FullStackRaisesDepthExceeded := by
  refine ⟨?formatB, ?formatN⟩
  case formatB =>
    intro v len i s hi h hd
    obtain ⟨op, he⟩ := exec_of_mem_operatorsB hi
    exact ⟨_, (he s).trans (operatorB_fits h), errorState_push_operatorHead hd⟩
  case formatN =>
    intro v cnt i s hi h hd
    obtain ⟨op, he⟩ := exec_of_mem_operatorsN hi
    exact ⟨_, (he s).trans (operatorN_fits h), errorState_push_operatorHead hd⟩

/-! ### What the operators leave -/

/-- `u` is `s` but for the registers that the fields before the length field write (R126, R127, R151). -/
inductive HeadWrites (s : State) : State → Prop
  | mk (pos : Word) (ver typ : BitVec 3) (vacc : Word) (es : Micro) :
      HeadWrites s { s with pos := pos, ver := ver, typ := typ, vacc := vacc, es := es }

theorem headWrites_hdrV (v : BitVec 3) (s : State) : HeadWrites s (hdrV v s) := .mk ..

theorem headWrites_hdrT (op : Op) (v : BitVec 3) (s : State) : HeadWrites s (hdrT op.typeId (hdrV v s)) := by
  rw [hdrT_op (typeId_ne_lit op)]
  exact .mk ..

theorem HeadWrites.opI {s u : State} (h : HeadWrites s u) (i : BitVec 1) : HeadWrites s (opI i u) := by
  cases h
  exact .mk ..

/-- What an operator leaves unchanged, whether it raises or opens its frame (R150, R154, R269). -/
structure OperatorLeaves (s t : State) : Prop where
  input : sameInput s t
  scanI : t.scanI = s.scanI
  nbits : t.nbits = s.nbits
  acc : t.acc = s.acc
  ret : t.ret = s.ret
  ovf : t.ovf = s.ovf
  raised : t.es = .error → t.frames = s.frames
  opened : t.es ≠ .error → sameResults s t ∧ ∃ f, t.frames = f :: s.frames

theorem HeadWrites.raise {s u : State} (h : HeadWrites s u) (e : ErrKind) (d : Byte) (p : Word) :
    OperatorLeaves s (raiseError e d p u) := by
  cases h
  exact ⟨⟨rfl, rfl, rfl, rfl, rfl, rfl, fun _ => rfl⟩, rfl, rfl, rfl, rfl, rfl, fun _ => rfl, fun he => absurd rfl he⟩

theorem HeadWrites.push {s u : State} (h : HeadWrites s u) (f : Frame) (p : Word) :
    OperatorLeaves s (pushFrame f p u) := by
  rcases pushFrame_cases f p u with ⟨_, e⟩ | ⟨_, e⟩ <;> rw [e]
  · exact h.raise _ _ _
  · cases h
    exact ⟨⟨rfl, rfl, rfl, rfl, rfl, rfl, fun _ => rfl⟩, rfl, rfl, rfl, rfl, rfl, nofun,
      fun _ => ⟨⟨rfl, rfl, rfl, rfl, rfl, rfl, rfl, rfl⟩, f, rfl⟩⟩

theorem operatorLeaves_operatorB {op : Op} {v : BitVec 3} {len : BitVec 15} {s t : State}
    (ht : operatorB op v len s = .next t) : OperatorLeaves s t := by
  rcases operatorB_cases op v len s with e | e | e | e | e <;> cases e.symm.trans ht
  · exact (HeadWrites.mk ..).raise ..
  · exact (headWrites_hdrV v s).raise ..
  · exact (headWrites_hdrT op v s).raise ..
  · exact ((headWrites_hdrT op v s).opI 0#1).raise ..
  · exact ((headWrites_hdrT op v s).opI 0#1).push ..

theorem operatorLeaves_operatorN {op : Op} {v : BitVec 3} {cnt : BitVec 11} {s t : State}
    (ht : operatorN op v cnt s = .next t) : OperatorLeaves s t := by
  rcases operatorN_cases op v cnt s with e | e | e | e | e <;> cases e.symm.trans ht
  · exact (HeadWrites.mk ..).raise ..
  · exact (headWrites_hdrV v s).raise ..
  · exact (headWrites_hdrT op v s).raise ..
  · exact ((headWrites_hdrT op v s).opI 1#1).raise ..
  · exact ((headWrites_hdrT op v s).opI 1#1).push ..

/-- Settles O17: each field of an operator raises or goes on, and so does the push. -/
theorem operatorsLeaveTheRest : Obligations.OperatorsLeaveTheRest := by
  intro v len cnt i s t hi ht
  have h : OperatorLeaves s t := by
    rcases List.mem_append.1 hi with hi | hi
    · obtain ⟨op, he⟩ := exec_of_mem_operatorsB hi
      exact operatorLeaves_operatorB ((he s).symm.trans ht)
    · obtain ⟨op, he⟩ := exec_of_mem_operatorsN hi
      exact operatorLeaves_operatorN ((he s).symm.trans ht)
  exact ⟨h.input, h.scanI, h.nbits, h.acc, h.ret, h.ovf, h.raised, h.opened⟩

end Sys2Proof.Proofs
end

section
/-! The micro-states of an operator's length: OP_I, OP_L0 and OP_L1, and where DEPTH_EXCEEDED can come from. -/

namespace Sys2Proof.Proofs

open Sys2Proof Sys2Proof.Machine Sys2Proof.Laws Sys2Proof.Safety

/-! ### Reading the fields -/

/-- R11: n stream bits are the n-bit field of their value. -/
theorem reads_bitsVal {s : State} {n : Nat} {bits : List Bool} (h : s.pos.toNat + n ≤ s.nbits.toNat)
    (hb : streamBits s s.pos.toNat n = some bits) : reads s (BitVec.ofNat n (bitsVal bits)) :=
  ⟨h, by rw [hb, bitsOf_ofNat_bitsVal (streamBits_length hb)]⟩

/-- R11: a field put into a 32-bit register is the number its bits spell. -/
theorem setWidth_bitsVal {n : Nat} {bits : List Bool} (hl : bits.length = n) :
    (BitVec.ofNat n (bitsVal bits)).setWidth 32 = BitVec.ofNat 32 (bitsVal bits) := by
  have hv : bitsVal bits < 2 ^ n := hl ▸ bitsVal_lt bits
  refine BitVec.eq_of_toNat_eq ?_
  rw [BitVec.toNat_setWidth, BitVec.toNat_ofNat, BitVec.toNat_ofNat, Nat.mod_eq_of_lt hv]

/-- R152 to R154: a push opens its frame where the stack has room, and raises where it is full. -/
theorem push_outcomes (f : Frame) (p : Word) (s : State) :
    (s.frames.length < s.params.maxDepth →
      (.next (pushFrame f p s) : Out) = .next { s with pos := p, frames := f :: s.frames, es := .next }) ∧
    (s.frames.length = s.params.maxDepth →
      ∃ t, (.next (pushFrame f p s) : Out) = .next t ∧ errorState t 4 0 p ∧ t.frames = s.frames) :=
  ⟨fun hd => by rw [pushFrame_room hd], fun hd => ⟨_, rfl, errorState_pushFrame hd⟩⟩

/-- Settles O30: the one bit read chooses between OP_L0 and OP_L1. -/
theorem lengthTypeIdIsRead : Obligations.LengthTypeIdIsRead := by
  refine ⟨?reads, ?short⟩
  case reads =>
    intro s b he h hb
    rw [microStep_opI he (reads_bitsVal h hb)]
    cases b <;> rfl
  case short =>
    exact fun s he h => ⟨_, microStep_short (by simp [readers, he]) h, errorState_raiseShort 1 s⟩

/-- Settles O31: both length fields end in a push at the position after them. -/
theorem lengthFieldsOpenTheFrame : Obligations.LengthFieldsOpenTheFrame := by
  refine ⟨?opL0, ?opL1, ?short⟩
  case opL0 =>
    intro s op bits he h hb ht
    rw [microStep_opL0 he ht (reads_bitsVal h hb), opL0, setWidth_bitsVal (streamBits_length hb), initVal_eq]
    exact push_outcomes _ _ s
  case opL1 =>
    intro s op bits he h hb ht
    rw [microStep_opL1 he ht (reads_bitsVal h hb), opL1, setWidth_bitsVal (streamBits_length hb), initVal_eq]
    exact push_outcomes _ _ s
  case short =>
    intro s n hn h
    have hr : (s.es, n) ∈ readers := by rcases hn with ⟨he, rfl⟩ | ⟨he, rfl⟩ <;> simp [readers, he]
    exact ⟨_, microStep_short hr h, errorState_raiseShort n s⟩

/-! ### DEPTH_EXCEEDED -/

@[simp] theorem hdrT_errCode (t : BitVec 3) (s : State) : (hdrT t s).errCode = s.errCode := by
  rcases hdrT_cases t s with ⟨_, h⟩ | ⟨_, h⟩ <;> rw [h]

@[simp] theorem litG_errCode (g : BitVec 5) (s : State) : (litG g s).errCode = s.errCode := by
  unfold litG
  split <;> rfl

/-- R154: only a length field read with a full stack raises DEPTH_EXCEEDED. -/
theorem full_of_errCode_eq_four {s t : State} (h : EngineMove s (.next t)) (hs : s.errCode ≠ 4) (ht : t.errCode = 4) :
    ∃ n, (s.es, n) ∈ openers ∧ s.pos.toNat + n ≤ s.nbits.toNat ∧ s.params.maxDepth ≤ s.frames.length := by
  cases h with
  | full n hr hn _ hd => exact ⟨n, hr, hn, hd⟩
  | scanBad | short | noChild | notTwo | overshoot => cases ht
  | hdrT v => exact absurd ((hdrT_errCode v s).symm.trans ht) hs
  | litG g => exact absurd ((litG_errCode g s).symm.trans ht) hs
  | _ => exact absurd ht hs

/-- R33, R96: the head before a length field and every frame below it stand for 18 bits of the stream each. -/
theorem frames_lt_of_opener {s : State} {n : Nat} (hr : RunFits s) (hm : (s.es, n) ∈ openers)
    (hn : s.pos.toNat + n ≤ s.nbits.toNat) : s.frames.length < s.nbits.toNat / 18 := by
  have hhead : 18 ≤ headBits s.es + n := (by decide : ∀ x ∈ openers, 18 ≤ headBits x.1 + x.2) _ hm
  have hframes := hr.framesFit
  omega

/-- Settles O54: a full stack and one head more are more bits than the stream has. -/
theorem depthErrorNeedsDeepStream : Obligations.DepthErrorNeedsDeepStream := by
  intro s t hc hb hdepth h ht
  obtain ⟨⟨hcode, -, -⟩, -, -⟩ := (resultsFit_iff_clear (.inr hb)).1 hc.results
  obtain ⟨n, hm, hn, hfull⟩ := full_of_errCode_eq_four (h ▸ microStep_move s) (by rw [hcode]; decide) ht
  have hroom := frames_lt_of_opener (hc.run hb) hm hn
  omega

end Sys2Proof.Proofs
end

section
/-! The top frame between its children: NEXT's test, RET's combination and CLOSE's result (R155 to R157). -/

namespace Sys2Proof.Proofs

open Sys2Proof Sys2Proof.Machine Sys2Proof.Laws Sys2Proof.Safety

/-! ### NEXT -/

theorem microStep_next_frame {s : State} {f : Frame} {fs : List Frame} (he : s.es = .next) (hf : s.frames = f :: fs) :
    microStep s = .next { s with es := if frameFull f s then .close else .hdrV } := by
  rw [microStep, he]
  simp only [nextStep, hf]

/-- R155: the window is used up, or the count reached. -/
theorem frameFull_iff {f : Frame} {s : State} :
    frameFull f s = true ↔ (f.lt = .l0 ∧ s.pos = f.lim) ∨ (f.lt = .l1 ∧ f.n.toNat = f.lim.toNat) := by
  unfold frameFull
  split <;> simp [*]

/-- Settles O25: one equation of NEXT, and the invariant's clause about the top frame. -/
theorem nextTestsBeforeEachChild : Obligations.NextTestsBeforeEachChild := by
  intro s f fs he hf
  rw [microStep_next_frame he hf, ← frameFull_iff]
  refine ⟨fun hc => by rw [if_pos hc], fun hc => by rw [if_neg hc], fun hc => ?_⟩
  have htop := (hc.run (by rw [busy, he]; rfl)).topFit
  rwa [topFits, he, hf] at htop

/-! ### RET -/

/-- R157: a child that ended inside its window is combined; `r` and `o` are what R203 and R211 give. -/
theorem microStep_ret {s : State} {f : Frame} {fs : List Frame} {r : Value} {o : Bool} (he : s.es = .ret)
    (hf : s.frames = f :: fs) (hl : f.lt = .l0 → s.pos.toNat ≤ f.lim.toNat)
    (hc : combine s.params.width f.op f.n f.r s.ret = (r, o)) :
    microStep s = .next { s with
      frames := { f with r := r, n := f.n + 1 } :: fs, ovf := s.ovf || o, es := .next } := by
  have hin : ¬(decide (f.lt = .l0) && decide (f.lim.toNat < s.pos.toNat)) = true := by simpa using hl
  rw [microStep, he]
  simp only [retStep, hf]
  rw [if_neg hin, combineTop, hc]

/-- R211: a combination that cannot overflow leaves the sticky flag. -/
theorem microStep_ret_of_no_overflow {s : State} {f : Frame} {fs : List Frame} {r : Value} (he : s.es = .ret)
    (hf : s.frames = f :: fs) (hl : f.lt = .l0 → s.pos.toNat ≤ f.lim.toNat)
    (hc : combine s.params.width f.op f.n f.r s.ret = (r, false)) :
    microStep s = .next { s with frames := { f with r := r, n := f.n + 1 } :: fs, es := .next } := by
  rw [microStep_ret he hf hl hc, Bool.or_false]

/-- R203, R211: Sum adds in W bits. -/
theorem combine_sum (w : Nat) (n : BitVec 16) (r v : Value) :
    combine w .sum n r v = ((r + v) % 2 ^ w, decide (2 ^ w ≤ r + v)) := rfl

/-- R203, R211: Product multiplies in W bits. -/
theorem combine_prod (w : Nat) (n : BitVec 16) (r v : Value) :
    combine w .prod n r v = ((r * v) % 2 ^ w, decide (2 ^ w ≤ r * v)) := rfl

/-- Settles O18: what R203 gives for Sum and Product is the exact result in W bits and its overflow. -/
theorem returnIntoSumAndProduct : Obligations.ReturnIntoSumAndProduct :=
  fun _ _ _ he hf hl => ⟨fun ho => microStep_ret he hf hl (by rw [ho, combine_sum]),
    fun ho => microStep_ret he hf hl (by rw [ho, combine_prod])⟩

theorem toNat_eq_zero_iff {n : BitVec 16} : n.toNat = 0 ↔ n = 0 := BitVec.toNat_inj (y := 0)

theorem toNat_eq_one_iff {n : BitVec 16} : n.toNat = 1 ↔ n = 1 := BitVec.toNat_inj (y := 1)

/-- R203: Minimum keeps the first child's value, then the smaller. -/
theorem combine_min (w : Nat) (n : BitVec 16) (r v : Value) :
    combine w .min n r v = (if n = 0 then v else min r v, false) := by
  simp only [combine, toNat_eq_zero_iff, min_comm r, min_def_lt]

/-- R203: Maximum keeps the first child's value, then the larger. -/
theorem combine_max (w : Nat) (n : BitVec 16) (r v : Value) :
    combine w .max n r v = (if n = 0 then v else max r v, false) := by
  simp only [combine, toNat_eq_zero_iff, max_def_lt]

/-- Settles O19: the value R203 gives is the first child's, or the smaller or larger of the two. -/
theorem returnIntoMinimumAndMaximum : Obligations.ReturnIntoMinimumAndMaximum :=
  fun _ _ _ he hf hl =>
    ⟨fun ho => ⟨_, (if_pos ·), (if_neg ·), microStep_ret_of_no_overflow he hf hl (by rw [ho, combine_min])⟩,
      fun ho => ⟨_, (if_pos ·), (if_neg ·), microStep_ret_of_no_overflow he hf hl (by rw [ho, combine_max])⟩⟩

/-- The test a comparison makes, first child on the left (R203); the other operators make none. -/
def comparisonTest : Op → Value → Value → Bool
  | .gt, a, b => decide (b < a)
  | .lt, a, b => decide (a < b)
  | .eq, a, b => decide (a = b)
  | _, _, _ => false

theorem isComparison_iff {op : Op} : isComparison op = true ↔ op = .gt ∨ op = .lt ∨ op = .eq := by
  cases op <;> decide

theorem combine_comparison {op : Op} (h : isComparison op = true) (w : Nat) (n : BitVec 16) (r v : Value) :
    combine w op n r v = (compareStep (comparisonTest op) n r v, false) := by
  cases op with
  | gt | lt | eq => rfl
  | _ => cases h

theorem compareStep_zero (test : Value → Value → Bool) (r v : Value) : compareStep test 0 r v = v := rfl

theorem compareStep_one (test : Value → Value → Bool) (r v : Value) : compareStep test 1 r v = boolVal (test r v) := rfl

theorem compareStep_later (test : Value → Value → Bool) {n : BitVec 16} (h0 : n ≠ 0) (h1 : n ≠ 1) (r v : Value) :
    compareStep test n r v = r := by
  rw [compareStep, if_neg (mt toNat_eq_zero_iff.1 h0), if_neg (mt toNat_eq_one_iff.1 h1)]

theorem boolVal_decide (p : Prop) [Decidable p] : boolVal (decide p) = if p then 1 else 0 := by
  simp [boolVal]

/-- Settles O20: the value R203 gives is `compareStep`'s, at the first, the second and a later child. -/
theorem returnIntoComparisons : Obligations.ReturnIntoComparisons := by
  intro s f fs he hf hl ho
  have hc := combine_comparison (isComparison_iff.2 ho) s.params.width f.n f.r s.ret
  refine ⟨_, microStep_ret_of_no_overflow he hf hl hc, fun h0 => ?first, fun h1 hop => ?gt, fun h1 hop => ?lt,
    fun h1 hop => ?eq, fun h0 h1 => ?later⟩
  case first => rw [h0, compareStep_zero]
  case later => exact compareStep_later _ h0 h1 _ _
  all_goals
    rw [h1, compareStep_one, hop]
    exact boolVal_decide _

/-- Settles O22: RET's test of the window comes before the combination. -/
theorem overshootIsMalformed : Obligations.OvershootIsMalformed := by
  intro s f fs he hf h0 hl
  refine ⟨raiseError .malformedPacket 1 s.pos s, ?_, errorState_raiseError rfl, rfl⟩
  rw [microStep, he]
  simp [retStep, hf, h0, hl]

/-! ### CLOSE -/

theorem needsChild_iff {op : Op} : needsChild op = true ↔ op = .min ∨ op = .max := by
  cases op <;> decide

/-- Settles O24: neither arity check fails, and what is popped is the running result (R204). -/
theorem closeGivesTheRunningResult : Obligations.CloseGivesTheRunningResult := by
  intro s f fs he hf hchild htwo
  have hneeds : ¬(needsChild f.op && decide (f.n.toNat = 0)) = true := by
    simpa [needsChild_iff, toNat_eq_zero_iff] using hchild
  have harity : ¬(isComparison f.op && decide (f.n.toNat ≠ 2)) = true := by
    simp only [Bool.and_eq_true, isComparison_iff, decide_eq_true_eq, not_and, not_not]
    exact fun hop => congrArg BitVec.toNat (htwo hop)
  rw [microStep, he]
  simp only [closeStep, hf]
  rw [if_neg hneeds, if_neg harity]
  rfl

end Sys2Proof.Proofs
end

section
/-! The micro-states that work on the top frame, an equation for each, and the arity checks of CLOSE (R156). -/

namespace Sys2Proof.Proofs

open Sys2Proof Sys2Proof.Machine Sys2Proof.Laws Sys2Proof.Safety

/-! ### NEXT, CLOSE and RET -/

section TopFrame

variable {s : State} {f : Frame} {fs : List Frame}

theorem nextStep_nil (hf : s.frames = []) : nextStep s = .fault .noOpenFrame := by
  simp only [nextStep, hf]

theorem nextStep_cons (hf : s.frames = f :: fs) :
    nextStep s = .next { s with es := if frameFull f s then .close else .hdrV } := by
  simp only [nextStep, hf]

theorem closeStep_nil (hf : s.frames = []) : closeStep s = .fault .noOpenFrame := by
  simp only [closeStep, hf]

theorem closeStep_cons (hf : s.frames = f :: fs) : closeStep s =
    if needsChild f.op && decide (f.n.toNat = 0) then .next (raiseError .malformedPacket 3 s.pos s)
    else if isComparison f.op && decide (f.n.toNat ≠ 2) then .next (raiseError .malformedPacket 2 s.pos s)
    else .next (popFrame f fs s) := by
  simp only [closeStep, hf]

theorem retStep_nil (hf : s.frames = []) : retStep s = .next (finishRun s) := by
  simp only [retStep, hf]

theorem retStep_cons (hf : s.frames = f :: fs) : retStep s =
    if decide (f.lt = .l0) && decide (f.lim.toNat < s.pos.toNat) then .next (raiseError .malformedPacket 1 s.pos s)
    else .next (combineTop f fs s) := by
  simp only [retStep, hf]

end TopFrame

theorem microStep_close {s : State} (he : s.es = .close) : microStep s = closeStep s := by
  rw [microStep, he]

/-! ### The arity checks -/

theorem needsChild_of_isComparison {op : Op} (h : isComparison op = true) : needsChild op = false := by
  cases op with
  | gt | lt | eq => rfl
  | _ => cases h

/-- R214: MIN and MAX of no child. -/
theorem closeStep_noChild {s : State} {f : Frame} {fs : List Frame} (hf : s.frames = f :: fs)
    (hop : needsChild f.op = true) (hn : f.n = 0) : closeStep s = .next (raiseError .malformedPacket 3 s.pos s) := by
  rw [closeStep_cons hf, if_pos (by simp [hop, hn])]

/-- R215: a comparison of other than two children. -/
theorem closeStep_notTwo {s : State} {f : Frame} {fs : List Frame} (hf : s.frames = f :: fs)
    (hop : isComparison f.op = true) (hn : f.n ≠ 2) : closeStep s = .next (raiseError .malformedPacket 2 s.pos s) := by
  have hcount : f.n.toNat ≠ 2 := mt (BitVec.toNat_inj (y := 2)).1 hn
  rw [closeStep_cons hf, if_neg (by simp [needsChild_of_isComparison hop]), if_pos (by simp [hop, hcount])]

/-- Settles O23: each arity check of CLOSE raises at the cursor. -/
theorem wrongArityIsMalformed : Obligations.WrongArityIsMalformed := by
  intro s f fs he hf
  rw [microStep_close he]
  exact ⟨fun hop hn => ⟨_, closeStep_noChild hf (needsChild_iff.2 hop) hn, errorState_raiseError rfl, rfl⟩,
    fun hop hn => ⟨_, closeStep_notTwo hf (isComparison_iff.2 hop) hn, errorState_raiseError rfl, rfl⟩⟩

end Sys2Proof.Proofs
end

section
/-! R212: the engine is blind to values. `hideValues` blanks W and everything that holds a value, and every micro-step
gives the same on a state as on its blanked form, up to blanking again. -/

namespace Sys2Proof.Proofs

open Sys2Proof Sys2Proof.Machine Sys2Proof.Laws Sys2Proof.Safety

/-! ### Blanking the values -/

/-- A frame without its running result. -/
def hideResult (f : Frame) : Frame := { f with r := 0 }

/-- A state without W, values and value flags, and without the two fields of the model's own that no micro-step reads. -/
def hideValues (s : State) : State :=
  { s with
    params := { s.params with width := 0 }
    valueR := 0, valueValid := false, valueOvf := false
    acc := 0, ret := 0, ovf := false, frames := s.frames.map hideResult
    schedule := [], reply := 0 }

theorem map_hideResult_twice (fs : List Frame) : (fs.map hideResult).map hideResult = fs.map hideResult := List.map_map

theorem hideValues_twice (s : State) : hideValues (hideValues s) = hideValues s := by
  simp only [hideValues, map_hideResult_twice]

theorem hideResult_eq_iff {f g : Frame} :
    hideResult f = hideResult g ↔ (f.op, f.lt, f.lim, f.n) = (g.op, g.lt, g.lim, g.n) := by
  simp [hideResult]

theorem map_hideResult_eq_iff {fs gs : List Frame} :
    fs.map hideResult = gs.map hideResult ↔
      fs.map (fun f => (f.op, f.lt, f.lim, f.n)) = gs.map (fun f => (f.op, f.lt, f.lim, f.n)) := by
  induction fs generalizing gs with
  | nil => simp
  | cons f fs ih =>
    cases gs with
    | nil => simp
    | cons g gs => simp only [List.map_cons, List.cons.injEq, hideResult_eq_iff, ih]

/-- Two states differ only in W and values exactly where they are the same once blanked. -/
theorem sameButValues_iff {s t : State} : sameButValues s t ↔ hideValues s = hideValues t := by
  simp only [sameButValues, hideValues, ← map_hideResult_eq_iff, State.mk.injEq, Config.Params.mk.injEq]
  tauto

/-! ### What is blind to values -/

/-- An outcome with the values of its next state blanked. -/
def seen : Out → Out
  | .next s => .next (hideValues s)
  | .fault r => .fault r
  | .refused r => .refused r

theorem exists_next_of_seen_eq {o : Out} {s : State} (h : seen o = seen (.next s)) :
    ∃ t, o = .next t ∧ hideValues s = hideValues t := by
  cases o with
  | next t => exact ⟨t, rfl, (Host.Outcome.next.inj h).symm⟩
  | fault r | refused r => cases h

/-- The same test, and branches that look alike. -/
theorem seen_ite_congr {c : Prop} {i j : Decidable c} {o o' u u' : Out} (ho : seen o = seen o') (hu : seen u = seen u') :
    seen (@ite _ c i o u) = seen (@ite _ c j o' u') := by
  by_cases hc : c <;> simpa [hc]

/-- An action that answers alike with and without the values. -/
def Blind (f : State → Out) : Prop := ∀ s, seen (f (hideValues s)) = seen (f s)

/-- An update is blind where its blanked result is an update of the blanked state. -/
theorem blind_next {g : State → State} (g' : State → State) (h : ∀ s, hideValues (g s) = g' (hideValues s)) :
    Blind fun s => .next (g s) := by
  intro s
  simp only [seen, h, hideValues_twice]

theorem blind_raise (e : ErrKind) (d : Byte) : Blind fun s => .next (raiseError e d s.pos s) :=
  blind_next (fun s => raiseError e d s.pos s) fun _ => rfl

theorem blind_withEs (m : Micro) : Blind fun s => .next { s with es := m } :=
  blind_next (fun s => { s with es := m }) fun _ => rfl

/-! ### The fields -/

/-- R61: the bit sequence is the input buffer's. -/
theorem streamBits_hideValues (s : State) (a n : Nat) : streamBits (hideValues s) a n = streamBits s a n := by
  have hbit (k : Nat) : streamBit (hideValues s) k = streamBit s k := rfl
  induction n generalizing a with
  | zero => rfl
  | succ n ih => simp only [streamBits, hbit, ih]

/-- R124: a read depends on the cursor and the stream only. -/
theorem Blind.readField {n : Nat} {k : BitVec n → State → Out} (hk : ∀ v, Blind (k v)) :
    Blind fun s => readField n s fun v => k v s := by
  intro s
  have hmem : memRead (hideValues s) (hideValues s).pos.toNat n = memRead s s.pos.toNat n :=
    congrArg _ (streamBits_hideValues s _ n)
  refine seen_ite_congr (blind_raise _ _ s) ?_
  rw [hmem]
  cases memRead s s.pos.toNat n with
  | none => rfl
  | some v => exact hk v s

/-- R152, R153: the operator is named by `typ`. -/
theorem Blind.withOperator {k : Op → State → Out} (hk : ∀ op, Blind (k op)) :
    Blind fun s => withOperator s fun op => k op s := by
  intro s
  have htyp : (hideValues s).typ = s.typ := rfl
  simp only [Machine.withOperator, htyp]
  cases Op.ofTypeId s.typ with
  | none => rfl
  | some op => exact hk op s

theorem hideValues_hdrT (t : BitVec 3) (s : State) : hideValues (hdrT t s) = hdrT t (hideValues s) := by
  unfold hdrT
  split <;> rfl

/-- R141: a literal group moves the cursor; `acc`, `ret` and `ovf` hold values. -/
theorem blind_litG (g : BitVec 5) : Blind fun s => .next (litG g s) := by
  refine blind_next (fun s => { s with pos := s.pos + 5, es := if g.getLsbD 4 then .litG else .ret }) fun s => ?_
  unfold litG
  split <;> rfl

/-- R154: the stack's room is seen, the initial result is not. -/
theorem hideValues_pushFrame (f : Frame) (p : Word) (s : State) :
    hideValues (pushFrame f p s) = pushFrame (hideResult f) p (hideValues s) := by
  have hlen : (hideValues s).frames.length = s.frames.length := List.length_map _
  rcases pushFrame_cases f p s with ⟨hd, e⟩ | ⟨hd, e⟩ <;> rw [e]
  · exact (pushFrame_full (s := hideValues s) (hlen ▸ hd)).symm
  · exact (pushFrame_room (s := hideValues s) (hlen ▸ hd)).symm

theorem blind_opL0 (op : Op) (len : BitVec 15) : Blind fun s => .next (opL0 op len s) :=
  blind_next (fun s => pushFrame { op := op, lt := .l0, lim := s.pos + 15 + len.setWidth 32, n := 0, r := 0 }
    (s.pos + 15) s) fun _ => hideValues_pushFrame ..

theorem blind_opL1 (op : Op) (cnt : BitVec 11) : Blind fun s => .next (opL1 op cnt s) :=
  blind_next (fun s => pushFrame { op := op, lt := .l1, lim := cnt.setWidth 32, n := 0, r := 0 } (s.pos + 11) s)
    fun _ => hideValues_pushFrame ..

/-! ### The frame stack -/

section TopFrame

variable {s : State} {f : Frame} {fs : List Frame}

theorem hideValues_frames_cons (hf : s.frames = f :: fs) :
    (hideValues s).frames = hideResult f :: fs.map hideResult :=
  congrArg (List.map hideResult) hf

theorem hideValues_frames_nil (hf : s.frames = []) : (hideValues s).frames = [] := congrArg (List.map hideResult) hf

theorem hideValues_popFrame :
    hideValues (popFrame f fs s) = popFrame (hideResult f) (fs.map hideResult) (hideValues s) := rfl

theorem hideValues_combineTop : hideValues (combineTop f fs s) =
    { hideValues s with frames := { hideResult f with n := f.n + 1 } :: fs.map hideResult, es := .next } := rfl

end TopFrame

/-- R155: NEXT reads the top frame's length and the cursor. -/
theorem blind_nextStep : Blind nextStep := by
  intro s
  cases hf : s.frames with
  | nil => rw [nextStep_nil hf, nextStep_nil (hideValues_frames_nil hf)]
  | cons f fs =>
    rw [nextStep_cons hf, nextStep_cons (hideValues_frames_cons hf)]
    exact blind_withEs _ s

/-- R156: CLOSE's arity checks read the operator and the child count. -/
theorem blind_closeStep : Blind closeStep := by
  intro s
  cases hf : s.frames with
  | nil => rw [closeStep_nil hf, closeStep_nil (hideValues_frames_nil hf)]
  | cons f fs =>
    rw [closeStep_cons hf, closeStep_cons (hideValues_frames_cons hf)]
    refine seen_ite_congr (blind_raise _ _ s) (seen_ite_congr (blind_raise _ _ s) ?_)
    simp only [seen, hideValues_popFrame, map_hideResult_twice, hideValues_twice]
    rfl

/-- R157: RET reads the window and the cursor; the value only enters the frame's result and `ovf`. -/
theorem blind_retStep : Blind retStep := by
  intro s
  cases hf : s.frames with
  | nil =>
    rw [retStep_nil hf, retStep_nil (hideValues_frames_nil hf)]
    exact blind_next (fun s => { s with posR := s.pos, vsumR := s.vacc, es := .done }) (fun _ => rfl) s
  | cons f fs =>
    rw [retStep_cons hf, retStep_cons (hideValues_frames_cons hf)]
    refine seen_ite_congr (blind_raise _ _ s) ?_
    simp only [seen, hideValues_combineTop, map_hideResult_twice, hideValues_twice]
    rfl

/-! ### The engine -/

theorem blind_withScanI : Blind fun s => .next { s with scanI := s.scanI + 1 } :=
  blind_next (fun s => { s with scanI := s.scanI + 1 }) fun _ => rfl

/-- R122: SCAN reads the input buffer. -/
theorem blind_scanStep : Blind scanStep := by
  intro s
  have hibuf : ibufAt (hideValues s) (hideValues s).scanI.toNat = ibufAt s s.scanI.toNat := rfl
  refine seen_ite_congr (blind_withEs .hdrV s) ?_
  rw [hibuf]
  cases ibufAt s s.scanI.toNat with
  | none => rfl
  | some c =>
    dsimp only
    cases hexval c with
    | none => exact blind_raise _ c s
    | some d => exact blind_withScanI s

/-- R212: every micro-state's action is blind to values. -/
theorem blind_microStep : Blind microStep := by
  intro s
  have hes : (hideValues s).es = s.es := rfl
  unfold microStep
  rw [hes]
  cases s.es with
  | idle | done | error => exact blind_next id (fun _ => rfl) s
  | scan => exact blind_scanStep s
  | hdrV => exact Blind.readField (fun v => blind_next (hdrV v) fun _ => rfl) s
  | hdrT => exact Blind.readField (fun t => blind_next (hdrT t) (hideValues_hdrT t)) s
  | litG => exact Blind.readField blind_litG s
  | opI => exact Blind.readField (fun i => blind_next (opI i) fun _ => rfl) s
  | opL0 => exact Blind.readField (fun len => Blind.withOperator fun op => blind_opL0 op len) s
  | opL1 => exact Blind.readField (fun cnt => Blind.withOperator fun op => blind_opL1 op cnt) s
  | next => exact blind_nextStep s
  | close => exact blind_closeStep s
  | ret => exact blind_retStep s

/-- Settles O55: both states blank to the same one, and the step of each looks like the step of that. -/
theorem valuesNeverSteerTheEngine : Obligations.ValuesNeverSteerTheEngine := by
  intro s t s' hst hs
  have hseen : seen (microStep t) = seen (.next s') := by
    rw [← hs, ← blind_microStep t, ← blind_microStep s, sameButValues_iff.1 hst]
  obtain ⟨t', ht, he⟩ := exists_next_of_seen_eq hseen
  exact ⟨t', ht, sameButValues_iff.2 he⟩

end Sys2Proof.Proofs
end

section
/-! The fold of an operator over its children's values, RET after RET, against the operator's exact value (R223) and its
overflow condition (R227). -/

namespace Sys2Proof.Proofs

open Sys2Proof Sys2Proof.Machine Sys2Proof.Laws Sys2Proof.Safety

/-! ### One child more -/

theorem foldChildren_concat (w : Nat) (op : Op) (vs : List Value) (v : Value) :
    foldChildren w op (vs ++ [v]) =
      ((foldChildren w op vs).1 + 1, (combine w op (foldChildren w op vs).1 (foldChildren w op vs).2.1 v).1,
        (foldChildren w op vs).2.2 || (combine w op (foldChildren w op vs).1 (foldChildren w op vs).2.1 v).2) := by
  simp only [foldChildren, List.foldl_append, List.foldl_cons, List.foldl_nil]

/-- The fold counts the children in 16 bits (R157). -/
theorem foldChildren_count (w : Nat) (op : Op) (vs : List Value) :
    (foldChildren w op vs).1 = BitVec.ofNat 16 vs.length := by
  induction vs using List.reverseRecOn with
  | nil => rfl
  | append_singleton vs v ih => 
    rw [foldChildren_concat, ih, List.length_append, List.length_singleton, BitVec.ofNat_add]
    rfl

/-! ### Sum and Product -/

/-- R211, R227 (b): the running result is the exact sum in W bits, and the flag is set exactly when that is 2^W or
more. -/
theorem foldChildren_sum (w : Nat) (vs : List Value) :
    (foldChildren w .sum vs).2 = (vs.sum % 2 ^ w, decide (2 ^ w ≤ vs.sum)) := by
  induction vs using List.reverseRecOn with
  | nil => simp [foldChildren, initVal]
  | append_singleton vs v ih =>
    have hsticky : (decide (2 ^ w ≤ vs.sum) || decide (2 ^ w ≤ vs.sum % 2 ^ w + v)) = decide (2 ^ w ≤ vs.sum + v) := by
      rcases Nat.lt_or_ge vs.sum (2 ^ w) with h | h
      · simp [Nat.mod_eq_of_lt h, h]
      · simp [h, Nat.le_add_right_of_le h]
    rw [foldChildren_concat, ih, combine_sum, List.sum_append, List.sum_singleton, Nat.mod_add_mod, hsticky]

/-- R227 (c): the prefixes of one factor more. -/
theorem opOverflows_prod_concat (w : Nat) (vs : List Value) (v : Value) :
    opOverflows w .prod (vs ++ [v]) = (opOverflows w .prod vs || decide (2 ^ w ≤ vs.prod * v)) := by
  have hprefix : ∀ j ∈ List.range (vs.length + 1), (vs ++ [v]).take j = vs.take j := fun j hj =>
    List.take_append_of_le_length (Nat.le_of_lt_succ (List.mem_range.1 hj))
  have hlast : (vs ++ [v]).take (vs.length + 1) = vs ++ [v] := List.take_of_length_le (by simp)
  rw [opOverflows, opOverflows, List.length_append, List.length_singleton, List.range_succ, List.any_append]
  congr 1
  · rw [Bool.eq_iff_iff, List.any_eq_true, List.any_eq_true]
    exact exists_congr fun j => and_congr_right fun hj => by rw [hprefix j hj]
  · simp [hlast]

theorem prod_lt_of_no_overflow {w : Nat} {vs : List Value} (h : opOverflows w .prod vs = false) : vs.prod < 2 ^ w := by
  simp only [opOverflows, List.any_eq_false, decide_eq_true_eq, Nat.not_le] at h
  simpa using h vs.length (List.mem_range.2 (Nat.lt_succ_self _))

/-- R211, R227 (c): the running result is the exact product in W bits, and the flag tells of its prefixes. -/
theorem foldChildren_prod {w : Nat} (hw : 0 < w) (vs : List Value) :
    (foldChildren w .prod vs).2 = (vs.prod % 2 ^ w, opOverflows w .prod vs) := by
  induction vs using List.reverseRecOn with
  | nil =>
    have h1 : 1 < 2 ^ w := Nat.one_lt_two_pow (Nat.ne_of_gt hw)
    simp [foldChildren, initVal, opOverflows, Nat.mod_eq_of_lt h1, h1]
  | append_singleton vs v ih =>
    rw [foldChildren_concat, ih, combine_prod, List.prod_append, List.prod_singleton, Nat.mod_mul_mod,
      opOverflows_prod_concat]
    cases ho : opOverflows w .prod vs with
    | true => rfl
    | false => rw [Nat.mod_eq_of_lt (prod_lt_of_no_overflow ho)]

/-! ### Minimum and Maximum -/

/-- R203: a fold that starts with the first child's value, and cannot overflow. -/
theorem foldChildren_keepFirst {w : Nat} {op : Op} {g : Value → Value → Value}
    (hc : ∀ n r v, combine w op n r v = (if n = 0 then v else g r v, false)) (v : Value) {vs : List Value}
    (hl : vs.length + 1 < 2 ^ 16) : (foldChildren w op (v :: vs)).2 = (vs.foldl g v, false) := by
  induction vs using List.reverseRecOn with
  | nil => simp [foldChildren, hc]
  | append_singleton vs u ih =>
    rw [List.length_append, List.length_singleton] at hl
    have hn : BitVec.ofNat 16 (v :: vs).length ≠ 0 := by
      rw [ne_eq, ← toNat_eq_zero_iff, BitVec.toNat_ofNat, List.length_cons, Nat.mod_eq_of_lt (by omega)]
      omega
    rw [← List.cons_append, foldChildren_concat, foldChildren_count, ih (by omega), hc, if_neg hn, List.foldl_append]
    rfl

/-! ### The comparisons -/

/-- R203: the second child is compared with the first. -/
theorem foldChildren_pair {op : Op} (h : isComparison op = true) (w : Nat) (a b : Value) :
    (foldChildren w op [a, b]).2 = (boolVal (comparisonTest op a b), false) := by
  cases op with
  | gt | lt | eq => rfl
  | _ => cases h

/-! ### The operator's value -/

/-- The fold overflows where R227 says, and gives R223's value where it does not. -/
def FoldAgrees (w : Nat) (op : Op) (vs : List Value) : Prop :=
  (foldChildren w op vs).2.2 = opOverflows w op vs ∧
    (opOverflows w op vs = false → evalOp op vs = some (foldChildren w op vs).2.1)

theorem foldAgrees_of_eq {w : Nat} {op : Op} {vs : List Value} {r : Value} {o : Bool}
    (hf : (foldChildren w op vs).2 = (r, o)) (ho : o = opOverflows w op vs)
    (hr : opOverflows w op vs = false → evalOp op vs = some r) : FoldAgrees w op vs := by
  rw [FoldAgrees, hf]
  exact ⟨ho, hr⟩

theorem foldAgrees_sum (w : Nat) (vs : List Value) : FoldAgrees w .sum vs := by
  refine foldAgrees_of_eq (foldChildren_sum w vs) rfl fun ho => ?_
  rw [Nat.mod_eq_of_lt (by simpa [opOverflows] using ho), evalOp]

theorem foldAgrees_prod {w : Nat} (hw : 0 < w) (vs : List Value) : FoldAgrees w .prod vs := by
  refine foldAgrees_of_eq (foldChildren_prod hw vs) rfl fun ho => ?_
  rw [Nat.mod_eq_of_lt (prod_lt_of_no_overflow ho), evalOp]

theorem foldAgrees_keepFirst {w : Nat} {op : Op} {g : Value → Value → Value}
    (hc : ∀ n r v, combine w op n r v = (if n = 0 then v else g r v, false))
    (ho : ∀ vs, opOverflows w op vs = false) (he : ∀ v vs, evalOp op (v :: vs) = some (vs.foldl g v))
    {vs : List Value} (hn : vs.length ≠ 0) (hl : vs.length < 2 ^ 16) : FoldAgrees w op vs := by
  cases vs with
  | nil => exact absurd rfl hn
  | cons v vs => exact foldAgrees_of_eq (foldChildren_keepFirst hc v hl) (ho _).symm fun _ => he v vs

theorem foldAgrees_comparison {w : Nat} {op : Op} (h : isComparison op = true) {vs : List Value} (hl : vs.length = 2) :
    FoldAgrees w op vs := by
  obtain ⟨a, b, rfl⟩ := List.length_eq_two.1 hl
  have hf := foldChildren_pair h w a b
  rcases isComparison_iff.1 h with rfl | rfl | rfl <;>
    exact foldAgrees_of_eq hf rfl fun _ => congrArg some (boolVal_decide _).symm

/-- R105 (d), (e): the arities that CLOSE lets pass. -/
theorem arityOk_iff {op : Op} {n : Nat} :
    arityOk op n = true ↔ (needsChild op = true → n ≠ 0) ∧ (isComparison op = true → n = 2) := by
  cases op <;> simp [arityOk, needsChild, isComparison]

/-- Settles O21: operator by operator, by induction on the children, last child first. -/
theorem foldIsTheOperatorsValue : Obligations.FoldIsTheOperatorsValue := by
  intro w op vs hw ha hl
  obtain ⟨hchild, htwo⟩ := arityOk_iff.1 ha
  refine ⟨?count, ?value⟩
  case count => rw [foldChildren_count, BitVec.toNat_ofNat, Nat.mod_eq_of_lt hl]
  case value =>
    cases op with
    | sum => exact foldAgrees_sum w vs
    | prod => exact foldAgrees_prod hw vs
    | min => exact foldAgrees_keepFirst (combine_min w) (fun _ => rfl) (fun _ _ => rfl) (hchild rfl) hl
    | max => exact foldAgrees_keepFirst (combine_max w) (fun _ => rfl) (fun _ _ => rfl) (hchild rfl) hl
    | gt | lt | eq => exact foldAgrees_comparison rfl (htwo rfl)

end Sys2Proof.Proofs
end

section
/-! The end of a run: what `finish()` latches, that the engine is never idle while BUSY, and that every run ends. -/

namespace Sys2Proof.Proofs

open Sys2Proof Sys2Proof.Machine Sys2Proof.Laws Sys2Proof.Safety

/-! ### RET with no open frame -/

theorem microStep_finish {s : State} (he : s.es = .ret) (hf : s.frames = []) : microStep s = .next (finishRun s) := by
  rw [microStep, he]
  exact retStep_nil hf

/-- Settles O36: `finishRun` latches VALUE or VALUE_OVF, as the sticky flag says. -/
theorem finishLatchesTheResults : Obligations.FinishLatchesTheResults := by
  intro s he hf
  rw [microStep_finish he hf, finishRun]
  refine ⟨fun ho => ?overflow, fun ho => ?value⟩
  case overflow => rw [ho]; rfl
  case value => rw [ho]; rfl

/-! ### Where nothing changes -/

/-- R124: a field of one bit or more moves the cursor. -/
theorem pos_add_ne (p : Word) {n : Word} (hn : n ≠ 0) : p + n ≠ p := by
  simpa using hn

/-- R229: a BUSY engine changes the micro-state, or stays in SCAN or LIT_G for the next character or group. -/
theorem Move.ne {s t : State} (h : Move s t) (hb : busy s) : t ≠ s := by
  have hes : t.es ≠ s.es → t ≠ s := mt (congrArg State.es)
  cases h with
  | quiet hq => exact absurd hb (by rw [busy, hq]; nofun)
  | raise hs _ =>
    refine hes fun he => ?_
    rw [← he] at hs
    cases hs
  | scanOk _ _ _ _ _ _ => exact fun e => pos_add_ne s.scanI (by decide) (congrArg State.scanI e)
  | litMore d _ _ => exact fun e => pos_add_ne s.pos (by decide) (congrArg State.pos e)
  | push n f hm _ _ _ => exact hes fun he => by simp [openers, ← he] at hm
  | _ => exact hes (by simp [*])

/-- Settles O38: a quiescent engine stutters, and every move of a BUSY one changes the state. -/
theorem quiescentStatesKeepEverything : Obligations.QuiescentStatesKeepEverything :=
  fun _ => ⟨fun hb => microStep_quiet (Bool.eq_false_iff.2 hb), fun hb h => (move_of_microStep h).ne hb rfl⟩

/-! ### The steps that are left -/

/-- What an open frame and a pending RET or NEXT still cost beside the bits to come: CLOSE and the RET after it for each
frame, then the NEXT and the CLOSE or HDR_V that a RET leads to. -/
def pendingSteps : Micro → Nat
  | .ret => 2
  | .next => 1
  | .idle | .scan | .hdrV | .hdrT | .litG | .opI | .opL0 | .opL1 | .close | .done | .error => 0

/-- The characters still to be validated, and the step that ends SCAN. -/
def scanSteps (s : State) : Nat := if s.es = .scan then s.len.toNat - s.scanI.toNat + 1 else 0

/-- A bound on the steps to come before the last one: four for each bit of the stream that is not yet read, which pay
for the frame and the pending steps that reading them leads to. -/
def stepsLeft (s : State) : Nat :=
  scanSteps s + 4 * (s.nbits.toNat - s.pos.toNat) + 3 * s.frames.length + pendingSteps s.es

theorem scanSteps_of_ne {s : State} (h : s.es ≠ .scan) : scanSteps s = 0 := if_neg h

/-- Reading n bits pays for fewer than 4 n steps more. -/
theorem stepsLeft_advance {s t : State} {n : Nat} (hn : s.pos.toNat + n ≤ s.nbits.toNat) (hs : t.es ≠ .scan)
    (hp : t.pos = s.pos + BitVec.ofNat 32 n) (hb : t.nbits = s.nbits)
    (hk : 3 * t.frames.length + pendingSteps t.es < 4 * n + 3 * s.frames.length + pendingSteps s.es) :
    stepsLeft t < stepsLeft s := by
  rw [stepsLeft, stepsLeft, scanSteps_of_ne hs, hp, hb, toNat_pos_add hn]
  omega

/-- R229: every move of a BUSY engine to a BUSY state costs a step. -/
theorem Move.stepsLeft_lt {s t : State} (h : Move s t) (hr : RunFits s) (hb : busy s) (ht : busy t) :
    stepsLeft t < stepsLeft s := by
  cases h with
  | quiet hq => exact absurd hb (by rw [busy, hq]; nofun)
  | raise _ _ | finish _ _ => cases ht
  | scanDone he _ => simp [stepsLeft, scanSteps, he, pendingSteps]
  | scanOk c d he hne _ _ =>
    obtain ⟨hle, -⟩ := hr.scanFits he
    rw [scanEnd_of_runFits hr] at hne
    have hs : (s.scanI + 1).toNat = s.scanI.toNat + 1 :=
      BitVec.toNat_add_of_lt (y := 1) (Nat.lt_of_le_of_lt (by omega : s.scanI.toNat + 1 ≤ s.len.toNat) s.len.isLt)
    simp only [stepsLeft, scanSteps, he, if_true, hs]
    omega
  | hdrV _ he h | hdrLit he h | hdrOp _ he h _ | litMore _ he h | opIB he h | opIN he h =>
    exact stepsLeft_advance h (by simp) rfl rfl (by simp [he, pendingSteps])
  | litLast _ he h =>
    refine stepsLeft_advance h nofun rfl rfl ?_
    simp only [he, litLast_frames, litLast_es, pendingSteps]
    omega
  | push n f hm h _ _ =>
    have hn : 11 ≤ n := (by decide : ∀ x ∈ openers, 11 ≤ x.2) _ hm
    refine stepsLeft_advance h nofun rfl rfl ?_
    simp only [List.length_cons, pendingSteps]
    omega
  | nextChild _ _ he _ _ | nextClose _ _ he _ _ => simp [stepsLeft, scanSteps, he, pendingSteps]
  | close f fs he hf =>
    simp only [stepsLeft, scanSteps, he, hf, pendingSteps, popFrame_es, popFrame_frames, popFrame_nbits, popFrame_pos,
      List.length_cons, reduceCtorEq, if_false]
    omega
  | combine f fs he hf _ => simp [stepsLeft, scanSteps, he, hf, pendingSteps]

theorem Move.ne_idle {s t : State} (h : Move s t) (hb : busy s) : t.es ≠ .idle := by
  cases h with
  | quiet hq => exact absurd hb (by rw [busy, hq]; nofun)
  | scanOk _ _ he _ _ _ => simp [he]
  | _ => simp

/-- R229: a run ends with the last of the steps that are left, or before. -/
theorem run_ends {k : Nat} {s : State} (hc : Consistent s) (hb : busy s) (hk : stepsLeft s < k) :
    ∃ n t, n ≤ k ∧ engineRun n s = .next t ∧ (t.es = .done ∨ t.es = .error) := by
  induction k generalizing s with
  | zero => omega
  | succ k ih =>
    obtain ⟨u, hu⟩ := microStep_next hc
    have hm := move_of_microStep hu
    by_cases hub : busy u
    · obtain ⟨n, t, hn, hrun, ht⟩ := ih (hm.consistent hc) hub (by have := hm.stepsLeft_lt (hc.run hb) hb hub; omega)
      exact ⟨n + 1, t, by omega, (engineRun_succ hu n).trans hrun, ht⟩
    · rcases not_busy_iff.1 (Bool.eq_false_iff.2 hub) with he | he
      · exact absurd he (hm.ne_idle hb)
      · exact ⟨1, u, by omega, (engineRun_one s).trans hu, he⟩

theorem startRun_fits {s : State} (h : s.len.toNat ≤ s.params.maxChars) : startRun s = enterScan (clearRun s) := by
  rw [startRun, if_neg (by omega)]

/-- Settles O56: `stepsLeft` is 17 * LEN + 1 right after START, and every step of the run takes from it. -/
theorem everyRunEnds : Obligations.EveryRunEnds := by
  intro s hc _ hl
  have hstart := startRun_fits hl
  have hbits : (startRun s).nbits.toNat = 4 * s.len.toNat := hstart ▸ (runFits_start hc.legal hl).nbitsIs
  refine run_ends (consistent_startRun hc) (by rw [hstart]; rfl) ?_
  rw [stepsLeft, hbits, hstart]
  simp only [scanSteps, pendingSteps, enterScan_es, enterScan_len, enterScan_scanI, enterScan_pos, enterScan_frames,
    clearRun_len, clearRun_scanI, clearRun_pos, clearRun_frames, if_true, List.length_nil]
  omega

end Sys2Proof.Proofs
end

section
/-! The reference parse taken apart: what `parsePacket` answers on each packet form, the two framings of an operator's
children as one, and the tree that a successful parse gives. -/

namespace Sys2Proof.Proofs

open Sys2Proof Sys2Proof.Machine Sys2Proof.Laws

/-! ### The two framings -/

/-- The width of the length field: L or N (R94, R96). -/
def lengthBits : LenType → Nat
  | .l0 => 15
  | .l1 => 11

/-- An operator's own bits, with `k` in its length field (R94, R96). -/
def headEncode (op : Op) (v : BitVec 3) (k : Nat) : LenType → List Bool
  | .l0 => encodeB op.typeId v (BitVec.ofNat 15 k)
  | .l1 => encodeN op.typeId v (BitVec.ofNat 11 k)

/-- How much of a length field one child takes that occupies `n` bits: its bits, or one (R94, R96). -/
def childExtent (n : Nat) : LenType → Nat
  | .l0 => n
  | .l1 => 1

/-- What a length field says of the children (R107). -/
def extent (cs : List Packet) : LenType → Nat
  | .l0 => packetsBits cs
  | .l1 => cs.length

/-- The children of an operator of either framing (R226). -/
def parseChildren (maxDepth fuel depth left : Nat) (bits : List Bool) : LenType → Parsed (List Packet)
  | .l0 => parseWindow maxDepth fuel depth left bits
  | .l1 => parseCount maxDepth fuel depth left bits

/-- One child more, before those that a parse gives. -/
def consChild (c : Packet) : Parsed (List Packet) → Parsed (List Packet)
  | .error e => .error e
  | .ok (cs, rest) => .ok (c :: cs, rest)

theorem headEncode_length (op : Op) (v : BitVec 3) (k : Nat) (lt : LenType) :
    (headEncode op v k lt).length = 7 + lengthBits lt := by
  cases lt
  · exact encodeB_length ..
  · exact encodeN_length ..

theorem extent_nil (lt : LenType) : extent [] lt = 0 := by cases lt <;> rfl

theorem extent_cons (c : Packet) (cs : List Packet) (lt : LenType) :
    extent (c :: cs) lt = childExtent (packetBits c) lt + extent cs lt := by
  cases lt
  · rfl
  · exact Nat.add_comm ..

theorem childExtent_pos {n : Nat} (h : 0 < n) (lt : LenType) : 0 < childExtent n lt := by
  cases lt
  · exact h
  · exact Nat.one_pos

/-- R103: no child is free. -/
theorem length_le_extent (cs : List Packet) (lt : LenType) : cs.length ≤ extent cs lt := by
  induction cs with
  | nil => exact Nat.zero_le _
  | cons c cs ih =>
    have := childExtent_pos (packetBits_pos c) lt
    rw [extent_cons, List.length_cons]
    omega

theorem length_lt_of_extent_lt {cs : List Packet} {lt : LenType} (h : extent cs lt < 2 ^ lengthBits lt) :
    cs.length < 2 ^ 16 := by
  have hle := length_le_extent cs lt
  cases lt <;> rw [lengthBits] at h <;> omega

theorem packetBits_operator (v : BitVec 3) (op : Op) (lt : LenType) (cs : List Packet) :
    packetBits (.operator v op lt cs) = 7 + lengthBits lt + packetsBits cs := by
  cases lt <;> rw [packetBits] <;> rfl

theorem packetEncode_operator (v : BitVec 3) (op : Op) (lt : LenType) (cs : List Packet) :
    packetEncode (.operator v op lt cs) = headEncode op v (extent cs lt) lt ++ packetsEncode cs := by
  cases lt <;> rw [packetEncode] <;> rfl

theorem packetWf_operator {v : BitVec 3} {op : Op} {lt : LenType} {cs : List Packet} :
    packetWf (.operator v op lt cs) = true ↔
      packetsWf cs = true ∧ arityOk op cs.length = true ∧ extent cs lt < 2 ^ lengthBits lt := by
  cases lt <;> simp [packetWf, extent, lengthBits, and_assoc]

/-! ### One packet -/

/-- What the reference parse of one packet answers, a constructor for each of its ends (R226, R228). -/
inductive PacketParse (maxDepth fuel depth : Nat) (bits : List Bool) : Parsed Packet → Prop
  | cut (e : DecodeError) : decode bits = .error e → PacketParse maxDepth fuel depth bits (.error .outOfBits)
  | literal (v : BitVec 3) (ds : List (BitVec 4)) (rest : List Bool) : ds ≠ [] →
      bits = encodeHeader v 4#3 ++ encodeGroups ds ++ rest →
      PacketParse maxDepth fuel depth bits (.ok (.literal v ds, rest))
  | full (op : Op) (v : BitVec 3) (lt : LenType) (k : Nat) (rest : List Bool) : bits = headEncode op v k lt ++ rest →
      maxDepth ≤ depth → PacketParse maxDepth fuel depth bits (.error .depthExceeded)
  | operator (op : Op) (v : BitVec 3) (lt : LenType) (k : Nat) (rest : List Bool) : k < 2 ^ lengthBits lt →
      bits = headEncode op v k lt ++ rest → depth < maxDepth → PacketParse maxDepth fuel depth bits
        (closeOperator v op lt (parseChildren maxDepth fuel (depth + 1) k rest lt))

/-- R226, R104: a packet's own fields fail to parse only as they fail to decode. -/
theorem parsePacket_of_decode_error {maxDepth fuel depth : Nat} {bits : List Bool} {e : DecodeError}
    (h : decode bits = .error e) : parsePacket maxDepth (fuel + 1) depth bits = .error .outOfBits := by
  rcases hv : takeField 3 bits with _ | ⟨v, afterV⟩
  · simp [parsePacket, hv]
  rcases ht : takeField 3 afterV with _ | ⟨t, body⟩
  · simp [parsePacket, hv, ht]
  simp only [decode, hv, ht] at h
  cases ho : Op.ofTypeId t with
  | none =>
    rw [if_pos (ofTypeId_eq_none.1 ho)] at h
    cases hg : decodeGroups body with
    | error => simp [parsePacket, hv, ht, ho, hg]
    | ok r => simp [decodeLit, hg] at h
  | some op =>
    obtain rfl := ofTypeId_eq_some.1 ho
    rw [if_neg (typeId_ne_lit op)] at h
    match body with
    | [] => simp [parsePacket, hv, ht]
    | false :: body =>
      cases hl : takeField 15 body with
      | none => simp [parsePacket, hv, ht, hl]
      | some r =>
        obtain ⟨i, hi, -⟩ := instrB_typeId op v r.1
        simp [decodeOperator, hl, hi] at h
    | true :: body =>
      cases hl : takeField 11 body with
      | none => simp [parsePacket, hv, ht, hl]
      | some r =>
        obtain ⟨i, hi, -⟩ := instrN_typeId op v r.1
        simp [decodeOperator, hl, hi] at h

/-- R228: on a full stack the length field is read, and no more. -/
theorem parsePacket_headEncode_full {maxDepth depth : Nat} (fuel : Nat) (op : Op) (v : BitVec 3) (k : Nat)
    (lt : LenType) (body : List Bool) (h : maxDepth ≤ depth) :
    parsePacket maxDepth (fuel + 1) depth (headEncode op v k lt ++ body) = .error .depthExceeded := by
  cases lt with
  | l0 => simp [parsePacket, headEncode, encodeB, encodeHeader, h]
  | l1 => simp [parsePacket, headEncode, encodeN, encodeHeader, h]

/-- R226: an operator's own bits open the parse of its children, in either framing. -/
theorem parsePacket_headEncode {maxDepth depth : Nat} (fuel : Nat) (op : Op) (v : BitVec 3) {k : Nat} {lt : LenType}
    (body : List Bool) (hk : k < 2 ^ lengthBits lt) (h : depth < maxDepth) :
    parsePacket maxDepth (fuel + 1) depth (headEncode op v k lt ++ body) =
      closeOperator v op lt (parseChildren maxDepth fuel (depth + 1) k body lt) := by
  cases lt with
  | l0 =>
    have hlen : (BitVec.ofNat 15 k).toNat = k := Nat.mod_eq_of_lt hk
    rw [headEncode, parsePacket_encodeB fuel op v _ body h, hlen, parseChildren]
  | l1 =>
    have hcnt : (BitVec.ofNat 11 k).toNat = k := Nat.mod_eq_of_lt hk
    rw [headEncode, parsePacket_encodeN fuel op v _ body h, hcnt, parseChildren]

/-- R100: a well-formed instruction is a literal or an operator's own bits in one of the two framings. -/
theorem encode_cases {i : Instr} (hw : i.wellFormed = true) :
    (∃ v ds, ds ≠ [] ∧ encode i = encodeHeader v 4#3 ++ encodeGroups ds) ∨
      ∃ op v lt k, k < 2 ^ lengthBits lt ∧ encode i = headEncode op v k lt := by
  rcases wellFormed_cases hw with ⟨v, ds, rfl, hne⟩ | ⟨op, v, len, hi⟩ | ⟨op, v, cnt, hi⟩
  · exact .inl ⟨v, ds, hne, rfl⟩
  · exact .inr ⟨op, v, .l0, len.toNat, len.isLt, by rw [(instrB_eq_some hi).1, headEncode, BitVec.ofNat_toNat,
      BitVec.setWidth_eq]⟩
  · exact .inr ⟨op, v, .l1, cnt.toNat, cnt.isLt, by rw [(instrN_eq_some hi).1, headEncode, BitVec.ofNat_toNat,
      BitVec.setWidth_eq]⟩

theorem parsePacket_parse (maxDepth fuel depth : Nat) (bits : List Bool) :
    PacketParse maxDepth fuel depth bits (parsePacket maxDepth (fuel + 1) depth bits) := by
  rcases hd : decode bits with e | ⟨i, rest⟩
  · rw [parsePacket_of_decode_error hd]
    exact .cut e hd
  obtain ⟨hw, rfl⟩ := decode_eq_ok_iff.1 hd
  rcases encode_cases hw with ⟨v, ds, hne, he⟩ | ⟨op, v, lt, k, hk, he⟩ <;> rw [he]
  · rw [parsePacket_literal maxDepth fuel depth v rest hne]
    exact .literal v ds rest hne rfl
  rcases Nat.lt_or_ge depth maxDepth with hroom | hfull
  · rw [parsePacket_headEncode fuel op v rest hk hroom]
    exact .operator op v lt k rest hk rfl hroom
  · rw [parsePacket_headEncode_full fuel op v k lt rest hfull]
    exact .full op v lt k rest rfl hfull

/-! ### The children -/

/-- What the reference parse of children answers, a constructor for each of its ends (R226). -/
inductive ChildrenParse (maxDepth fuel depth left : Nat) (bits : List Bool) (lt : LenType) :
    Parsed (List Packet) → Prop
  | done : left = 0 → ChildrenParse maxDepth fuel depth left bits lt (.ok ([], bits))
  | failed (e : ParseError) : left ≠ 0 → parsePacket maxDepth fuel depth bits = .error e →
      ChildrenParse maxDepth fuel depth left bits lt (.error e)
  | overshot (c : Packet) (rest : List Bool) : left ≠ 0 → parsePacket maxDepth fuel depth bits = .ok (c, rest) →
      left < childExtent (bits.length - rest.length) lt →
      ChildrenParse maxDepth fuel depth left bits lt (.error .malformedPacket)
  | child (c : Packet) (rest : List Bool) : left ≠ 0 → parsePacket maxDepth fuel depth bits = .ok (c, rest) →
      childExtent (bits.length - rest.length) lt ≤ left → ChildrenParse maxDepth fuel depth left bits lt
        (consChild c (parseChildren maxDepth fuel depth (left - childExtent (bits.length - rest.length) lt) rest lt))

section Children

variable {maxDepth fuel depth left : Nat} {bits rest : List Bool} {c : Packet} (lt : LenType)

theorem parseChildren_done (hl : left = 0) :
    parseChildren maxDepth (fuel + 1) depth left bits lt = .ok ([], bits) := by
  cases lt <;> simp [parseChildren, parseWindow, parseCount, hl]

theorem parseChildren_failed {e : ParseError} (hl : left ≠ 0) (hc : parsePacket maxDepth fuel depth bits = .error e) :
    parseChildren maxDepth (fuel + 1) depth left bits lt = .error e := by
  cases lt <;> simp [parseChildren, parseWindow, parseCount, hl, hc]

/-- Only a window can be overshot: a count that is not 0 has room for one child. -/
theorem parseChildren_overshot (hl : left ≠ 0) (hc : parsePacket maxDepth fuel depth bits = .ok (c, rest))
    (ho : left < childExtent (bits.length - rest.length) lt) :
    parseChildren maxDepth (fuel + 1) depth left bits lt = .error .malformedPacket := by
  cases lt with
  | l0 =>
    rw [childExtent] at ho
    simp [parseChildren, parseWindow, hl, hc, ho]
  | l1 => exact absurd (Nat.lt_one_iff.1 ho) hl

theorem parseChildren_child (hl : left ≠ 0) (hc : parsePacket maxDepth fuel depth bits = .ok (c, rest))
    (hfit : childExtent (bits.length - rest.length) lt ≤ left) :
    parseChildren maxDepth (fuel + 1) depth left bits lt = consChild c
      (parseChildren maxDepth fuel depth (left - childExtent (bits.length - rest.length) lt) rest lt) := by
  cases lt with
  | l0 =>
    have hin : ¬left < bits.length - rest.length := Nat.not_lt.2 hfit
    simp only [parseChildren, parseWindow, hl, hc, hin, if_false]
    rfl
  | l1 =>
    simp only [parseChildren, parseCount, hl, hc, if_false]
    rfl

end Children

theorem parseChildren_parse (maxDepth fuel depth left : Nat) (bits : List Bool) (lt : LenType) :
    ChildrenParse maxDepth fuel depth left bits lt (parseChildren maxDepth (fuel + 1) depth left bits lt) := by
  by_cases hl : left = 0
  · rw [parseChildren_done lt hl]
    exact .done hl
  rcases hc : parsePacket maxDepth fuel depth bits with e | ⟨c, rest⟩
  · rw [parseChildren_failed lt hl hc]
    exact .failed e hl hc
  rcases Nat.lt_or_ge left (childExtent (bits.length - rest.length) lt) with ho | hfit
  · rw [parseChildren_overshot lt hl hc ho]
    exact .overshot c rest hl hc ho
  · rw [parseChildren_child lt hl hc hfit]
    exact .child c rest hl hc hfit

/-! ### The tree -/

/-- The tree of a packet that parses is well-formed, nests no deeper than the stack, and its bits stand at the head. -/
def PacketSound (maxDepth fuel : Nat) : Prop :=
  ∀ {depth : Nat} {bits rest : List Bool} {p : Packet}, depth ≤ maxDepth →
    parsePacket maxDepth fuel depth bits = .ok (p, rest) →
    packetWf p = true ∧ packetDepth p + depth ≤ maxDepth ∧ bits = packetEncode p ++ rest

/-- The trees of children that parse are well-formed, and they are what the length field says. -/
def ChildrenSound (maxDepth fuel : Nat) : Prop :=
  ∀ {depth left : Nat} {bits rest : List Bool} {cs : List Packet} {lt : LenType}, depth ≤ maxDepth →
    parseChildren maxDepth fuel depth left bits lt = .ok (cs, rest) →
    packetsWf cs = true ∧ packetsDepth cs + depth ≤ maxDepth ∧ left = extent cs lt ∧ bits = packetsEncode cs ++ rest

theorem packetSound_succ {maxDepth fuel : Nat} (hcs : ChildrenSound maxDepth fuel) :
    PacketSound maxDepth (fuel + 1) := by
  intro depth bits rest p hd h
  have hp := parsePacket_parse maxDepth fuel depth bits
  rw [h] at hp
  generalize ho : (.ok (p, rest) : Parsed Packet) = o at hp
  cases hp with
  | cut e _ => cases ho
  | full _ _ _ _ _ _ _ => cases ho
  | literal v ds rest hne hb =>
    cases ho
    exact ⟨by simpa [packetWf] using hne, by simpa [packetDepth] using hd, hb⟩
  | operator op v lt k body hk hb hroom =>
    rcases hc : parseChildren maxDepth fuel (depth + 1) k body lt with e | ⟨cs, after⟩ <;>
      rw [hc, closeOperator] at ho
    · cases ho
    · split at ho
      case isFalse => cases ho
      case isTrue ha =>
        cases ho
        obtain ⟨hw, hdepth, rfl, rfl⟩ := hcs hroom hc
        refine ⟨packetWf_operator.2 ⟨hw, ha, hk⟩, ?_, ?_⟩
        · rw [packetDepth]
          omega
        · rw [packetEncode_operator, List.append_assoc, hb]

theorem childrenSound_succ {maxDepth fuel : Nat} (hp : PacketSound maxDepth fuel) (hcs : ChildrenSound maxDepth fuel) :
    ChildrenSound maxDepth (fuel + 1) := by
  intro depth left bits rest cs lt hd h
  have hq := parseChildren_parse maxDepth fuel depth left bits lt
  rw [h] at hq
  generalize ho : (.ok (cs, rest) : Parsed (List Packet)) = o at hq
  cases hq with
  | failed e _ _ => cases ho
  | overshot c rest _ _ _ => cases ho
  | done hl =>
    cases ho
    exact ⟨rfl, by simpa [packetsDepth] using hd, by rw [hl, extent_nil], rfl⟩
  | child c mid hl hc hfit =>
    rcases hm : parseChildren maxDepth fuel depth (left - childExtent (bits.length - mid.length) lt) mid lt with
      e | ⟨ds, after⟩ <;> rw [hm, consChild] at ho <;> cases ho
    obtain ⟨hw, hdepth, rfl⟩ := hp hd hc
    obtain ⟨hws, hdepths, hleft, rfl⟩ := hcs hd hm
    have hused : (packetEncode c ++ (packetsEncode ds ++ rest)).length - (packetsEncode ds ++ rest).length =
        packetBits c := by rw [List.length_append, packetEncode_length, Nat.add_sub_cancel]
    rw [hused] at hleft hfit
    refine ⟨by rw [packetsWf, hw, hws]; rfl, ?_, ?_, ?_⟩
    · rw [packetsDepth]
      omega
    · rw [extent_cons]
      omega
    · rw [packetsEncode, List.append_assoc]

theorem parse_sound (maxDepth fuel : Nat) : PacketSound maxDepth fuel ∧ ChildrenSound maxDepth fuel := by
  induction fuel with
  | zero =>
    refine ⟨fun _ h => ?_, fun {_ _ _ _ _ lt} _ h => ?_⟩
    · cases h
    · cases lt <;> cases h
  | succ fuel ih => exact ⟨packetSound_succ ih.2, childrenSound_succ ih.1 ih.2⟩

end Sys2Proof.Proofs
end

section
/-! The values of a packet's children as they are folded into its frame, against the tree's exact value (R223) and its
overflow (R227). -/

namespace Sys2Proof.Proofs

open Sys2Proof Sys2Proof.Machine Sys2Proof.Laws Sys2Proof.Safety

/-! ### One child more -/

theorem treesOverflow_concat (w : Nat) (cs : List Packet) (c : Packet) :
    treesOverflow w (cs ++ [c]) = (treesOverflow w cs || treeOverflows w c) := by
  induction cs with
  | nil => simp [treesOverflow]
  | cons d ds ih => rw [List.cons_append, treesOverflow, ih, treesOverflow, Bool.or_assoc]

theorem evaluateAll_concat {cs : List Packet} {c : Packet} {vs : List Value} {v : Value}
    (hcs : evaluateAll cs = some vs) (hc : evaluate c = some v) : evaluateAll (cs ++ [c]) = some (vs ++ [v]) := by
  induction cs generalizing vs with
  | nil =>
    cases hcs
    simp [evaluateAll, hc]
  | cons d ds ih =>
    rw [evaluateAll] at hcs
    split at hcs
    case h_2 => cases hcs
    case h_1 hd hds =>
      cases hcs
      simp [evaluateAll, hd, ih hds]

/-! ### The frame of the children so far -/

/-- Frame `f` and the sticky flag `ovf` after the children `cs`, where the flag was `o` before the first of them: the
fold of values that are exact unless a child overflowed (R203, R211). -/
def Folded (w : Nat) (o : Bool) (f : Frame) (ovf : Bool) (cs : List Packet) : Prop :=
  ∃ vs : List Value, vs.length = cs.length ∧ (f.n, f.r) = ((foldChildren w f.op vs).1, (foldChildren w f.op vs).2.1) ∧
    ovf = (o || treesOverflow w cs || (foldChildren w f.op vs).2.2) ∧
    (treesOverflow w cs = false → evaluateAll cs = some vs)

/-- A frame opens with the fold of no child (R200). -/
theorem folded_nil (w : Nat) (o : Bool) {f : Frame} (hn : f.n = 0) (hr : f.r = initVal f.op) : Folded w o f o [] :=
  ⟨[], rfl, by rw [hn, hr]; rfl, by simp [treesOverflow, foldChildren], fun _ => rfl⟩

/-- The frame after a child of value `v` (R157, R203). -/
def foldInto (w : Nat) (f : Frame) (v : Value) : Frame := { f with r := (combine w f.op f.n f.r v).1, n := f.n + 1 }

/-- RET combines one child more (R157). -/
theorem Folded.concat {w : Nat} {o ovf : Bool} {f : Frame} {cs : List Packet} (h : Folded w o f ovf cs) {c : Packet}
    {v : Value} (hc : treeOverflows w c = false → evaluate c = some v) :
    Folded w o (foldInto w f v) ((ovf || treeOverflows w c) || (combine w f.op f.n f.r v).2) (cs ++ [c]) := by
  obtain ⟨vs, hlen, hf, hovf, heval⟩ := h
  obtain ⟨hn, hr⟩ := Prod.mk.inj hf
  refine ⟨vs ++ [v], by simp [hlen], ?_, ?_, fun ho => ?_⟩
  · rw [foldInto, foldChildren_concat, ← hn, ← hr]
  · rw [foldInto, foldChildren_concat, ← hn, ← hr, hovf, treesOverflow_concat]
    ac_rfl
  · rw [treesOverflow_concat, Bool.or_eq_false_iff] at ho
    exact evaluateAll_concat (heval ho.1) (hc ho.2)

/-- The frame counts its children. -/
theorem Folded.count {w : Nat} {o ovf : Bool} {f : Frame} {cs : List Packet} (h : Folded w o f ovf cs)
    (hl : cs.length < 2 ^ 16) : f.n.toNat = cs.length := by
  obtain ⟨vs, hlen, hf, -⟩ := h
  rw [(Prod.mk.inj hf).1, foldChildren_count, hlen, BitVec.toNat_ofNat, Nat.mod_eq_of_lt hl]

/-- With all children folded the frame holds the operator's value, unless R227 holds somewhere in the tree. -/
theorem Folded.value {w : Nat} {o ovf : Bool} {f : Frame} {cs : List Packet} (h : Folded w o f ovf cs) (hw : 0 < w)
    (ha : arityOk f.op cs.length = true) (hl : cs.length < 2 ^ 16) (v : BitVec 3) (lt : LenType) :
    ovf = (o || treeOverflows w (.operator v f.op lt cs)) ∧
      (treeOverflows w (.operator v f.op lt cs) = false → evaluate (.operator v f.op lt cs) = some f.r) := by
  obtain ⟨vs, hlen, hf, hovf, heval⟩ := h
  obtain ⟨-, hr⟩ := Prod.mk.inj hf
  rw [← hlen] at ha hl
  obtain ⟨-, hfold, hval⟩ := foldIsTheOperatorsValue w f.op vs hw ha hl
  rw [hovf, hr, hfold, treeOverflows, evaluate]
  cases ho : treesOverflow w cs with
  | true => simp
  | false => simpa [heval ho] using hval

end Sys2Proof.Proofs
end

section
/-! The engine over a packet's bits: the run of a well-formed tree, from HDR_V to RET, in R229's steps. -/

namespace Sys2Proof.Proofs

open Sys2Proof Sys2Proof.Machine Sys2Proof.Laws Sys2Proof.Safety

/-! ### Runs over the stream -/

theorem path_of_engineRun {n : Nat} {s t : State} (h : engineRun n s = .next t) : Relation.ReflTransGen Move s t := by
  induction n generalizing s with
  | zero => cases h; exact .refl
  | succ n ih =>
    cases hu : microStep s with
    | next u =>
      rw [engineRun_succ hu] at h
      exact .head (move_of_microStep hu) (ih h)
    | fault | refused =>
      rw [engineRun, hu] at h
      cases h

theorem nbits_of_path {s t : State} (h : Relation.ReflTransGen Move s t) : t.nbits = s.nbits := by
  induction h with
  | refl => rfl
  | tail _ h ih => exact h.nbits.trans ih

theorem params_of_engineRun {n : Nat} {s t : State} (h : engineRun n s = .next t) : t.params = s.params :=
  (sameInput_of_path (path_of_engineRun h)).1

theorem engineRun_trans {n m : Nat} {s t u : State} (h : engineRun n s = .next t) (h' : engineRun m t = .next u) :
    engineRun (n + m) s = .next u := (engineRun_add h m).trans h'

theorem engineRun_step {n : Nat} {s t u : State} (h : engineRun n s = .next t) (h' : microStep t = .next u) :
    engineRun (n + 1) s = .next u := engineRun_trans h ((engineRun_one t).trans h')

/-- In micro-state `m`, with `bits` left in the stream and the registers in the ranges that a run keeps them in. -/
structure Reading (s : State) (m : Micro) (bits : List Bool) : Prop where
  es : s.es = m
  width : 0 < s.params.width
  stack : s.frames.length ≤ s.params.maxDepth
  small : s.nbits.toNat ≤ 2 ^ 26
  length : s.pos.toNat + bits.length = s.nbits.toNat
  stream : streamBits s s.pos.toNat bits.length = some bits

section Reading

variable {s t : State} {m m' : Micro} {as rest : List Bool} {n : Nat}

theorem Reading.fits (h : Reading s m (as ++ rest)) : s.pos.toNat + as.length ≤ s.nbits.toNat := by
  have hl := h.length
  rw [List.length_append] at hl
  omega

theorem Reading.holds (h : Reading s m (as ++ rest)) : HoldsAt s s.pos.toNat as := by
  have hl := h.length
  have hs := h.stream
  rw [List.length_append] at hl hs
  obtain ⟨as', bs, has, -, he⟩ := streamBits_add.1 hs
  obtain ⟨rfl, -⟩ := List.append_inj he (streamBits_length has).symm
  rw [HoldsAt, List.take_of_length_le (by omega), min_eq_left (by omega), has]

/-- A run that takes the cursor past `as` leaves the bits after them. -/
theorem Reading.after (h : Reading s m (as ++ rest)) (hrun : engineRun n s = .next t) (he : t.es = m')
    (hd : t.frames.length ≤ s.params.maxDepth) (hp : t.pos.toNat = s.pos.toNat + as.length) : Reading t m' rest := by
  have hpath := path_of_engineRun hrun
  obtain ⟨hparams, -, hibuf, -, -, hdraw, -⟩ := sameInput_of_path hpath
  have hl := h.length
  have hs := h.stream
  rw [List.length_append] at hl hs
  obtain ⟨as', bs, has, hbs, hab⟩ := streamBits_add.1 hs
  obtain ⟨-, rfl⟩ := List.append_inj hab (streamBits_length has).symm
  exact
    { es := he
      width := by rw [hparams]; exact h.width
      stack := by rw [hparams]; exact hd
      small := by rw [nbits_of_path hpath]; exact h.small
      length := by rw [nbits_of_path hpath, hp, ← hl, Nat.add_assoc]
      stream := by rw [streamBits_congr hparams hibuf hdraw, hp, hbs] }

/-- A step that reads nothing. -/
theorem Reading.step (h : Reading s m rest) (hstep : microStep s = .next t) (he : t.es = m')
    (hd : t.frames.length ≤ s.params.maxDepth) (hp : t.pos = s.pos) : Reading t m' rest :=
  h.after (as := []) ((engineRun_one s).trans hstep) he hd (congrArg BitVec.toNat hp)

end Reading

/-! ### One packet's own fields -/

/-- At RET with the packet's value, the frame stack as it was at HDR_V (R222, R223, R227). -/
structure Returned (s t : State) (p : Packet) : Prop where
  es : t.es = .ret
  frames : t.frames = s.frames
  pos : t.pos.toNat = s.pos.toNat + packetBits p
  vacc : t.vacc = s.vacc + BitVec.ofNat 32 (versionSum p)
  ovf : t.ovf = (s.ovf || treeOverflows s.params.width p)
  value : treeOverflows s.params.width p = false → evaluate p = some t.ret

/-- The packet's bits are run from HDR_V to RET; the last of R229's steps is RET's own. -/
def PacketRuns (p : Packet) : Prop :=
  ∀ {s : State} {rest : List Bool}, Reading s .hdrV (packetEncode p ++ rest) →
    packetDepth p + s.frames.length ≤ s.params.maxDepth →
    ∃ n t, n + 1 = packetSteps p ∧ engineRun n s = .next t ∧ Returned s t p

theorem packetRuns_literal (v : BitVec 3) {ds : List (BitVec 4)} (hd : ds ≠ []) : PacketRuns (.literal v ds) := by
  intro s rest h _
  have hfits := h.fits
  rw [packetEncode_length] at hfits
  refine ⟨ds.length + 2, _, rfl,
    (engineRun_literal hd h.es h.holds).trans (litGivesItsValue v ds s hd hfits), ?_⟩
  exact
    { es := rfl
      frames := rfl
      pos := toNat_pos_add hfits
      vacc := congrArg (s.vacc + ·) (BitVec.ofNat_toNat ..).symm
      ovf := rfl
      value := fun ho => by
        rw [treeOverflows, decide_eq_false_iff_not, Nat.not_le] at ho
        exact congrArg some (Nat.mod_eq_of_lt ho).symm }

/-- The state after an operator's own fields, with `k` in its length field. -/
def opened (op : Op) (v : BitVec 3) (k : Nat) (s : State) : LenType → State
  | .l0 => openedB op.typeId op (initVal op) v (BitVec.ofNat 15 k) s
  | .l1 => openedN op.typeId op (initVal op) v (BitVec.ofNat 11 k) s

/-- The frame that an operator opens with its first bit at `p` (R152, R153). -/
def openedFrame (op : Op) (k : Nat) (p : Word) : LenType → Frame
  | .l0 => { op := op, lt := .l0, lim := p + 22 + (BitVec.ofNat 15 k).setWidth 32, n := 0, r := initVal op }
  | .l1 => { op := op, lt := .l1, lim := (BitVec.ofNat 11 k).setWidth 32, n := 0, r := initVal op }

section Opened

variable (op : Op) (v : BitVec 3) (k : Nat) (s : State) (lt : LenType)

@[simp] theorem opened_es : (opened op v k s lt).es = .next := by cases lt <;> rfl
@[simp] theorem opened_ovf : (opened op v k s lt).ovf = s.ovf := by cases lt <;> rfl
@[simp] theorem opened_params : (opened op v k s lt).params = s.params := by cases lt <;> rfl
@[simp] theorem opened_frames : (opened op v k s lt).frames = openedFrame op k s.pos lt :: s.frames := by
  cases lt <;> rfl
@[simp] theorem opened_vacc : (opened op v k s lt).vacc = s.vacc + BitVec.ofNat 32 v.toNat := by
  rw [BitVec.ofNat_toNat]; cases lt <;> rfl
theorem opened_pos : (opened op v k s lt).pos = s.pos + BitVec.ofNat 32 (7 + lengthBits lt) := by cases lt <;> rfl
@[simp] theorem openedFrame_op (p : Word) : (openedFrame op k p lt).op = op := by cases lt <;> rfl
@[simp] theorem openedFrame_lt (p : Word) : (openedFrame op k p lt).lt = lt := by cases lt <;> rfl
@[simp] theorem openedFrame_n (p : Word) : (openedFrame op k p lt).n = 0 := by cases lt <;> rfl
@[simp] theorem openedFrame_r (p : Word) : (openedFrame op k p lt).r = initVal op := by cases lt <;> rfl

end Opened

section Head

variable {op : Op} {v : BitVec 3} {k : Nat} {lt : LenType} {s : State} {rest : List Bool}

/-- R150: four steps open an operator's frame. -/
theorem engineRun_headEncode (h : Reading s .hdrV (headEncode op v k lt ++ rest))
    (hd : s.frames.length < s.params.maxDepth) : engineRun 4 s = .next (opened op v k s lt) := by
  have hfits := h.fits
  rw [headEncode_length] at hfits
  cases lt with
  | l0 => exact (engineRun_operatorB h.es h.holds).trans (operatorB_opens op v _ hfits hd)
  | l1 => exact (engineRun_operatorN h.es h.holds).trans (operatorN_opens op v _ hfits hd)

theorem toNat_opened_pos (h : Reading s .hdrV (headEncode op v k lt ++ rest)) :
    (opened op v k s lt).pos.toNat = s.pos.toNat + (headEncode op v k lt).length := by
  have hfits := h.fits
  rw [headEncode_length] at hfits ⊢
  rw [opened_pos, toNat_pos_add hfits]

theorem reading_opened (h : Reading s .hdrV (headEncode op v k lt ++ rest))
    (hd : s.frames.length < s.params.maxDepth) : Reading (opened op v k s lt) .next rest :=
  h.after (engineRun_headEncode h hd) (opened_es ..) (by rw [opened_frames]; exact hd) (toNat_opened_pos h)

end Head

/-! ### The window and the count -/

/-- What the limit of a frame is compared with: the cursor, or the number of children (R155). -/
def progress (f : Frame) (s : State) : Nat :=
  match f.lt with
  | .l0 => s.pos.toNat
  | .l1 => f.n.toNat

theorem progress_l0 {f : Frame} (h : f.lt = .l0) (s : State) : progress f s = s.pos.toNat := by rw [progress, h]

theorem progress_l1 {f : Frame} (h : f.lt = .l1) (s : State) : progress f s = f.n.toNat := by rw [progress, h]

/-- Of what the length field of frame `f` said, `k` is left, and the frame's counter has room for it (R155). -/
structure Due (f : Frame) (s : State) (k : Nat) : Prop where
  limit : f.lim.toNat = progress f s + k
  room : f.n.toNat + k < 2 ^ 16

theorem due_opened (op : Op) (v : BitVec 3) {k : Nat} {lt : LenType} {s : State} {rest : List Bool}
    (h : Reading s .hdrV (headEncode op v k lt ++ rest)) (hk : k < 2 ^ lengthBits lt) :
    Due (openedFrame op k s.pos lt) (opened op v k s lt) k := by
  have hpos := toNat_opened_pos h
  have hfits := h.fits
  have hsmall := h.small
  have hroom (hk : k < 2 ^ 16) : (openedFrame op k s.pos lt).n.toNat + k < 2 ^ 16 := by
    rw [openedFrame_n]
    exact (Nat.zero_add k).trans_lt hk
  cases lt with
  | l0 =>
    rw [lengthBits] at hk
    refine ⟨?_, hroom (by omega)⟩
    change ((opened op v k s .l0).pos + (BitVec.ofNat 15 k).setWidth 32).toNat = (opened op v k s .l0).pos.toNat + k
    rw [BitVec.toNat_add, hpos, BitVec.toNat_setWidth, BitVec.toNat_ofNat]
    omega
  | l1 =>
    rw [lengthBits] at hk
    refine ⟨?_, hroom (by omega)⟩
    change ((BitVec.ofNat 11 k).setWidth 32).toNat = 0 + k
    rw [BitVec.toNat_setWidth, BitVec.toNat_ofNat]
    omega

section Due

variable {f : Frame} {fs : List Frame} {s : State} {k : Nat} {bits : List Bool}

theorem Due.frameFull_iff (h : Due f s k) : frameFull f s = true ↔ k = 0 := by
  have hlim := h.limit
  cases hl : f.lt with
  | l0 =>
    rw [progress_l0 hl] at hlim
    simp only [frameFull, hl, decide_eq_true_eq, ← BitVec.toNat_inj]
    omega
  | l1 =>
    rw [progress_l1 hl] at hlim
    simp only [frameFull, hl, decide_eq_true_eq]
    omega

/-- R155: NEXT goes on to a child where one is due. -/
theorem Due.microStep_child (h : Due f s k) (hk : k ≠ 0) (he : s.es = .next) (hf : s.frames = f :: fs) :
    microStep s = .next { s with es := .hdrV } := by
  rw [microStep_next_frame he hf, if_neg (mt h.frameFull_iff.1 hk)]

/-- R155: NEXT goes to CLOSE where no child is due. -/
theorem Due.microStep_close (h : Due f s 0) (he : s.es = .next) (hf : s.frames = f :: fs) :
    microStep s = .next { s with es := .close } := by
  rw [microStep_next_frame he hf, if_pos (h.frameFull_iff.2 rfl)]

end Due

/-! ### One child -/

section Child

variable {f : Frame} {fs : List Frame} {s u : State} {k : Nat} {c : Packet} {rest : List Bool}

/-- R229: a child's run and the NEXT before it, up to the child's RET. -/
theorem child_run (hc : PacketRuns c) (h : Reading s .next (packetEncode c ++ rest)) (hf : s.frames = f :: fs)
    (hd : packetDepth c + s.frames.length ≤ s.params.maxDepth) (hdue : Due f s k) (hk : k ≠ 0) :
    ∃ u, engineRun (packetSteps c) s = .next u ∧ Returned s u c := by
  have hnext := hdue.microStep_child hk h.es hf
  obtain ⟨n, u, hn, hrun, hu⟩ := hc (h.step hnext rfl h.stack rfl) hd
  exact ⟨u, hn ▸ (engineRun_succ hnext n).trans hrun, ⟨hu.es, hu.frames, hu.pos, hu.vacc, hu.ovf, hu.value⟩⟩

/-- R157: a child that ended inside what was left is combined. -/
theorem Returned.microStep_combine (hu : Returned s u c) (hf : s.frames = f :: fs) (hdue : Due f s k)
    (hfit : childExtent (packetBits c) f.lt ≤ k) : microStep u = .next (combineTop f fs u) := by
  refine microStep_ret hu.es (hu.frames.trans hf) (fun hl => ?_) rfl
  have hlim := hdue.limit
  rw [progress_l0 hl] at hlim
  rw [hl, childExtent] at hfit
  rw [hu.pos]
  omega

theorem Returned.due (hu : Returned s u c) (hdue : Due f s k) (hfit : childExtent (packetBits c) f.lt ≤ k) :
    Due (foldInto u.params.width f u.ret) (combineTop f fs u) (k - childExtent (packetBits c) f.lt) := by
  have hpos := childExtent_pos (packetBits_pos c) f.lt
  have hroom := hdue.room
  have hn : (f.n + 1).toNat = f.n.toNat + 1 :=
    BitVec.toNat_add_of_lt (y := 1) (by omega : f.n.toNat + 1 < 2 ^ 16)
  refine ⟨?limit, ?room⟩
  case room =>
    simp only [foldInto, hn]
    omega
  case limit =>
    have hlim := hdue.limit
    cases hl : f.lt with
    | l0 =>
      rw [hl, childExtent] at hfit
      rw [progress_l0 hl] at hlim
      rw [progress_l0 (f := foldInto ..) hl, combineTop_pos, hu.pos, childExtent]
      simp only [foldInto]
      omega
    | l1 =>
      rw [hl, childExtent] at hfit
      rw [progress_l1 hl] at hlim
      rw [progress_l1 (f := foldInto ..) hl, childExtent]
      simp only [foldInto, hn]
      omega

theorem length_frames_combineTop (hf : s.frames = f :: fs) (u : State) :
    (combineTop f fs u).frames.length = s.frames.length := by
  rw [hf]
  rfl

/-- R229: the NEXT before a child, the child's run and its RET, which combines it. -/
theorem child_combined (hc : PacketRuns c) (h : Reading s .next (packetEncode c ++ rest)) (hf : s.frames = f :: fs)
    (hd : packetDepth c + s.frames.length ≤ s.params.maxDepth) (hdue : Due f s k) (hk : k ≠ 0)
    (hfit : childExtent (packetBits c) f.lt ≤ k) :
    ∃ u, engineRun (packetSteps c + 1) s = .next (combineTop f fs u) ∧ Returned s u c ∧ u.params = s.params ∧
      Reading (combineTop f fs u) .next rest := by
  obtain ⟨u, hrun, hu⟩ := child_run hc h hf hd hdue hk
  have hrun' := engineRun_step hrun (hu.microStep_combine hf hdue hfit)
  refine ⟨u, hrun', hu, params_of_engineRun hrun, h.after hrun' rfl ?stack ?pos⟩
  case stack => exact length_frames_combineTop hf u ▸ h.stack
  case pos => rw [packetEncode_length]; exact hu.pos

/-- R157: a child that used more than was left overshot its window. -/
theorem Returned.microStep_overshoot (hu : Returned s u c) (hf : s.frames = f :: fs) (hdue : Due f s k) (hk : k ≠ 0)
    (hover : k < childExtent (packetBits c) f.lt) : ∃ t, microStep u = .next t ∧ errorState t 2 1 u.pos := by
  cases hl : f.lt with
  | l0 =>
    have hlim := hdue.limit
    rw [progress_l0 hl] at hlim
    rw [hl, childExtent] at hover
    obtain ⟨t, ht, he, -⟩ := overshootIsMalformed u f fs hu.es (hu.frames.trans hf) hl (by rw [hlim, hu.pos]; omega)
    exact ⟨t, ht, he⟩
  | l1 =>
    rw [hl, childExtent] at hover
    omega

end Child

/-! ### All children -/

/-- At CLOSE of the frame that was `f`, with the children `cs` folded into it since `s`, `all` in all. -/
structure Closing (s t : State) (o : Bool) (f : Frame) (fs : List Frame) (all cs : List Packet) : Prop where
  es : t.es = .close
  top : ∃ g, t.frames = g :: fs ∧ g.op = f.op ∧ Folded s.params.width o g t.ovf all
  pos : t.pos.toNat = s.pos.toNat + packetsBits cs
  vacc : t.vacc = s.vacc + BitVec.ofNat 32 (versionSums cs)

/-- One child before the others. -/
theorem Closing.cons {s t u : State} {o : Bool} {f : Frame} {fs : List Frame} {before cs : List Packet} {c : Packet}
    (hu : Returned s u c) (hparams : u.params = s.params)
    (h : Closing (combineTop f fs u) t o (foldInto u.params.width f u.ret) fs (before ++ [c] ++ cs) cs) :
    Closing s t o f fs (before ++ c :: cs) (c :: cs) := by
  obtain ⟨he, ⟨g, hg, hop, hfold⟩, hpos, hvacc⟩ := h
  rw [combineTop_params, hparams, List.append_assoc] at hfold
  exact
    { es := he
      top := ⟨g, hg, hop, hfold⟩
      pos := by rw [hpos, combineTop_pos, hu.pos, packetsBits, Nat.add_assoc]
      vacc := by rw [hvacc, combineTop_vacc, hu.vacc, versionSums, BitVec.ofNat_add, BitVec.add_assoc] }

/-- R229: the children's runs, the NEXT before each and the one that goes to CLOSE. -/
theorem children_run {cs : List Packet} (hcs : ∀ c ∈ cs, PacketRuns c) {s : State} {rest : List Bool} {f : Frame}
    {fs : List Frame} {o : Bool} {before : List Packet} (h : Reading s .next (packetsEncode cs ++ rest))
    (hf : s.frames = f :: fs) (hd : packetsDepth cs + s.frames.length ≤ s.params.maxDepth)
    (hdue : Due f s (extent cs f.lt)) (hfold : Folded s.params.width o f s.ovf before) :
    ∃ t, engineRun (cs.length + 1 + packetsSteps cs) s = .next t ∧ Closing s t o f fs (before ++ cs) cs := by
  induction cs generalizing s f before with
  | nil =>
    rw [extent_nil] at hdue
    exact ⟨_, (engineRun_one s).trans (hdue.microStep_close h.es hf),
      { es := rfl, top := ⟨f, hf, rfl, by rwa [List.append_nil]⟩, pos := rfl, vacc := (BitVec.add_zero _).symm }⟩
  | cons c cs ih =>
    obtain ⟨hc, hcs⟩ := List.forall_mem_cons.1 hcs
    have hpos := childExtent_pos (packetBits_pos c) f.lt
    rw [packetsEncode, List.append_assoc] at h
    rw [packetsDepth] at hd
    rw [extent_cons] at hdue
    obtain ⟨u, hrun, hu, hparams, hread⟩ := child_combined hc h hf (by omega) hdue (by omega) (by omega)
    have hdue' := hu.due (fs := fs) hdue (by omega)
    rw [Nat.add_sub_cancel_left] at hdue'
    have hfold' := hfold.concat hu.value
    rw [← hu.ovf, ← hparams] at hfold'
    obtain ⟨t, ht, hclose⟩ := ih hcs hread rfl
      (by rw [length_frames_combineTop hf, combineTop_params, hparams]; omega) hdue' hfold'
    have hsteps : (c :: cs).length + 1 + packetsSteps (c :: cs) =
        packetSteps c + 1 + (cs.length + 1 + packetsSteps cs) := by
      rw [packetsSteps, List.length_cons]
      omega
    exact ⟨t, hsteps ▸ engineRun_trans hrun ht, Closing.cons hu hparams hclose⟩

/-! ### CLOSE -/

/-- R156: where the arity checks pass the frame is popped. -/
theorem microStep_close_of_arityOk {s : State} {f : Frame} {fs : List Frame} (he : s.es = .close)
    (hf : s.frames = f :: fs) (ha : arityOk f.op f.n.toNat = true) : microStep s = .next (popFrame f fs s) := by
  simp only [arityOk, Bool.and_eq_true, Bool.not_eq_true'] at ha
  rw [microStep_close he, closeStep_cons hf, ha.1, ha.2]
  rfl

/-- R229: an operator's own bits and its children, up to CLOSE. -/
theorem operator_run {v : BitVec 3} {op : Op} {lt : LenType} {cs : List Packet} (hcs : ∀ c ∈ cs, PacketRuns c)
    {s : State} {rest : List Bool}
    (h : Reading s .hdrV (headEncode op v (extent cs lt) lt ++ (packetsEncode cs ++ rest)))
    (hk : extent cs lt < 2 ^ lengthBits lt) (hd : packetsDepth cs + (s.frames.length + 1) ≤ s.params.maxDepth) :
    ∃ t, engineRun (4 + (cs.length + 1 + packetsSteps cs)) s = .next t ∧
      Closing (opened op v (extent cs lt) s lt) t s.ovf (openedFrame op (extent cs lt) s.pos lt) s.frames cs cs := by
  have hroom : s.frames.length < s.params.maxDepth := by omega
  have hframes := opened_frames op v (extent cs lt) s lt
  obtain ⟨t, hrun, hclose⟩ := children_run hcs (o := s.ovf) (before := []) (reading_opened h hroom) hframes
    (by rw [hframes, opened_params]; exact hd) (by rw [openedFrame_lt]; exact due_opened op v h hk)
    (by rw [opened_ovf]; exact folded_nil _ _ (openedFrame_n ..) (by rw [openedFrame_r, openedFrame_op]))
  exact ⟨t, engineRun_trans (engineRun_headEncode h hroom) hrun, hclose⟩

theorem packetRuns_operator {v : BitVec 3} {op : Op} {lt : LenType} {cs : List Packet}
    (hw : packetWf (.operator v op lt cs) = true) (hcs : ∀ c ∈ cs, PacketRuns c) :
    PacketRuns (.operator v op lt cs) := by
  intro s rest h hd
  obtain ⟨-, ha, hk⟩ := packetWf_operator.1 hw
  have hcount := length_lt_of_extent_lt hk
  rw [packetEncode_operator, List.append_assoc] at h
  rw [packetDepth] at hd
  obtain ⟨t, hrun, he, ⟨g, hg, hop, hfold⟩, hpos, hvacc⟩ := operator_run hcs h hk (by omega)
  obtain rfl : g.op = op := hop.trans (openedFrame_op ..)
  rw [opened_params] at hfold
  obtain ⟨hovf, hval⟩ := hfold.value h.width ha hcount v lt
  rw [← hfold.count hcount] at ha
  refine ⟨4 + (cs.length + 1 + packetsSteps cs) + 1, _, ?_,
    engineRun_step hrun (microStep_close_of_arityOk he hg ha), ?_⟩
  · rw [packetSteps]
    omega
  · exact
      { es := rfl
        frames := rfl
        pos := by
          rw [popFrame_pos, hpos, toNat_opened_pos h, headEncode_length, packetBits_operator, Nat.add_assoc]
        vacc := by rw [popFrame_vacc, hvacc, opened_vacc, versionSum, BitVec.ofNat_add, BitVec.add_assoc]
        ovf := hovf
        value := hval }

/-! ### The tree -/

mutual
/-- R229: every well-formed packet is run in its steps. -/
theorem packetRuns : ∀ p : Packet, packetWf p = true → PacketRuns p
  | .literal v ds, hw => packetRuns_literal v (by simpa [packetWf] using hw)
  | .operator v op lt cs, hw => packetRuns_operator hw (packetRuns_all cs (packetsWf_children hw))
theorem packetRuns_all : ∀ cs : List Packet, packetsWf cs = true → ∀ c ∈ cs, PacketRuns c
  | [], _ => nofun
  | c :: cs, hw => by
    simp only [packetsWf, Bool.and_eq_true] at hw
    exact List.forall_mem_cons.2 ⟨packetRuns c hw.1, packetRuns_all cs hw.2⟩
end

end Sys2Proof.Proofs
end

section
/-! The engine against the reference decoder where the parse fails: it ends in ERROR with the failure's code (R228). -/

namespace Sys2Proof.Proofs

open Sys2Proof Sys2Proof.Machine Sys2Proof.Laws Sys2Proof.Safety

/-! ### Runs that fail -/

/-- The engine runs from `s` into ERROR with the code of the reference's failure `e` (R228, R261). -/
def Fails (s : State) (e : ParseError) : Prop :=
  ∃ n t c, engineRun n s = .next t ∧ t.es = .error ∧ parseCode e = some c ∧ t.errCode = c

theorem fails_of_run {n : Nat} {s t : State} {e : ParseError} {d : Byte} {p : Word} {c : Byte}
    (hrun : engineRun n s = .next t) (ht : errorState t c d p) (hc : parseCode e = some c) : Fails s e :=
  ⟨n, t, c, hrun, ht.1, hc, ht.2.1⟩

theorem Fails.after {n : Nat} {s t : State} {e : ParseError} (h : Fails t e) (hrun : engineRun n s = .next t) :
    Fails s e := by
  obtain ⟨m, u, c, hu, he⟩ := h
  exact ⟨n + m, u, c, engineRun_trans hrun hu, he⟩

theorem Fails.after_step {s t : State} {e : ParseError} (h : Fails t e) (hstep : microStep s = .next t) : Fails s e :=
  h.after ((engineRun_one s).trans hstep)

/-! ### A stream that ends inside a packet's own fields -/

theorem sum_fieldWidths (i : Instr) : (fieldWidths i).sum = bitLength i := by
  cases i with
  | lit v ds =>
    simp [fieldWidths, bitLength]
    omega
  | _ => rfl

/-- Among fields that do not all fit there is a first one that does not (R124). -/
theorem exists_firstMissing {avail at0 : Nat} {ws : List Nat} (h0 : at0 ≤ avail) (h : avail < at0 + ws.sum) :
    ∃ off w, firstMissing avail at0 ws = some (off, w) := by
  induction ws generalizing at0 with
  | nil =>
    rw [List.sum_nil] at h
    omega
  | cons w ws ih =>
    rw [firstMissing]
    split
    case isTrue => exact ⟨at0, w, rfl⟩
    case isFalse hw =>
      rw [List.sum_cons] at h
      exact ih (by omega) (by omega)

/-- Bits that do not decode are the beginning of a packet's own fields, short of some (R104, R125). -/
theorem cut_of_decode_error {bits : List Bool} {e : DecodeError} (h : decode bits = .error e) :
    ∃ i more, i.wellFormed = true ∧ encode i = bits ++ more ∧ bits.length < bitLength i := by
  obtain ⟨-, more, i, rest, hd⟩ := onlyStreamsThatEndAreRejected bits e h
  obtain ⟨hw, hb⟩ := decode_eq_ok_iff.1 hd
  have hne : ∀ after, bits ≠ encode i ++ after := fun after ha => by
    rw [decode_eq_ok_iff.2 ⟨hw, ha⟩] at h
    cases h
  rcases List.append_eq_append_iff.1 hb with ⟨as, he, -⟩ | ⟨bs, hbs, -⟩
  · refine ⟨i, as, hw, he, ?_⟩
    rw [← encode_length hw, he, List.length_append]
    have : as ≠ [] := fun ha => hne [] (by rw [he, ha, List.append_nil, List.append_nil])
    have := List.length_pos_of_ne_nil this
    omega
  · exact absurd hbs (hne bs)

/-- R124, R228: where the stream ends inside the packet's own fields the engine raises OUT_OF_BITS. -/
theorem fails_cut {s : State} {bits : List Bool} {e : DecodeError} (h : Reading s .hdrV bits)
    (hd : decode bits = .error e) : Fails s .outOfBits := by
  obtain ⟨i, more, hw, he, hlen⟩ := cut_of_decode_error hd
  have havail : s.nbits.toNat - s.pos.toNat = bits.length := by
    have := h.length
    omega
  have hrun : engineRun (microSteps i) s = exec i s := by
    refine instructionIsItsMicroSteps i s hw h.es ?_
    rw [havail, min_eq_right hlen.le, he, List.take_left, h.stream]
  obtain ⟨off, w, hmiss⟩ := exists_firstMissing (avail := bits.length) (at0 := 0) (ws := fieldWidths i) (Nat.zero_le _)
    (by rw [sum_fieldWidths]; omega)
  obtain ⟨t, ht, herr, -⟩ :=
    cutShortInstructionRaisesOutOfBits i s off w hw (by have := h.length; omega) (by rw [havail]; exact hmiss)
  exact fails_of_run (hrun.trans ht) herr rfl

/-- R154: with a full stack an operator's length field is read and the push raises. -/
theorem fails_full {s : State} {op : Op} {v : BitVec 3} {k : Nat} {lt : LenType} {rest : List Bool}
    (h : Reading s .hdrV (headEncode op v k lt ++ rest)) (hd : s.params.maxDepth ≤ s.frames.length) :
    Fails s .depthExceeded := by
  have hfull := Nat.le_antisymm h.stack hd
  have hfits := h.fits
  rw [headEncode_length] at hfits
  cases lt with
  | l0 =>
    exact fails_of_run ((engineRun_operatorB h.es h.holds).trans (operatorB_fits hfits))
      (errorState_push_operatorHead hfull).1 rfl
  | l1 =>
    exact fails_of_run ((engineRun_operatorN h.es h.holds).trans (operatorN_fits hfits))
      (errorState_push_operatorHead hfull).1 rfl

/-- R214, R215: CLOSE raises where an arity check fails. -/
theorem fails_arity {s : State} {f : Frame} {fs : List Frame} (he : s.es = .close) (hf : s.frames = f :: fs)
    (ha : ¬arityOk f.op f.n.toNat = true) : Fails s .malformedPacket := by
  obtain ⟨hchild, htwo⟩ := wrongArityIsMalformed s f fs he hf
  rcases not_and_or.1 (mt arityOk_iff.2 ha) with h | h <;> obtain ⟨hop, hn⟩ := Classical.not_imp.1 h
  · obtain ⟨t, ht, herr, -⟩ := hchild (needsChild_iff.1 hop) (toNat_eq_zero_iff.1 (not_not.1 hn))
    exact fails_of_run ((engineRun_one s).trans ht) herr rfl
  · obtain ⟨t, ht, herr, -⟩ := htwo (isComparison_iff.1 hop) (mt (congrArg BitVec.toNat) hn)
    exact fails_of_run ((engineRun_one s).trans ht) herr rfl

/-! ### The failures of the parse -/

/-- Where the parse of the packet at the cursor fails, so does the engine. -/
def PacketFails (fuel : Nat) : Prop :=
  ∀ {s : State} {bits : List Bool} {e : ParseError}, Reading s .hdrV bits → bits.length < fuel →
    parsePacket s.params.maxDepth fuel s.frames.length bits = .error e → Fails s e

/-- Where the parse of the children that are due fails, so does the engine. -/
def ChildrenFail (fuel : Nat) : Prop :=
  ∀ {s : State} {bits : List Bool} {e : ParseError} {f : Frame} {fs : List Frame} {left : Nat}, Reading s .next bits →
    s.frames = f :: fs → Due f s left → bits.length + 1 < fuel →
    parseChildren s.params.maxDepth fuel s.frames.length left bits f.lt = .error e → Fails s e

theorem packetFails_succ {fuel : Nat} (hcs : ChildrenFail fuel) : PacketFails (fuel + 1) := by
  intro s bits e h hfuel hparse
  have hp := parsePacket_parse s.params.maxDepth fuel s.frames.length bits
  rw [hparse] at hp
  generalize ho : (.error e : Parsed Packet) = o at hp
  cases hp with
  | literal v ds rest _ _ => cases ho
  | cut d hd =>
    cases ho
    exact fails_cut h hd
  | full op v lt k rest hb hd =>
    cases ho
    rw [hb] at h
    exact fails_full h hd
  | operator op v lt k body hk hb hroom =>
    subst hb
    rcases hc : parseChildren s.params.maxDepth fuel (s.frames.length + 1) k body lt with d | ⟨cs, after⟩ <;>
      rw [hc, closeOperator] at ho
    · cases ho
      have hframes := opened_frames op v k s lt
      rw [List.length_append, headEncode_length] at hfuel
      refine Fails.after (hcs (reading_opened h hroom) hframes (due_opened op v h hk) (by omega) ?_)
        (engineRun_headEncode h hroom)
      rw [openedFrame_lt, opened_params, hframes]
      exact hc
    · split at ho
      case isTrue => cases ho
      case isFalse ha =>
        cases ho
        obtain ⟨hw, hdepth, rfl, rfl⟩ := (parse_sound _ _).2 hroom hc
        obtain ⟨t, hrun, he, ⟨g, hg, hop, hfold⟩, -, -⟩ := operator_run (packetRuns_all cs hw) h hk hdepth
        obtain rfl : g.op = op := hop.trans (openedFrame_op ..)
        rw [← hfold.count (length_lt_of_extent_lt hk)] at ha
        exact (fails_arity he hg ha).after hrun

theorem childrenFail_succ {fuel : Nat} (hp : PacketFails fuel) (hcs : ChildrenFail fuel) : ChildrenFail (fuel + 1) := by
  intro s bits e f fs left h hf hdue hfuel hparse
  have hq := parseChildren_parse s.params.maxDepth fuel s.frames.length left bits f.lt
  rw [hparse] at hq
  generalize ho : (.error e : Parsed (List Packet)) = o at hq
  cases hq with
  | done _ => cases ho
  | failed d hl hc =>
    cases ho
    have hnext := hdue.microStep_child hl h.es hf
    exact (hp (h.step hnext rfl h.stack rfl) (by omega) hc).after_step hnext
  | overshot c rest hl hc hover =>
    cases ho
    obtain ⟨hw, hdepth, rfl⟩ := (parse_sound _ _).1 h.stack hc
    rw [List.length_append, packetEncode_length, Nat.add_sub_cancel] at hover
    obtain ⟨u, hrun, hu⟩ := child_run (packetRuns c hw) h hf hdepth hdue hl
    obtain ⟨t, ht, herr⟩ := hu.microStep_overshoot hf hdue hl hover
    exact fails_of_run (engineRun_step hrun ht) herr rfl
  | child c rest hl hc hfit =>
    obtain ⟨hw, hdepth, rfl⟩ := (parse_sound _ _).1 h.stack hc
    rw [List.length_append, packetEncode_length, Nat.add_sub_cancel] at hfit ho
    rw [List.length_append, packetEncode_length] at hfuel
    have hpos := packetBits_pos c
    obtain ⟨u, hrun, hu, hparams, hread⟩ := child_combined (packetRuns c hw) h hf hdepth hdue hl hfit
    rcases hm : parseChildren s.params.maxDepth fuel s.frames.length (left - childExtent (packetBits c) f.lt) rest f.lt
      with d | ⟨ds, after⟩ <;> rw [hm, consChild] at ho <;> cases ho
    refine Fails.after (hcs hread rfl (hu.due hdue hfit) (by omega) ?_) hrun
    rw [combineTop_params, hparams, length_frames_combineTop hf]
    exact hm

theorem parse_fails (fuel : Nat) : PacketFails fuel ∧ ChildrenFail fuel := by
  induction fuel with
  | zero => exact ⟨fun _ h => absurd h (Nat.not_lt_zero _), fun _ _ _ h => absurd h (Nat.not_lt_zero _)⟩
  | succ fuel ih => exact ⟨packetFails_succ ih.2, childrenFail_succ ih.1 ih.2⟩

end Sys2Proof.Proofs
end

section
/-! A whole run, from START over SCAN and the first packet to DONE or ERROR (R228, R229). -/

namespace Sys2Proof.Proofs

open Sys2Proof Sys2Proof.Machine Sys2Proof.Laws Sys2Proof.Safety

/-! ### SCAN -/

/-- R122: SCAN takes a step for each character and one more. -/
theorem engineRun_scan {s : State} {k : Nat} (he : s.es = .scan) (hk : s.nbits.toNat / 4 = s.scanI.toNat + k)
    (hx : ∀ i, i < s.nbits.toNat / 4 → i < s.params.maxChars ∧ ∃ d, hexval (ibufByte s i) = some d) :
    ∃ i, engineRun (k + 1) s = .next { s with scanI := i, es := .hdrV } := by
  induction k generalizing s with
  | zero => exact ⟨s.scanI, by rw [engineRun_one, microStep_scan he, scanStep, if_pos (by omega)]⟩
  | succ k ih =>
    have hi : (s.scanI + 1).toNat = s.scanI.toNat + 1 := BitVec.toNat_add_of_lt (y := 1)
      (Nat.lt_of_le_of_lt (by omega : s.scanI.toNat + 1 ≤ s.nbits.toNat) s.nbits.isLt)
    obtain ⟨hmax, d, hd⟩ := hx s.scanI.toNat (by omega)
    have hstep : microStep s = .next { s with scanI := s.scanI + 1 } := by
      rw [microStep_scan he, scanStep, if_neg (by omega), ibufAt_eq_ibufByte hmax]
      simp only [hd]
    obtain ⟨i, hrun⟩ := ih (s := { s with scanI := s.scanI + 1 }) he (by simp only [hi]; omega) hx
    exact ⟨i, (engineRun_succ hstep _).trans hrun⟩

/-- R120: START has the whole stream ahead. -/
theorem reading_start {s : State} {bits : List Bool} (hl : s.params.legal = true)
    (hlen : s.len.toNat ≤ s.params.maxChars) (hb : streamBits s 0 (4 * s.len.toNat) = some bits) :
    Reading (enterScan (clearRun s)) .scan bits := by
  have hfits := runFits_start hl hlen
  have hbits := streamBits_length hb
  exact
    { es := rfl
      width := width_pos hl
      stack := Nat.zero_le _
      small := nbits_le_of_runFits hfits hl
      length := by rw [hfits.nbitsIs, hbits]; exact Nat.zero_add _
      stream := by rw [hbits, streamBits_congr (s := s) (by rfl) (by rfl) (by rfl)]; exact hb }

/-- R120, R122: START and SCAN over hex characters lead to the first packet. -/
theorem start_run {s : State} {bits : List Bool} (hl : s.params.legal = true) (hlen : s.len.toNat ≤ s.params.maxChars)
    (hb : streamBits s 0 (4 * s.len.toNat) = some bits) :
    ∃ u, engineRun (s.len.toNat + 1) (startRun s) = .next u ∧ Reading u .hdrV bits ∧ u.pos = 0 ∧ u.frames = [] ∧
      u.vacc = 0 ∧ u.ovf = false ∧ u.params = s.params := by
  have hend := scanEnd_of_runFits (runFits_start hl hlen)
  rw [enterScan_len, clearRun_len] at hend
  obtain ⟨i, hrun⟩ := engineRun_scan (s := enterScan (clearRun s)) (k := s.len.toNat) rfl
    (hend.trans (Nat.zero_add _).symm) fun i hi => by
      rw [hend] at hi
      have hx := hexval_of_streamBits hb (k := 4 * i) (Nat.zero_le _) (by omega)
      rwa [Nat.mul_div_cancel_left _ (by decide)] at hx
  rw [startRun_fits hlen]
  exact ⟨_, hrun, (reading_start hl hlen hb).after (as := []) hrun rfl (Nat.zero_le _) rfl, rfl, rfl, rfl, rfl, rfl⟩

/-! ### The end of the run -/

mutual
/-- R221: versions of at most 7, and no packet is empty. -/
theorem versionSum_le : ∀ p : Packet, versionSum p ≤ 7 * packetBits p
  | .literal v ds => by
    have := v.isLt
    rw [versionSum, packetBits]
    omega
  | .operator v op lt cs => by
    have := v.isLt
    have := versionSums_le cs
    rw [versionSum, packetBits_operator]
    omega
theorem versionSums_le : ∀ cs : List Packet, versionSums cs ≤ 7 * packetsBits cs
  | [] => Nat.zero_le _
  | c :: cs => by
    have := versionSum_le c
    have := versionSums_le cs
    rw [versionSums, packetsBits]
    omega
end

/-- R224, R228: what `finish()` latches after the run of the whole tree. -/
theorem doneAs_finishRun {u t : State} {p : Packet} {rest : List Bool} (h : Reading u .hdrV (packetEncode p ++ rest))
    (hpos : u.pos = 0) (hvacc : u.vacc = 0) (hovf : u.ovf = false) (ht : Returned u t p)
    (hparams : t.params = u.params) : doneAs (finishRun t) (packetEncode p ++ rest) rest p := by
  have hbits : t.pos.toNat = packetBits p := by
    rw [ht.pos, hpos]
    exact Nat.zero_add _
  have hsum : t.vacc.toNat = versionSum p := by
    have hfits := h.fits
    have hsmall := h.small
    have hle := versionSum_le p
    rw [packetEncode_length] at hfits
    have hfirst : t.vacc = BitVec.ofNat 32 (versionSum p) := ht.vacc.trans (by rw [hvacc]; exact BitVec.zero_add _)
    rw [hfirst, BitVec.toNat_ofNat, Nat.mod_eq_of_lt (by omega)]
  have hflag : t.ovf = treeOverflows t.params.width p := by rw [ht.ovf, hovf, Bool.false_or, hparams]
  refine ⟨rfl, ?_, hbits, hsum, hflag, fun ho => ?_, fun ho => ?_⟩
  · rw [List.length_append, packetEncode_length, Nat.add_sub_cancel]
    exact hbits
  · rw [finishRun_params, ← hflag] at ho
    simp [ho]
  · rw [finishRun_params] at ho
    have hval := ht.value (by rw [← hparams]; exact ho)
    rw [← hflag] at ho
    simp [ho, hval]

/-- Before a BUSY state of a run every state was BUSY (R229). -/
theorem busy_before {n m : Nat} {s t u : State} (hn : engineRun n s = .next t) (ht : busy t)
    (hm : engineRun m s = .next u) (hle : m ≤ n) : busy u := by
  by_contra hu
  have hstay := engineRun_add hm (n - m)
  rw [Nat.add_sub_cancel' hle, hn, engineRun_quiet (Bool.eq_false_iff.2 hu)] at hstay
  cases hstay
  exact hu ht

/-- Settles O57: SCAN, then the first packet: a tree is run as in `packetRuns`, a failed parse as in `parse_fails`. -/
theorem engineMatchesReference : Obligations.EngineMatchesReference := by
  intro s bits hl _ hlen hb
  obtain ⟨u, hscan, hu, hpos, hframes, hvacc, hovf, hparams⟩ := start_run hl hlen hb
  have hdepth : u.frames.length = 0 := by rw [hframes]; rfl
  rcases hp : referenceDecode s.params.maxDepth bits with e | ⟨p, rest⟩
  · refine ((parse_fails (bits.length + 1)).1 hu (Nat.lt_succ_self _) ?_).after hscan
    rw [hparams, hdepth]
    exact hp
  · obtain ⟨hw, hnest, rfl⟩ := (parse_sound _ _).1 (Nat.zero_le _) hp
    obtain ⟨n, t, hn, hrun, ht⟩ := packetRuns p hw hu (by rw [hparams, hdepth]; exact hnest)
    have hret := engineRun_trans hscan hrun
    have hend := engineRun_step hret (microStep_finish ht.es (ht.frames.trans hframes))
    rw [Nat.add_assoc, hn] at hend
    have hkept := params_of_engineRun hrun
    refine ⟨⟨_, hend, hkept.trans hparams, doneAs_finishRun hu hpos hvacc hovf ht hkept⟩, fun m v hm hv => ?busy⟩
    case busy => exact busy_before hret (by rw [busy, ht.es]; rfl) hv (by omega)

end Sys2Proof.Proofs
end

section
/-! The host commands: the register or IBUF entry behind each offset, what a read of it returns (R242), and which writes
are ignored (R22, R67, R244, R246). -/

namespace Sys2Proof.Proofs

open Sys2Proof Sys2Proof.Machine Sys2Proof.Laws Sys2Proof.Safety

/-! ### Registers -/

/-- R40: VALUE_j stands at 0x020 + 4j. -/
theorem regAt_value {p : Config.Params} {j : Nat} (hj : j < p.width / 32) :
    regAt p (0x020 + 4 * j) = some (.value j) := by
  have hindex : (0x020 + 4 * j - 0x020) / 4 = j := by omega
  unfold regAt
  iterate 7 rw [if_neg (by omega)]
  rw [hindex, if_pos ⟨by omega, by omega, hj⟩]

theorem dispatch_register {p : Config.Params} {off : Nat} {r : HostReg} (h : regAt p off = some r)
    (reg : HostReg → State) (entry : Nat → State) (free : State) : dispatch p off 4 reg entry free = .next (reg r) := by
  rw [dispatch, if_pos rfl, h]

theorem hostEvent_readRegister {s : State} {off : Nat} {r : HostReg} {w : Word} (h : regAt s.params off = some r)
    (hw : regRead s r = w) : hostEvent (.read off 4) s = .next { s with reply := w } := by
  rw [hostEvent, hostRead_eq_dispatch, dispatch_register h, hw, answer]

theorem hostEvent_writeRegister {s : State} {off : Nat} {r : HostReg} (v : Word) (h : regAt s.params off = some r) :
    hostEvent (.write off 4 v) s = .next (regWrite v s r) := by
  rw [hostEvent, hostWrite_eq_dispatch, dispatch_register h]

/-! ### IBUF entries -/

theorem dispatch_entry {p : Config.Params} {i : Nat} (hi : i < p.maxChars) (reg : HostReg → State)
    (entry : Nat → State) (free : State) : dispatch p (0x1000 + i) 1 reg entry free = .next (entry i) := by
  have hindex : ibufIndex p (0x1000 + i) = some i := by
    rw [ibufIndex, if_pos (by omega), Nat.add_sub_cancel_left]
  rw [dispatch, if_neg (by decide), if_pos rfl, hindex]

theorem hostEvent_readEntry {s : State} {i : Nat} (hi : i < s.params.maxChars) :
    hostEvent (.read (0x1000 + i) 1) s = .next { s with reply := (ibufByte s i).setWidth 32 } := by
  rw [hostEvent, hostRead_eq_dispatch, dispatch_entry hi, answer]

theorem hostEvent_writeEntry {s : State} {i : Nat} (v : Word) (hi : i < s.params.maxChars) :
    hostEvent (.write (0x1000 + i) 1 v) s = .next (ibufWrite i (v.setWidth 8) s) := by
  rw [hostEvent, hostWrite_eq_dispatch, dispatch_entry hi]

theorem ibufByte_write_same (s : State) (i : Nat) (b : Byte) :
    ibufByte { s with ibuf := Memory.write s.ibuf i b } i = b := by
  rw [ibufByte, lookup_write_same, Option.getD_some]

theorem ibufByte_write_other (s : State) {i j : Nat} (b : Byte) (h : j ≠ i) :
    ibufByte { s with ibuf := Memory.write s.ibuf i b } j = ibufByte s j := by
  rw [ibufByte, lookup_write_other s.ibuf b h, ibufByte]

/-- Settles O47: outside BUSY the entry's byte is listed, and a read of it takes the last byte listed. -/
theorem ibufWriteReadsBack : Obligations.IbufWriteReadsBack := by
  refine ⟨fun s i v hb hi => ⟨Memory.write s.ibuf i (v.setWidth 8), ?_, ibufByte_write_same s i _,
    fun j hj => ibufByte_write_other s _ hj, wf_write i _⟩, fun _ _ => hostEvent_readEntry⟩
  rw [hostEvent_writeEntry v hi]
  exact congrArg Host.Outcome.next (if_neg hb)

/-! ### Writes that are ignored -/

/-- R244: a host write that is not ignored comes outside BUSY. -/
theorem eq_of_writeMove_busy {s t : State} (h : WriteMove s t) (hb : busy s) : t = s := by
  cases h with
  | ignored => rfl
  | start hn | len _ hn | ibuf _ _ hn _ => exact absurd (hn.symm.trans hb) nofun

theorem hostEvent_writeRegister_busy {s : State} {off : Nat} {r : HostReg} (v : Word) (hb : busy s)
    (h : regAt s.params off = some r) : hostEvent (.write off 4 v) s = .next s := by
  rw [hostEvent_writeRegister v h, eq_of_writeMove_busy (regWrite_move v s r) hb]

theorem hostEvent_writeEntry_busy {s : State} {i : Nat} (v : Word) (hb : busy s) (hi : i < s.params.maxChars) :
    hostEvent (.write (0x1000 + i) 1 v) s = .next s := by
  rw [hostEvent_writeEntry v hi, eq_of_writeMove_busy (ibufWrite_move i _ s hi) hb]

theorem eq_of_hostEvent_write_busy {s t : State} {off size : Nat} {v : Word} (hb : busy s)
    (h : hostEvent (.write off size v) s = .next t) : t = s := by
  rcases hostWrite_move off size v s with ⟨u, e, hu⟩ | e <;> cases e.symm.trans h
  exact eq_of_writeMove_busy hu hb

/-- R246: only CTRL and LEN can be written. -/
theorem hostEvent_write_readOnly {s : State} {off : Nat} {r : HostReg} (v : Word) (h : regAt s.params off = some r)
    (hr : r ≠ .ctrl ∧ r ≠ .len) : hostEvent (.write off 4 v) s = .next s := by
  obtain ⟨hc, hl⟩ := hr
  rw [hostEvent_writeRegister v h]
  cases r with
  | ctrl => exact absurd rfl hc
  | len => exact absurd rfl hl
  | status | err | errPos | pos | vsum | value => rfl

/-- R246: the read-only registers below VALUE_0. -/
theorem regAt_readOnly {off : Nat} (p : Config.Params) (h : off ∈ [0x004, 0x008, 0x00C, 0x014, 0x018]) :
    ∃ r, regAt p off = some r ∧ r ≠ .ctrl ∧ r ≠ .len := by
  fin_cases h
  · exact ⟨.status, rfl, nofun, nofun⟩
  · exact ⟨.err, rfl, nofun, nofun⟩
  · exact ⟨.errPos, rfl, nofun, nofun⟩
  · exact ⟨.pos, rfl, nofun, nofun⟩
  · exact ⟨.vsum, rfl, nofun, nofun⟩

/-- R22: a CTRL write with bit 0 clear starts nothing. -/
theorem hostEvent_write_clearStart {s : State} {v : Word} (hv : v.getLsbD 0 = false) :
    hostEvent (.write 0 4 v) s = .next s := by
  rw [hostEvent_writeRegister v (r := .ctrl) rfl, regWrite, ctrlWrite, hv, Bool.false_and]
  rfl

/-- Settles O41: BUSY stops every write's effect; the registers other than CTRL and LEN, and the unmapped offsets, have
none in any state. -/
theorem ignoredHostWrites : Obligations.IgnoredHostWrites := by
  refine ⟨fun s v hb => ⟨?ctrl, ?len, ?entry⟩, fun _ _ _ _ _ => eq_of_hostEvent_write_busy, fun s v off ho => ?readOnly,
    fun s v j hj => ?value, fun _ _ => hostEvent_write_clearStart,
    fun s off size v hl ho ha => (unmappedOffsetsReadZero s off size v hl ho ha).2⟩
  case ctrl => exact hostEvent_writeRegister_busy (r := .ctrl) v hb rfl
  case len => exact hostEvent_writeRegister_busy (r := .len) v hb rfl
  case entry => exact fun i => hostEvent_writeEntry_busy v hb
  case readOnly =>
    obtain ⟨r, h, hr⟩ := regAt_readOnly s.params ho
    exact hostEvent_write_readOnly v h hr
  case value => exact hostEvent_write_readOnly v (regAt_value hj) ⟨nofun, nofun⟩

/-- Settles O46: LEN holds all 32 bits, and the write's only guard is BUSY. -/
theorem lenWriteStores : Obligations.LenWriteStores := by
  refine fun s v => ⟨fun hb => ?_, fun hb => hostEvent_writeRegister_busy (r := .len) v hb rfl⟩
  rw [hostEvent_writeRegister v (r := .len) rfl]
  exact congrArg Host.Outcome.next (if_neg hb)

/-! ### What the registers read -/

/-- The bits of a concatenation, read as a number. -/
theorem toNat_append_add {m n : Nat} (x : BitVec m) (y : BitVec n) : (x ++ y).toNat = x.toNat * 2 ^ n + y.toNat := by
  rw [BitVec.toNat_append, ← Nat.shiftLeft_add_eq_or_of_lt y.isLt, Nat.shiftLeft_eq]

/-- R23: STATE in bits 1 and 0, VALUE_VALID in bit 2, VALUE_OVF in bit 3. -/
theorem toNat_statusWord (s : State) :
    (statusWord s).toNat = s.es.stateCode.toNat + 4 * s.valueValid.toNat + 8 * s.valueOvf.toNat := by
  simp only [statusWord, toNat_append_add, BitVec.toNat_ofBool, BitVec.toNat_zero]
  omega

/-- R25: CODE in bits 7 to 0, DETAIL in bits 15 to 8. -/
theorem toNat_errWord (s : State) : (errWord s).toNat = s.errCode.toNat + 256 * s.errDetail.toNat := by
  simp only [errWord, toNat_append_add, BitVec.toNat_zero]
  omega

/-- R40: VALUE_j holds bits 32j+31 to 32j. -/
theorem toNat_valueWord (s : State) (j : Nat) : (valueWord s j).toNat = s.valueR / 2 ^ (32 * j) % 2 ^ 32 :=
  BitVec.toNat_ofNat _ _

/-- Settles O43: each register's own word, in the order of the register map. -/
theorem registerReads : Obligations.RegisterReads := fun s =>
  ⟨0, statusWord s, errWord s, s.errPosR, s.len, s.posR, s.vsumR,
    hostEvent_readRegister (r := .ctrl) rfl rfl, rfl,
    hostEvent_readRegister (r := .status) rfl rfl, toNat_statusWord s,
    hostEvent_readRegister (r := .err) rfl rfl, toNat_errWord s,
    hostEvent_readRegister (r := .errPos) rfl rfl, rfl,
    hostEvent_readRegister (r := .len) rfl rfl, rfl,
    hostEvent_readRegister (r := .pos) rfl rfl, rfl,
    hostEvent_readRegister (r := .vsum) rfl rfl, rfl,
    fun j hj => ⟨valueWord s j, hostEvent_readRegister (regAt_value hj) rfl, toNat_valueWord s j⟩⟩

/-- Settles O53: the invariant keeps the result registers clear while BUSY. -/
theorem resultsReadZeroWhileBusy : Obligations.ResultsReadZeroWhileBusy := by
  intro s h hb
  obtain ⟨⟨hcode, hdetail, herrPos⟩, ⟨hvsum, hvalue, hvalid, hovf⟩, hpos⟩ :=
    (resultsFit_iff_clear (.inr hb)).1 h.results
  refine ⟨hostEvent_readRegister (r := .status) rfl ?status, fun off ho => ?_,
    fun j hj => hostEvent_readRegister (regAt_value hj) ?value⟩
  case status =>
    have hcode : s.es.stateCode = 1 := of_decide_eq_true hb
    rw [regRead, statusWord, hcode, hvalid, hovf]
    rfl
  case value => rw [regRead, valueWord, hvalue, Nat.zero_div]; rfl
  fin_cases ho
  · exact hostEvent_readRegister (r := .err) rfl (by rw [regRead, errWord, hcode, hdetail]; rfl)
  · exact hostEvent_readRegister (r := .errPos) rfl herrPos
  · exact hostEvent_readRegister (r := .pos) rfl hpos
  · exact hostEvent_readRegister (r := .vsum) rfl hvsum

end Sys2Proof.Proofs
end

section
/-! Error entry (R269, R270): the only way into ERROR is `raiseError`, with one of the codes a run can end in (R261). -/

namespace Sys2Proof.Proofs

open Sys2Proof Sys2Proof.Machine Sys2Proof.Laws Sys2Proof.Safety

/-- Error entry writes no register but R270's. -/
theorem withErrorOf_raiseError (e : ErrKind) (d : Byte) (p : Word) (s : State) :
    withErrorOf (raiseError e d p s) s = raiseError e d p s := rfl

/-- A move that enters ERROR is an error entry: every other move goes to another micro-state, or stays in its own. -/
theorem Move.eq_raiseError {s t : State} (h : Move s t) (hs : s.es ≠ .error) (ht : t.es = .error) :
    ∃ e d p, Raises s e d p ∧ t = raiseError e d p s := by
  cases h with
  | raise _ hr => exact ⟨_, _, _, hr, rfl⟩
  | quiet _ | scanOk _ _ _ _ _ _ => exact absurd ht hs
  | _ => cases ht

/-- The engine raises codes 1 to 4: LEN_RANGE is START's alone (R121, R261). -/
theorem Raises.code_bounds {s : State} {e : ErrKind} {d : Byte} {p : Word} (h : Raises s e d p) :
    1 ≤ e.code.toNat ∧ e.code.toNat ≤ 4 := by
  cases h <;> decide

/-- Settles O37: a micro-step into ERROR is an error entry with one of the engine's codes. -/
theorem raiseWritesOnlyTheErrorRegisters : Obligations.RaiseWritesOnlyTheErrorRegisters := by
  intro s t h hs ht
  obtain ⟨e, d, p, hr, rfl⟩ := (move_of_microStep h).eq_raiseError hs ht
  exact ⟨(withErrorOf_raiseError e d p s).symm, rfl, rfl, rfl, rfl, hr.code_bounds⟩

end Sys2Proof.Proofs
end

section
/-! Hardware reset (R300, R301): the one event that ends a run from outside. -/

namespace Sys2Proof.Proofs

open Sys2Proof Sys2Proof.Machine

/-- Settles O49: the host-visible registers are those of R50 (`resetState`), and the rest is the instance's own. -/
theorem hardResetFromAnyState : Obligations.HardResetFromAnyState := by
  intro s es hs
  obtain ⟨hidle, hlen, hcode, hdetail, herrPos, hpos, hvsum, hvalue, hvalid, hovf, hibuf, -⟩ := resetState
  exact ⟨hardReset { s with schedule := es }, step_eq_runEvent hs, hidle, hlen, hcode, hdetail, herrPos, hpos, hvsum,
    hvalue, hvalid, hovf, hibuf, rfl, rfl, rfl⟩

end Sys2Proof.Proofs
end
